-- ==== Sys2Proof/Word.lean ====
section
/-! DEFINITION. The word types of the block (00_scope.md R11): a byte is 8 bits, a word16 is 16 bits,
a word32 is 32 bits, all unsigned unless a rule says "signed". -/

namespace Sys2Proof

/-- A byte: 8 bits, value 0 to 255 (R11). -/
abbrev Byte := BitVec 8

/-- A word16 (R11). -/
abbrev Word16 := BitVec 16

/-- A word32 (R11). -/
abbrev Word32 := BitVec 32

end Sys2Proof
end

