-- ==== Sys2Proof/Config.lean ====
section
/-! DEFINITION. What an implementation fixes: the parameters of 00_scope.md R8 to R10, and the one value
that the spec leaves free (93_implementation_defined.md U4). -/

namespace Sys2Proof

/-- The byte order of stored multi-byte values, the values of the parameter `STORE_ENDIAN` (R10, R64). -/
inductive Endian where
  | little
  | big
  deriving DecidableEq, Repr

/-- The two checksum algorithms (R110): CRC-16/CCITT-FALSE and CRC-16/MODBUS. -/
inductive CrcAlg where
  | ccittFalse
  | modbus
  deriving DecidableEq, Repr

namespace Config

/-! ### Parameters whose values the source fixes (R8) -/

/-- A request frame shorter than this is `InvalidLength` (R8, `MIN_FRAME`). -/
def minFrame : Nat := 8

/-- The initial value of both CRC algorithms (R8, `CRC_INIT`). -/
def crcInitValue : Word16 := 0xFFFF#16

/-- The constant xored in by CRC-16/MODBUS (R8, `POLY_MODBUS_REFLECTED`). -/
def polyModbusReflected : Word16 := 0xA001#16

/-- The constant xored in by CRC-16/CCITT-FALSE (R10, `POLY_CCITT`; from general knowledge, D14). -/
def polyCcitt : Word16 := 0x1021#16

/-- The slave address accepted besides the configured one (R8, `BROADCAST`). -/
def broadcast : Byte := 0x00#8

/-- Seconds to whose multiples a timestamp is rounded down (R8, `QUANTUM`). -/
def quantum : Nat := 60

/-- The size of one ConfigRecord copy in storage (R8, `PAGE_BYTES`). -/
def pageBytes : Nat := 1024

/-- The storage offset of the primary ConfigRecord copy (R8, `CFG_PRIMARY`). -/
def cfgPrimary : Nat := 0

/-- The storage offset of the secondary ConfigRecord copy (R8, `CFG_SECONDARY`). -/
def cfgSecondary : Nat := 1024

/-- The storage offset where the ring regions start (R8, `STAT_PAGE`). -/
def statPage : Nat := 0x1000

/-- The bytes of one ring slot (R8, `SLOT_BYTES`). -/
def slotBytes : Nat := 4

/-- What is or-ed into the function code of an exception response (R8, `EXC_FLAG`). -/
def excFlag : Byte := 0x80#8

/-! ### Parameters that the spec decides (R10) -/

/-- The size of the frame buffer (R10, R32, `FB_CAP`). -/
def fbCap : Nat := 256

/-- The size of the header image (R10, R37, `HDR_BYTES`). -/
def hdrBytes : Nat := 14

/-- The bytes of the header image that its CRC covers (R10, `HDR_CRC_SPAN`). -/
def hdrCrcSpan : Nat := 12

/-- The size of the Byte Storage's address space: an offset is a `u32` (R60, R69; log entry 9). -/
def stCap : Nat := 2 ^ 32

/-! ### Ring instances (R9)

The capacities are the source's approximate figures, used as defaults only. -/

/-- Default CAPACITY of the hour ring (R9). -/
def hourCapacity : Nat := 2160

/-- ELEMENT_SIZE of the hour ring (R9). -/
def hourElement : Nat := 3600

/-- Default CAPACITY of the day ring (R9). -/
def dayCapacity : Nat := 1116

/-- ELEMENT_SIZE of the day ring (R9). -/
def dayElement : Nat := 86400

/-- Default CAPACITY of the month ring (R9). -/
def monthCapacity : Nat := 120

/-- ELEMENT_SIZE of the month ring, 31 days (R9). -/
def monthElement : Nat := 2678400

/-! ### Open parameters (R10, U1, U2, U10, U14, U19) -/

/-- The open parameters of a model instance, with the spec's defaults. They are fixed for the life of an
instance (R38): the state carries them, no step changes them (log entry 6). -/
structure Params where
  /-- `STORE_ENDIAN` (R64, U1): the byte order of the header image, the page CRC and the ring slots. -/
  storeEndian : Endian := .little
  /-- `HDR_CRC_ALG` (R110, U2): the algorithm of the ring header's CRC. -/
  hdrCrcAlg : CrcAlg := .ccittFalse
  /-- `PAGE_PAD` (R203, U14): the byte that fills a page beyond the record. -/
  pagePad : Byte := 0x00#8
  /-- U19, D36: whether the host answers a request addressed to 0 (default: like any other). -/
  answerBroadcast : Bool := true
  /-- U10: whether `find` propagates a failed slot read as `Storage` (default: it answers `None`). -/
  findPropagates : Bool := false
  deriving DecidableEq, Repr

/-- FREE VALUE (U4; log entry 16). The record bytes that the handler's patch leaves for a 0x10 request
whose byte count is zero or not twice its quantity: "the handler's behaviour on it is `any value`".
Arguments: the record's bytes, the start address, the quantity and the payload. -/
opaque mismatchedPatch : List Byte → Nat → Nat → List Byte → List Byte

end Config

end Sys2Proof
end

