-- ==== Sys2Proof/Machine/Bytes.lean ====
section
/-! DEFINITION. Bit fields and byte orders (00_scope.md R11, 20_memory.md R63 to R65). -/

namespace Sys2Proof.Machine

/-- `lo8(v) = v[7:0]` (R11). -/
def lo8 (v : Word16) : Byte := v.extractLsb' 0 8

/-- `hi8(v) = v[15:8]` (R11). -/
def hi8 (v : Word16) : Byte := v.extractLsb' 8 8

/-- `hi : lo`, the first in the high bits (R11). -/
def join16 (hi lo : Byte) : Word16 := hi ++ lo

/-- The two bytes of a word16, the high byte first: the wire order of a request's fields (R63). -/
def be16Bytes (v : Word16) : List Byte := [hi8 v, lo8 v]

/-- The two bytes of a frame's CRC, the low byte first (R63, R90). -/
def crcBytes (v : Word16) : List Byte := [lo8 v, hi8 v]

/-- The number whose bytes, least significant first, are given (R11, `le16`, `le32`). -/
def natOfLe : List Byte → Nat
  | [] => 0
  | b :: bs => b.toNat + 256 * natOfLe bs

/-- The `n` low bytes of a number, least significant first (the inverse of `natOfLe`). -/
def leOfNat : Nat → Nat → List Byte
  | 0, _ => []
  | n + 1, v => BitVec.ofNat 8 v :: leOfNat n (v / 256)

/-- The number that bytes stand for in a byte order (R11, `st16`, `st32`). -/
def natOfBytes (e : Endian) (bs : List Byte) : Nat :=
  match e with
  | .little => natOfLe bs
  | .big => natOfLe bs.reverse

/-- The `n` bytes of a number in a byte order (R167, `put16`, `put32`). -/
def bytesOfNat (e : Endian) (n v : Nat) : List Byte :=
  match e with
  | .little => leOfNat n v
  | .big => (leOfNat n v).reverse

/-- `st16` of two bytes (R11). -/
def st16 (e : Endian) (bs : List Byte) : Word16 := BitVec.ofNat 16 (natOfBytes e bs)

/-- `st32` of four bytes (R11). -/
def st32 (e : Endian) (bs : List Byte) : Word32 := BitVec.ofNat 32 (natOfBytes e bs)

/-- `put16` (R167). -/
def put16 (e : Endian) (v : Word16) : List Byte := bytesOfNat e 2 v.toNat

/-- `put32` (R167). -/
def put32 (e : Endian) (v : Word32) : List Byte := bytesOfNat e 4 v.toNat

/-- The bytes of `n` bytes' worth of a number, most significant first: the order in which the opcode table
writes a pattern, the first transmitted byte leftmost. -/
def patternBytes (n v : Nat) : List Byte := (leOfNat n v).reverse

end Sys2Proof.Machine
end

