-- ==== Sys2Proof/Machine/Crc.lean ====
section
/-! DEFINITION. The two checksum functions (40_crc.md R110 to R115). -/

namespace Sys2Proof.Machine

/-- `n` rounds of CRC-16/MODBUS: shift right by one, xoring the constant in when the bit shifted out is 1
(R114). -/
def modbusShift : Nat → Word16 → Word16
  | 0, r => r
  | n + 1, r =>
    if r.getLsbD 0 then modbusShift n ((r >>> 1) ^^^ Config.polyModbusReflected)
    else modbusShift n (r >>> 1)

/-- `modbus_step(r, b)`: the byte goes into the low 8 bits, then eight rounds (R114). -/
def modbusStep (r : Word16) (b : Byte) : Word16 := modbusShift 8 (r ^^^ b.setWidth 16)

/-- `n` rounds of CRC-16/CCITT-FALSE: shift left by one, dropping bit 16, xoring the constant in when the
bit shifted out is 1 (R115). -/
def ccittShift : Nat → Word16 → Word16
  | 0, r => r
  | n + 1, r =>
    if r.getLsbD 15 then ccittShift n ((r <<< 1) ^^^ Config.polyCcitt)
    else ccittShift n (r <<< 1)

/-- `ccitt_step(r, b)`: the byte goes into the high 8 bits, then eight rounds (R115). -/
def ccittStep (r : Word16) (b : Byte) : Word16 := ccittShift 8 (r ^^^ (b.setWidth 16 <<< 8))

/-- `crc_step(alg, r, b)` (R115). -/
def crcStep (alg : CrcAlg) (r : Word16) (b : Byte) : Word16 :=
  match alg with
  | .ccittFalse => ccittStep r b
  | .modbus => modbusStep r b

/-- The register after a byte string, from a given register value (R111). -/
def crcFrom (alg : CrcAlg) (r : Word16) (bs : List Byte) : Word16 := bs.foldl (crcStep alg) r

/-- `crc16(alg, s)` (R114, R115): from 0xFFFF over all bytes, no final inversion, no bit reversal. -/
def crc16 (alg : CrcAlg) (bs : List Byte) : Word16 := crcFrom alg Config.crcInitValue bs

/-- The algorithm that the one-bit register `CRC_ALG` selects (R26): 0 CCITT_FALSE, 1 MODBUS. -/
def algOfBit (b : BitVec 1) : CrcAlg := if b = 0#1 then .ccittFalse else .modbus

end Sys2Proof.Machine
end

