-- ==== Sys2Proof/Syntax.lean ====
section
/-! DEFINITION. The instructions: one constructor per row of spec/opcode_table.json (30_encoding.md R84 for
the 23 commands; R91 to R96 and R100 for the seven byte formats), and what a host can present to the
block. -/

namespace Sys2Proof

/-- One constructor per row of the opcode table. Operands are unsigned fields at their own width (R83).
The first 23 are the commands of R84. The last seven are the table's byte formats: no command words, but
byte strings that the spec's pseudo-instructions take or build (R87, R153; log entry 3). -/
inductive Instr where
  /-- `REG.RD r` (R231). -/
  | regRd (r : Byte)
  /-- `REG.WR r, v` (R232). -/
  | regWr (r : Byte) (v : Word32)
  /-- `CRC.INIT alg` (R116). -/
  | crcInit (alg : Byte)
  /-- `CRC.UPD b` (R117). -/
  | crcUpd (b : Byte)
  /-- `FB.CLR` (R130). -/
  | fbClr
  /-- `FB.PUSH b` (R131). -/
  | fbPush (b : Byte)
  /-- `FB.RD i` (R132). -/
  | fbRd (i : Byte)
  /-- `RX.PARSE` (R134). -/
  | rxParse
  /-- `TX.BEGIN slave, func` (R150). -/
  | txBegin (slave func : Byte)
  /-- `TX.SEAL` (R151). -/
  | txSeal
  /-- `TX.EXC slave, func, code` (R152). -/
  | txExc (slave func code : Byte)
  /-- `HB.WR i, b` (R165). -/
  | hbWr (i b : Byte)
  /-- `HB.RD i` (R166). -/
  | hbRd (i : Byte)
  /-- `HDR.LOAD` (R170). -/
  | hdrLoad
  /-- `HDR.SEAL` (R173). -/
  | hdrSeal
  /-- `HDR.RESET` (R174). -/
  | hdrReset
  /-- `HDR.START t` (R175). -/
  | hdrStart (t : Word32)
  /-- `HDR.ADV` (R176). -/
  | hdrAdv
  /-- `HDR.RET` (R177). -/
  | hdrRet
  /-- `HDR.TFIRST` (R178). -/
  | hdrTfirst
  /-- `HDR.TLAST` (R179). -/
  | hdrTlast
  /-- `HDR.FIND t` (R180). -/
  | hdrFind (t : Word32)
  /-- `SYS.RESET` (R230). -/
  | sysReset
  /-- Request 0x03 (R91): slave, start address, quantity and the two CRC bytes as received. -/
  | reqReadHolding (slave : Byte) (addr qty : Word16) (crcLo crcHi : Byte)
  /-- Request 0x04 (R92), laid out as 0x03. -/
  | reqReadInput (slave : Byte) (addr qty : Word16) (crcLo crcHi : Byte)
  /-- Request 0x06 (R93): slave, register address, value and the two CRC bytes as received. -/
  | reqWriteSingle (slave : Byte) (addr value : Word16) (crcLo crcHi : Byte)
  /-- Request 0x10 (R94): slave, start address, quantity, byte count, payload and the two CRC bytes. -/
  | reqWriteMultiple (slave : Byte) (addr qty : Word16) (count : Byte) (payload : List Byte) (crcLo crcHi : Byte)
  /-- Normal response (R95): slave, function, data and the two CRC bytes. -/
  | respNormal (slave func : Byte) (data : List Byte) (crcLo crcHi : Byte)
  /-- Exception response (R96): slave, the low seven bits of the function code, exception code, CRC bytes. -/
  | respException (slave : Byte) (func : BitVec 7) (code crcLo crcHi : Byte)
  /-- Header image (R100): the four fields as the table's pattern writes them, the first byte of a field
  in its high bits. `STORE_ENDIAN` decides what number they stand for, at `HDR.LOAD` (R167). -/
  | headerImage (size off time : Word32) (crc : Word16)
  deriving DecidableEq, Repr

/-- What a host presents to the block, one item at a time (R80). A command is the pair `(cw, arg)` on the
command port. The byte strings are the table's other formats, each under the operation the spec ties
to it: a received frame (R87 `PARSE`), a response to build (R87 `RESP`, R152), a header image (R87
`HB.LOAD`). `powerCycle` is power lost and restored (R264, R280). -/
inductive Input where
  | command (cw arg : Word32)
  | request (bytes : List Byte)
  | normalResponse (bytes : List Byte)
  | exceptionResponse (bytes : List Byte)
  | image (bytes : List Byte)
  | powerCycle
  deriving DecidableEq, Repr

end Sys2Proof
end

