-- ==== Sys2Proof/Machine/State.lean ====
section
/-! DEFINITION. The state as plain data (10_state.md R20 to R40), the reasons a step can stop, and the
machine right after reset. -/

namespace Sys2Proof.Machine

/-- The eleven statuses of a command (60_exceptions.md R250). -/
inductive Status where
  | ok
  | invalidLength
  | invalidSlaveAddress
  | invalidCrc
  | bufferTooSmall
  | exception
  | uninitialized
  | noRecords
  | notFound
  | overflow
  | badCommand
  deriving DecidableEq, Repr

/-- What the block answers to a command: `(status, result)` (R80, R85). -/
structure Response where
  status : Status
  result : Word32
  deriving DecidableEq, Repr

/-- A byte space as a list of (address, byte) pairs in canonical form (`Memory.wf`, Machine/Ops.lean):
addresses strictly rising, no byte equal to what an unlisted address reads as, which is 0. For `fb` and
`hb` that is their reset content (R40); for the Byte Storage it is log entry 8. -/
abbrev Memory := List Host.Cell

/-- What happens to one access of the external Byte Storage (R69: "fallible, synchronous"; log entry 10). -/
inductive IoEvent where
  /-- The access succeeds. -/
  | ok
  /-- The access fails with `Storage`; a failed write leaves these bytes at the start of its range and the
  bytes of the range beyond them as they were (U9: "`any value` in every byte of the range"). -/
  | failed (torn : List Byte)
  /-- Power is lost during the access and comes back (R291, R292); a write leaves the bytes as above. -/
  | powerLoss (torn : List Byte)
  deriving DecidableEq, Repr

/-- The state. The first part is the block's whole state: seventeen numbered registers, `fb` and `hb` (R20,
R21). The second part is the model's own: the two ports, the external Byte Storage of the host
procedures (R200) and the parameters of the instance (R38). -/
structure State where
  /-- Register 0x00 `CRC` (R25). -/
  crc : Word16
  /-- Register 0x01 `CRC_ALG`: 0 CCITT_FALSE, 1 MODBUS (R26). -/
  crcAlg : BitVec 1
  /-- Register 0x02 `SLAVE_ADDR` (R27). -/
  slaveAddr : Byte
  /-- Register 0x03 `FB_LEN` (R28). -/
  fbLen : BitVec 9
  /-- Register 0x04 `R_KIND` (R29). -/
  rKind : BitVec 3
  /-- Register 0x05 `R_SLAVE` (R30). -/
  rSlave : Byte
  /-- Register 0x06 `R_FUNC` (R30). -/
  rFunc : Byte
  /-- Register 0x07 `R_ADDR` (R31). -/
  rAddr : Word16
  /-- Register 0x08 `R_QTY` (R31). -/
  rQty : Word16
  /-- Register 0x09 `R_BC` (R31). -/
  rBc : Byte
  /-- Register 0x0A `CAPACITY` (R33). -/
  capacity : Word32
  /-- Register 0x0B `ELEMENT_SIZE` (R33). -/
  elementSize : Word32
  /-- Register 0x0C `H_SIZE` (R34). -/
  hSize : Word32
  /-- Register 0x0D `H_OFF` (R34). -/
  hOff : Word32
  /-- Register 0x0E `H_TIME` (R34). -/
  hTime : Word32
  /-- Register 0x0F `H_CRC` (R35). -/
  hCrc : Word16
  /-- Register 0x10 `H_FLAGS` bit 0, `LOADED` (R24, R36). -/
  loaded : Bool
  /-- Register 0x10 `H_FLAGS` bit 1, `CRC_OK` (R24, R36). Bit 2, `INV_OK`, is not stored. -/
  crcOk : Bool
  /-- The frame buffer `fb`, 256 bytes (R32). -/
  fb : Memory
  /-- The header image buffer `hb`, 14 bytes (R37). -/
  hb : Memory
  /-- MODEL: the response port, the block's latest response (R80; log entry 2). -/
  resp : Option Response
  /-- MODEL: what the host presents next, first item first (R23, R80; log entry 1). -/
  pending : List Input
  /-- MODEL: the external Byte Storage `ST` of the host procedures (R69, R200). -/
  storage : Memory
  /-- MODEL: what happens to the coming storage accesses; none listed: they succeed (log entry 10). -/
  io : List IoEvent
  /-- MODEL: the parameters of this instance (R10, R38; log entry 6). -/
  params : Config.Params
  deriving DecidableEq, Repr

/-- The reasons the machine stops. The spec has none ("never hangs, never traps", R15). -/
inductive Fault where
  /-- Raised by `FB.PUSH` and `RX.PARSE` when `FB_LEN` is above 256, so that they would reach an index that
  `fb` does not have. No run reaches such a state (R28). Safe: the model stops. Log entry 20. -/
  | noSuchFrameByte (index : Nat)
  deriving DecidableEq, Repr

/-- The reasons an instruction has no meaning in the model. -/
inductive Refusal where
  /-- An instruction that is not modelled. Raised by no arm: every row has its meaning. Safe. -/
  | notModelled (mnemonic : String)
  deriving DecidableEq, Repr

/-- The outcome of a step. -/
abbrev Out := Host.Outcome State Fault Refusal

/-- The machine right after reset (R40, R280): `CRC` is 0xFFFF, everything else in the block is 0. Of the
model's own fields: no response yet, nothing presented, storage with nothing listed, every storage
access succeeding, the parameters at the spec's defaults (log entries 1, 2, 6, 8, 10). -/
def State.reset : State where
  crc := Config.crcInitValue
  crcAlg := 0
  slaveAddr := 0
  fbLen := 0
  rKind := 0
  rSlave := 0
  rFunc := 0
  rAddr := 0
  rQty := 0
  rBc := 0
  capacity := 0
  elementSize := 0
  hSize := 0
  hOff := 0
  hTime := 0
  hCrc := 0
  loaded := false
  crcOk := false
  fb := []
  hb := []
  resp := none
  pending := []
  storage := []
  io := []
  params := {}

end Sys2Proof.Machine
end

