-- ==== Sys2Proof/Machine/Ops.lean ====
section
/-! DEFINITION. The named operations over memory and registers that the meanings share: reading and writing
bytes, answering a command (`respond`, `raise`: 00_scope.md R14; this is the block's whole "exception
entry", 60_exceptions.md R256, R259, R260), and a sequence of commands. -/

namespace Sys2Proof.Machine

/-! ### Byte spaces -/

/-- One byte of a space; an address with no entry reads as 0 (R40 for `fb` and `hb`; log entry 8 for `ST`). -/
def Memory.read : Memory → Nat → Byte
  | [], _ => 0#8
  | (x, b) :: m, a => if x = a then b else Memory.read m a

/-- A space with one byte written, in canonical form again: writing 0 removes the entry. -/
def Memory.write : Memory → Nat → Byte → Memory
  | [], a, b => if b = 0#8 then [] else [(a, b)]
  | (x, c) :: m, a, b =>
    if x < a then (x, c) :: Memory.write m a b
    else if x = a then (if b = 0#8 then m else (a, b) :: m)
    else (if b = 0#8 then (x, c) :: m else (a, b) :: (x, c) :: m)

/-- Bytes written from an address upwards. -/
def Memory.writeAll : Memory → Nat → List Byte → Memory
  | m, _, [] => m
  | m, a, b :: bs => Memory.writeAll (Memory.write m a b) (a + 1) bs

/-- The bytes at `a .. a + n` (R14, `MemRead`). -/
def Memory.slice (m : Memory) : Nat → Nat → List Byte
  | _, 0 => []
  | a, n + 1 => Memory.read m a :: Memory.slice m (a + 1) n

/-- The canonical form from an address on: addresses at least `lo`, below `size` and strictly rising, no
byte 0. -/
def Memory.wfFrom (size : Nat) : Nat → Memory → Bool
  | _, [] => true
  | lo, (a, b) :: m => decide (lo ≤ a) && decide (a < size) && decide (b ≠ 0#8) && Memory.wfFrom size (a + 1) m

/-- The canonical form of a space of `size` bytes. -/
def Memory.wf (size : Nat) (m : Memory) : Bool := Memory.wfFrom size 0 m

/-! ### Answering a command (R14, R80, R85) -/

/-- The numeric code of a status (R250). -/
def Status.code : Status → Byte
  | .ok => 0x00
  | .invalidLength => 0x01
  | .invalidSlaveAddress => 0x02
  | .invalidCrc => 0x03
  | .bufferTooSmall => 0x04
  | .exception => 0x05
  | .uninitialized => 0x06
  | .noRecords => 0x07
  | .notFound => 0x08
  | .overflow => 0x09
  | .badCommand => 0x0A

/-- A response as the port's 8 + 32 bits, the status first (R80). -/
def Response.word (r : Response) : BitVec 40 := r.status.code ++ r.result

/-- The state with a response on the response port. -/
def State.answer (s : State) (st : Status) (v : Word32) : State := { s with resp := some ⟨st, v⟩ }

/-- `respond Ok(v)` (R14). -/
def respond (v : Word32) (s : State) : Out := .next (s.answer .ok v)

/-- `raise S` (R14): the command ends with status `S` and result 0; nothing else changes than what was
written before it (R256). -/
def raise (st : Status) (s : State) : Out := .next (s.answer st 0)

/-- `raise Exception(code)` (R14, R85): the result carries the Modbus exception code. -/
def raiseException (code : Byte) (s : State) : Out := .next (s.answer .exception (code.setWidth 32))

/-! ### Writing registers together -/

/-- `fb` and `FB_LEN` written, which clears `R_KIND` (R29). -/
def State.setFrame (s : State) (m : Memory) (len : BitVec 9) : State :=
  { s with fb := m, fbLen := len, rKind := 0 }

/-- The three header fields written (R34). -/
def State.setHeader (s : State) (size off time : Word32) : State :=
  { s with hSize := size, hOff := off, hTime := time }

/-- `LOADED` and `CRC_OK` written (R24). -/
def State.setFlags (s : State) (loaded crcOk : Bool) : State :=
  { s with loaded := loaded, crcOk := crcOk }

/-- Every register, `fb` and `hb` at their reset values (R40, R230, R280); the ports, the external storage
and the parameters are no state of the block and stay (R38, R281). -/
def State.resetBlock (s : State) : State :=
  { State.reset with
    resp := s.resp, pending := s.pending, storage := s.storage, io := s.io, params := s.params }

/-- Power lost and restored (R264, R280): as `SYS.RESET`, and the response port is empty. -/
def State.powerOn (s : State) : State := { s.resetBlock with resp := none }

/-- `fb[0 .. n)` (R14). -/
def State.frame (s : State) (n : Nat) : List Byte := Memory.slice s.fb 0 n

/-- `hb[0 .. 14)` (R14, R37). -/
def State.image (s : State) : List Byte := Memory.slice s.hb 0 Config.hdrBytes

/-! ### Sequences of commands (R87) -/

/-- Whether the latest response is `Ok`. -/
def State.lastOk (s : State) : Bool :=
  match s.resp with
  | some r => decide (r.status = .ok)
  | none => true

/-- Commands one after the other, stopping at the first one whose status is not `Ok` (R87). -/
def seqOk : List (State → Out) → State → Out
  | [], s => .next s
  | m :: ms, s =>
    match m s with
    | .next t => if t.lastOk then seqOk ms t else .next t
    | .fault f => .fault f
    | .refused r => .refused r

end Sys2Proof.Machine
end

