-- ==== Sys2Proof/Machine/Flags.lean ====
section
/-! DEFINITION. The flags (10_state.md R24, R36) and the two preconditions of the header commands
(43_ring_header.md R168). -/

namespace Sys2Proof.Machine

/-- `INV_OK`, computed at read time: `CAPACITY ≠ 0` and `H_OFF < CAPACITY` and `H_SIZE ≤ CAPACITY` (R24). -/
def State.invOk (s : State) : Bool :=
  decide (s.capacity ≠ 0) && decide (s.hOff.toNat < s.capacity.toNat) &&
    decide (s.hSize.toNat ≤ s.capacity.toNat)

/-- Register `H_FLAGS`: bit 0 `LOADED`, bit 1 `CRC_OK`, bit 2 `INV_OK` (R36). -/
def State.hFlags (s : State) : BitVec 3 :=
  BitVec.ofBool s.invOk ++ BitVec.ofBool s.crcOk ++ BitVec.ofBool s.loaded

/-- Configured: `CAPACITY ≠ 0` and `ELEMENT_SIZE ≠ 0` (R168 (1)). -/
def State.configured (s : State) : Bool := decide (s.capacity ≠ 0) && decide (s.elementSize ≠ 0)

/-- `require Configured`: otherwise `raise Uninitialized` (R168). -/
def requireConfigured (k : State → Out) (s : State) : Out :=
  if s.configured then k s else raise .uninitialized s

/-- `require Configured ; require Loaded`, in this order (R168). -/
def requireLoaded (k : State → Out) (s : State) : Out :=
  requireConfigured (fun s => if s.loaded then k s else raise .uninitialized s) s

end Sys2Proof.Machine
end

