-- ==== Sys2Proof/Machine/Operands.lean ====
section
/-! DEFINITION. The operand forms (30_encoding.md R83, 45_system.md R234): register numbers, immediate
indices, timestamps, and the header image as fields. -/

namespace Sys2Proof.Machine

/-! ### Register numbers (R21) -/

/-- The seventeen numbered registers (R21). -/
inductive Reg where
  | crc | crcAlg | slaveAddr | fbLen | rKind | rSlave | rFunc | rAddr | rQty | rBc
  | capacity | elementSize | hSize | hOff | hTime | hCrc | hFlags
  deriving DecidableEq, Repr

/-- The register of a number; 0x11 to 0xFF are reserved (R21). -/
def regOfNumber (n : Byte) : Option Reg :=
  match n.toNat with
  | 0x00 => some .crc
  | 0x01 => some .crcAlg
  | 0x02 => some .slaveAddr
  | 0x03 => some .fbLen
  | 0x04 => some .rKind
  | 0x05 => some .rSlave
  | 0x06 => some .rFunc
  | 0x07 => some .rAddr
  | 0x08 => some .rQty
  | 0x09 => some .rBc
  | 0x0A => some .capacity
  | 0x0B => some .elementSize
  | 0x0C => some .hSize
  | 0x0D => some .hOff
  | 0x0E => some .hTime
  | 0x0F => some .hCrc
  | 0x10 => some .hFlags
  | _ => none

/-- The number of a register (R21). -/
def Reg.number : Reg → Byte
  | .crc => 0x00
  | .crcAlg => 0x01
  | .slaveAddr => 0x02
  | .fbLen => 0x03
  | .rKind => 0x04
  | .rSlave => 0x05
  | .rFunc => 0x06
  | .rAddr => 0x07
  | .rQty => 0x08
  | .rBc => 0x09
  | .capacity => 0x0A
  | .elementSize => 0x0B
  | .hSize => 0x0C
  | .hOff => 0x0D
  | .hTime => 0x0E
  | .hCrc => 0x0F
  | .hFlags => 0x10

/-- `x[NAME]`, zero-extended to 32 bits (R14, R21). -/
def State.readReg (s : State) : Reg → Word32
  | .crc => s.crc.setWidth 32
  | .crcAlg => s.crcAlg.setWidth 32
  | .slaveAddr => s.slaveAddr.setWidth 32
  | .fbLen => s.fbLen.setWidth 32
  | .rKind => s.rKind.setWidth 32
  | .rSlave => s.rSlave.setWidth 32
  | .rFunc => s.rFunc.setWidth 32
  | .rAddr => s.rAddr.setWidth 32
  | .rQty => s.rQty.setWidth 32
  | .rBc => s.rBc.setWidth 32
  | .capacity => s.capacity
  | .elementSize => s.elementSize
  | .hSize => s.hSize
  | .hOff => s.hOff
  | .hTime => s.hTime
  | .hCrc => s.hCrc.setWidth 32
  | .hFlags => s.hFlags.setWidth 32

/-- What a host write stores in a register (R232): `SLAVE_ADDR` if the value fits 8 bits, `CAPACITY` and
`ELEMENT_SIZE` always, both clearing `LOADED` and `CRC_OK`; none: read-only, or the value does not fit. -/
def State.writeReg (s : State) (r : Reg) (v : Word32) : Option State :=
  match r with
  | .slaveAddr => if v.toNat > 0xFF then none else some { s with slaveAddr := v.extractLsb' 0 8 }
  | .capacity => some ({ s with capacity := v }.setFlags false false)
  | .elementSize => some ({ s with elementSize := v }.setFlags false false)
  | _ => none

/-! ### Timestamps (R14) -/

/-- `quant(t) = t − (t mod QUANTUM)` (R14). -/
def quant (t : Nat) : Nat := t - t % Config.quantum

/-! ### Fields of a frame (R63, R90 to R94) -/

/-- `be16(fb, i)`: the byte at `i` is the high one (R11). -/
def State.frameField (s : State) (i : Nat) : Word16 := join16 (Memory.read s.fb i) (Memory.read s.fb (i + 1))

/-! ### The header image as fields (R100, R167) -/

/-- `hdr_crc(img) = crc16(HDR_CRC_ALG, img[0 .. 12))` (R167). -/
def hdrCrc (p : Config.Params) (img : List Byte) : Word16 := crc16 p.hdrCrcAlg (img.take Config.hdrCrcSpan)

/-- The fields of an image. -/
structure HdrFields where
  size : Word32
  off : Word32
  time : Word32
  crc : Word16
  deriving DecidableEq, Repr

/-- `hdr_decode(img)` (R167). -/
def hdrDecode (p : Config.Params) (img : List Byte) : HdrFields where
  size := st32 p.storeEndian (img.take 4)
  off := st32 p.storeEndian ((img.drop 4).take 4)
  time := st32 p.storeEndian ((img.drop 8).take 4)
  crc := st16 p.storeEndian ((img.drop 12).take 2)

/-- The image without its CRC field (R167, `body`). -/
def hdrBody (p : Config.Params) (size off time : Word32) : List Byte :=
  put32 p.storeEndian size ++ put32 p.storeEndian off ++ put32 p.storeEndian time

/-- `hdr_encode(s, o, t)` (R167). -/
def hdrEncode (p : Config.Params) (size off time : Word32) : List Byte :=
  hdrBody p size off time ++ put16 p.storeEndian (hdrCrc p (hdrBody p size off time))

end Sys2Proof.Machine
end

