-- ==== Sys2Proof/Machine/CrcUnit.lean ====
section
/-! DEFINITION. The CRC unit's commands (40_crc.md R116, R117). -/

namespace Sys2Proof.Machine

/-- `CRC.INIT alg` (R116): selects the algorithm and restarts the checksum; a code above 1 is `BadCommand`. -/
def execCrcInit (alg : Byte) (s : State) : Out :=
  if alg.toNat > 1 then raise .badCommand s
  else respond 0 { s with crcAlg := alg.extractLsb' 0 1, crc := Config.crcInitValue }

/-- `CRC.UPD b` (R117): one step of the selected algorithm. -/
def execCrcUpd (b : Byte) (s : State) : Out :=
  respond 0 { s with crc := crcStep (algOfBit s.crcAlg) s.crc b }

end Sys2Proof.Machine
end

