-- ==== Sys2Proof/Decode.lean ====
section
/-! DEFINITION. The decoder (30_encoding.md R80 to R84, R91 to R96, R100, R105), total on any input and
rejecting by name, and the encoder written from the same tables. -/

namespace Sys2Proof

open Sys2Proof.Machine (lo8 hi8 join16 be16Bytes leOfNat patternBytes natOfLe)

/-- Why an input is no instruction of the table. -/
inductive DecodeError where
  /-- The opcode is not in the table of R84. -/
  | reservedOpcode (op : Byte)
  /-- A field that the command's format does not use is not zero (R82). -/
  | unusedFieldSet (op : Byte)
  /-- The bytes are no request of R91 to R94. -/
  | noRequestRow
  /-- The bytes are no normal response of R95. -/
  | noNormalResponse
  /-- The bytes are no exception response of R96. -/
  | noExceptionResponse
  /-- The bytes are no header image of R100. -/
  | noImage
  /-- A power cycle is an event, not an instruction. -/
  | powerEvent
  deriving DecidableEq, Repr

/-! ### Command words (R81, R82, R84) -/

/-- `op = cw[31:24]` (R81). -/
def cwOp (cw : Word32) : Byte := cw.extractLsb' 24 8

/-- `a = cw[23:16]` (R81). -/
def cwA (cw : Word32) : Byte := cw.extractLsb' 16 8

/-- `b = cw[15:8]` (R81). -/
def cwB (cw : Word32) : Byte := cw.extractLsb' 8 8

/-- `c = cw[7:0]` (R81). -/
def cwC (cw : Word32) : Byte := cw.extractLsb' 0 8

/-- The command word of four byte fields (R81). -/
def packCw (op a b c : Byte) : Word32 := op ++ a ++ b ++ c

/-- A command whose unused fields are zero, or the reserved encoding (R82, R105). -/
def acceptIf (unusedZero : Bool) (op : Byte) (i : Instr) : Except DecodeError Instr :=
  if unusedZero then .ok i else .error (.unusedFieldSet op)

/-- Format Z: no operand (R82). -/
def formatZ (cw arg : Word32) (i : Instr) : Except DecodeError Instr :=
  acceptIf (cwA cw == 0 && cwB cw == 0 && cwC cw == 0 && arg == 0) (cwOp cw) i

/-- Formats C and I: the operand is `c` (R82). -/
def formatC (cw arg : Word32) (i : Byte → Instr) : Except DecodeError Instr :=
  acceptIf (cwA cw == 0 && cwB cw == 0 && arg == 0) (cwOp cw) (i (cwC cw))

/-- Format IC: the operands are `b` and `c` (R82). -/
def formatIC (cw arg : Word32) (i : Byte → Byte → Instr) : Except DecodeError Instr :=
  acceptIf (cwA cw == 0 && arg == 0) (cwOp cw) (i (cwB cw) (cwC cw))

/-- Format AB: the operands are `a` and `b` (R82). -/
def formatAB (cw arg : Word32) (i : Byte → Byte → Instr) : Except DecodeError Instr :=
  acceptIf (cwC cw == 0 && arg == 0) (cwOp cw) (i (cwA cw) (cwB cw))

/-- Format ABC: the operands are `a`, `b` and `c` (R82). -/
def formatABC (cw arg : Word32) (i : Byte → Byte → Byte → Instr) : Except DecodeError Instr :=
  acceptIf (arg == 0) (cwOp cw) (i (cwA cw) (cwB cw) (cwC cw))

/-- Format RW: the operands are `c` and `arg` (R82). -/
def formatRW (cw arg : Word32) (i : Byte → Word32 → Instr) : Except DecodeError Instr :=
  acceptIf (cwA cw == 0 && cwB cw == 0) (cwOp cw) (i (cwC cw) arg)

/-- Format T: the operand is `arg` (R82). -/
def formatT (cw arg : Word32) (i : Word32 → Instr) : Except DecodeError Instr :=
  acceptIf (cwA cw == 0 && cwB cw == 0 && cwC cw == 0) (cwOp cw) (i arg)

/-- The command that `(cw, arg)` encodes (R84), or why it is reserved (R105). -/
def decodeCommand (cw arg : Word32) : Except DecodeError Instr :=
  match (cwOp cw).toNat with
  | 0x01 => formatC cw arg .regRd
  | 0x02 => formatRW cw arg .regWr
  | 0x10 => formatC cw arg .crcInit
  | 0x11 => formatC cw arg .crcUpd
  | 0x20 => formatZ cw arg .fbClr
  | 0x21 => formatC cw arg .fbPush
  | 0x22 => formatC cw arg .fbRd
  | 0x23 => formatZ cw arg .rxParse
  | 0x28 => formatAB cw arg .txBegin
  | 0x29 => formatZ cw arg .txSeal
  | 0x2A => formatABC cw arg .txExc
  | 0x30 => formatIC cw arg .hbWr
  | 0x31 => formatC cw arg .hbRd
  | 0x32 => formatZ cw arg .hdrLoad
  | 0x33 => formatZ cw arg .hdrSeal
  | 0x34 => formatZ cw arg .hdrReset
  | 0x35 => formatT cw arg .hdrStart
  | 0x36 => formatZ cw arg .hdrAdv
  | 0x37 => formatZ cw arg .hdrRet
  | 0x38 => formatZ cw arg .hdrTfirst
  | 0x39 => formatZ cw arg .hdrTlast
  | 0x3A => formatT cw arg .hdrFind
  | 0xFF => formatZ cw arg .sysReset
  | _ => .error (.reservedOpcode (cwOp cw))

/-! ### Byte formats (R91 to R96, R100) -/

/-- The request rows: function code at index 1, big-endian fields at 2 and 4 (R91 to R94). The three
eight-byte rows are exactly eight bytes; 0x10 is `9 + N` bytes. -/
def decodeRequest (bytes : List Byte) : Except DecodeError Instr :=
  match bytes with
  | slave :: func :: a1 :: a0 :: q1 :: q0 :: rest =>
    match func.toNat, rest with
    | 0x03, [k, kk] => .ok (.reqReadHolding slave (join16 a1 a0) (join16 q1 q0) k kk)
    | 0x04, [k, kk] => .ok (.reqReadInput slave (join16 a1 a0) (join16 q1 q0) k kk)
    | 0x06, [k, kk] => .ok (.reqWriteSingle slave (join16 a1 a0) (join16 q1 q0) k kk)
    | 0x10, n :: tail =>
      match tail.drop n.toNat with
      | [k, kk] =>
        .ok (.reqWriteMultiple slave (join16 a1 a0) (join16 q1 q0) n (tail.take n.toNat) k kk)
      | _ => .error .noRequestRow
    | _, _ => .error .noRequestRow
  | _ => .error .noRequestRow

/-- The normal response: two head bytes, data, two CRC bytes (R95). -/
def decodeNormalResponse (bytes : List Byte) : Except DecodeError Instr :=
  match bytes with
  | slave :: func :: rest =>
    match rest.drop (rest.length - 2) with
    | [k, kk] => .ok (.respNormal slave func (rest.take (rest.length - 2)) k kk)
    | _ => .error .noNormalResponse
  | _ => .error .noNormalResponse

/-- The exception response: five bytes, bit 7 of the second one set (R96). -/
def decodeExceptionResponse (bytes : List Byte) : Except DecodeError Instr :=
  match bytes with
  | [slave, func, code, k, kk] =>
    if func.getLsbD 7 then .ok (.respException slave (func.extractLsb' 0 7) code k kk)
    else .error .noExceptionResponse
  | _ => .error .noExceptionResponse

/-- The header image: fourteen bytes, three fields of four and one of two (R100). -/
def decodeImage (bytes : List Byte) : Except DecodeError Instr :=
  match bytes with
  | [s3, s2, s1, s0, o3, o2, o1, o0, t3, t2, t1, t0, c1, c0] =>
    .ok (.headerImage (packCw s3 s2 s1 s0) (packCw o3 o2 o1 o0) (packCw t3 t2 t1 t0) (join16 c1 c0))
  | _ => .error .noImage

/-- The decoder: the instruction an input stands for, or why it is none. -/
def decode : Input → Except DecodeError Instr
  | .command cw arg => decodeCommand cw arg
  | .request bytes => decodeRequest bytes
  | .normalResponse bytes => decodeNormalResponse bytes
  | .exceptionResponse bytes => decodeExceptionResponse bytes
  | .image bytes => decodeImage bytes
  | .powerCycle => .error .powerEvent

/-! ### The encoder -/

/-- The bytes of a request frame (R91 to R93): big-endian fields, then the CRC bytes. -/
def requestBytes (slave func : Byte) (addr qty : Word16) (tail : List Byte) : List Byte :=
  slave :: func :: (be16Bytes addr ++ be16Bytes qty ++ tail)

/-- The four bytes of a field as the table's pattern writes it, the high bits first. -/
def fieldBytes (v : Word32) : List Byte := [cwOp v, cwA v, cwB v, cwC v]

/-- The bytes of the image of four fields (R100). -/
def imageBytes (size off time : Word32) (crc : Word16) : List Byte :=
  fieldBytes size ++ fieldBytes off ++ fieldBytes time ++ be16Bytes crc

/-- The input that stands for an instruction (R82, R84; R91 to R96; R100). -/
def encode : Instr → Input
  | .regRd r => .command (packCw 0x01 0 0 r) 0
  | .regWr r v => .command (packCw 0x02 0 0 r) v
  | .crcInit alg => .command (packCw 0x10 0 0 alg) 0
  | .crcUpd b => .command (packCw 0x11 0 0 b) 0
  | .fbClr => .command (packCw 0x20 0 0 0) 0
  | .fbPush b => .command (packCw 0x21 0 0 b) 0
  | .fbRd i => .command (packCw 0x22 0 0 i) 0
  | .rxParse => .command (packCw 0x23 0 0 0) 0
  | .txBegin slave func => .command (packCw 0x28 slave func 0) 0
  | .txSeal => .command (packCw 0x29 0 0 0) 0
  | .txExc slave func code => .command (packCw 0x2A slave func code) 0
  | .hbWr i b => .command (packCw 0x30 0 i b) 0
  | .hbRd i => .command (packCw 0x31 0 0 i) 0
  | .hdrLoad => .command (packCw 0x32 0 0 0) 0
  | .hdrSeal => .command (packCw 0x33 0 0 0) 0
  | .hdrReset => .command (packCw 0x34 0 0 0) 0
  | .hdrStart t => .command (packCw 0x35 0 0 0) t
  | .hdrAdv => .command (packCw 0x36 0 0 0) 0
  | .hdrRet => .command (packCw 0x37 0 0 0) 0
  | .hdrTfirst => .command (packCw 0x38 0 0 0) 0
  | .hdrTlast => .command (packCw 0x39 0 0 0) 0
  | .hdrFind t => .command (packCw 0x3A 0 0 0) t
  | .sysReset => .command (packCw 0xFF 0 0 0) 0
  | .reqReadHolding slave addr qty k kk => .request (requestBytes slave 0x03 addr qty [k, kk])
  | .reqReadInput slave addr qty k kk => .request (requestBytes slave 0x04 addr qty [k, kk])
  | .reqWriteSingle slave addr value k kk => .request (requestBytes slave 0x06 addr value [k, kk])
  | .reqWriteMultiple slave addr qty count payload k kk =>
    .request (requestBytes slave 0x10 addr qty (count :: (payload ++ [k, kk])))
  | .respNormal slave func data k kk => .normalResponse (slave :: func :: (data ++ [k, kk]))
  | .respException slave func code k kk => .exceptionResponse [slave, 1#1 ++ func, code, k, kk]
  | .headerImage size off time crc => .image (imageBytes size off time crc)

/-! ### Words of the opcode table -/

/-- Whether an input decodes to an instruction. -/
def decodes (x : Input) : Bool :=
  match decode x with
  | .ok _ => true
  | .error _ => false

/-- The first of two inputs that decodes; the second if neither does. -/
def firstDecoding (x y : Input) : Input := if decodes x then x else y

/-- The bytes of a table word of a byte format, the first byte in bits 7..0, the bytes it has beyond the
given bits being zero. -/
def wordBytes (n w : Nat) : List Byte := leOfNat n w

/-- A 0x10 request whose seven head bytes are given: payload and CRC bytes of zeros, as many as the byte
count asks for (R94). -/
def zeroPayload (head : List Byte) : List Byte :=
  head ++ List.replicate ((head.getD 6 0).toNat + 2) 0

/-- The input that a word of the opcode table stands for (log entry 21). A row of 64 bits is a command
`cw : arg` with `cw` in the high half, as the table's match and mask number it, or an eight-byte request;
56 bits are the head of a 0x10 request, 16 the head of a normal response, 40 an exception response, 112
a header image. The bytes of a byte format count from bit 0, the second byte being bits 15..8; where
that reading is no row, the pattern read as one number, its leftmost bit the highest, is tried. -/
def tableInput (nbits w : Nat) : Input :=
  match nbits with
  | 16 => .normalResponse (wordBytes 2 w ++ [0, 0])
  | 40 => firstDecoding (.exceptionResponse (wordBytes 5 w)) (.exceptionResponse (patternBytes 5 w))
  | 56 =>
    firstDecoding (.request (zeroPayload (wordBytes 7 w))) (.request (zeroPayload (patternBytes 7 w)))
  | 112 => .image (wordBytes 14 w)
  | _ =>
    let command : Input := .command (BitVec.ofNat 32 (w / 2 ^ 32)) (BitVec.ofNat 32 w)
    if decodes command then command
    else if decodes (.request (wordBytes 8 w)) then .request (wordBytes 8 w)
    else if decodes (.request (patternBytes 8 w)) then .request (patternBytes 8 w)
    else command

/-- The instruction the decoder reads from a word of the opcode table, none where it refuses. -/
def decodeTableWord (nbits w : Nat) : Option Instr :=
  match decode (tableInput nbits w) with
  | .ok i => some i
  | .error _ => none

end Sys2Proof
end

