-- ==== Sys2Proof/Machine/FrameRx.lean ====
section
/-! DEFINITION. The frame unit, receive side (41_frame_parse.md R130 to R140). -/

namespace Sys2Proof.Machine

/-- `FB.CLR` (R130): the length and `R_KIND` to 0; the bytes stay. -/
def execFbClr (s : State) : Out := respond 0 (s.setFrame s.fb 0)

/-- `FB.PUSH b` (R131): one byte at `FB_LEN`, or `BufferTooSmall` at 256. -/
def execFbPush (b : Byte) (s : State) : Out :=
  if s.fbLen.toNat = Config.fbCap then raise .bufferTooSmall s
  else if s.fbLen.toNat > Config.fbCap then .fault (.noSuchFrameByte s.fbLen.toNat)
  else respond 0 (s.setFrame (Memory.write s.fb s.fbLen.toNat b) (s.fbLen + 1))

/-- `FB.RD i` (R132): the byte at an index below `FB_LEN`. -/
def execFbRd (i : Byte) (s : State) : Out :=
  if i.toNat ≥ s.fbLen.toNat then raise .badCommand s
  else respond ((Memory.read s.fb i.toNat).setWidth 32) s

/-- The last lines of `RX.PARSE`: the fields of an accepted request (R134). -/
def acceptRequest (kind : BitVec 3) (count : Byte) (s : State) : Out :=
  respond 0 { s with rAddr := s.frameField 2, rQty := s.frameField 4, rBc := count, rKind := kind }

/-- The function-code dispatch of `RX.PARSE` (R97, R134, R138): 0x10 with its length cross-check; any other
code is `Exception(IllegalFunction)`. -/
def dispatchFunction (len : Nat) (s : State) : Out :=
  match (Memory.read s.fb 1).toNat with
  | 0x03 => acceptRequest 1 0 s
  | 0x04 => acceptRequest 2 0 s
  | 0x06 => acceptRequest 3 0 s
  | 0x10 =>
    if len < 9 then raise .invalidLength s
    else if len ≠ 9 + (Memory.read s.fb 6).toNat then raise .invalidLength s
    else acceptRequest 4 (Memory.read s.fb 6) s
  | _ => raiseException 0x01 s

/-- The CRC check of a frame of `len` bytes (R134, R137): the last two bytes are the CRC-16/MODBUS of the
bytes before them, the low byte first. -/
def State.frameCrcOk (s : State) (len : Nat) : Bool :=
  decide (Memory.read s.fb (len - 2) = lo8 (crc16 .modbus (s.frame (len - 2)))) &&
    decide (Memory.read s.fb (len - 1) = hi8 (crc16 .modbus (s.frame (len - 2))))

/-- `RX.PARSE` (R134): the checks in their order (R133), `R_KIND` cleared before them, `R_SLAVE` and `R_FUNC`
written once the CRC is right. -/
def execRxParse (s : State) : Out :=
  let len := s.fbLen.toNat
  let s := { s with rKind := 0 }
  if len < Config.minFrame then raise .invalidLength s
  else if len > Config.fbCap then .fault (.noSuchFrameByte Config.fbCap)
  else if Memory.read s.fb 0 ≠ s.slaveAddr ∧ Memory.read s.fb 0 ≠ Config.broadcast then
    raise .invalidSlaveAddress s
  else if s.frameCrcOk len then
    dispatchFunction len { s with rSlave := Memory.read s.fb 0, rFunc := Memory.read s.fb 1 }
  else raise .invalidCrc s

end Sys2Proof.Machine
end

