-- ==== Sys2Proof/Machine/FrameTx.lean ====
section
/-! DEFINITION. The frame unit, transmit side (42_frame_build.md R150 to R152). -/

namespace Sys2Proof.Machine

/-- `TX.BEGIN slave, func` (R150): the two head bytes, the rest of the buffer discarded. -/
def execTxBegin (slave func : Byte) (s : State) : Out :=
  respond 0 (s.setFrame (Memory.writeAll s.fb 0 [slave, func]) 2)

/-- `TX.SEAL` (R151): the CRC of the frame appended, the low byte first, if both bytes fit. -/
def execTxSeal (s : State) : Out :=
  let len := s.fbLen.toNat
  if len + 2 > Config.fbCap then raise .bufferTooSmall s
  else
    respond 0 (s.setFrame (Memory.writeAll s.fb len (crcBytes (crc16 .modbus (s.frame len)))) (s.fbLen + 2))

/-- The five bytes of an exception response (R96, R152). -/
def exceptionFrame (slave func code : Byte) : List Byte :=
  let head := [slave, func ||| Config.excFlag, code]
  head ++ crcBytes (crc16 .modbus head)

/-- `TX.EXC slave, func, code` (R152). -/
def execTxExc (slave func code : Byte) (s : State) : Out :=
  respond 0 (s.setFrame (Memory.writeAll s.fb 0 (exceptionFrame slave func code)) 5)

end Sys2Proof.Machine
end

