-- ==== Sys2Proof/Machine/Header.lean ====
section
/-! DEFINITION. The header unit (43_ring_header.md R165 to R180). -/

namespace Sys2Proof.Machine

/-- `HB.WR i, b` (R165). -/
def execHbWr (i b : Byte) (s : State) : Out :=
  if i.toNat ≥ Config.hdrBytes then raise .badCommand s
  else respond 0 { s with hb := Memory.write s.hb i.toNat b }

/-- `HB.RD i` (R166). -/
def execHbRd (i : Byte) (s : State) : Out :=
  if i.toNat ≥ Config.hdrBytes then raise .badCommand s
  else respond ((Memory.read s.hb i.toNat).setWidth 32) s

/-- What `HDR.LOAD` does once the unit is configured (R170): the fields of the image if its CRC matches, the
empty instance if not; `LOADED` set either way, `CRC_OK` the verdict. -/
def loadHeader (s : State) : Out :=
  let f := hdrDecode s.params s.image
  if hdrCrc s.params s.image = f.crc then
    respond 0 (({ s with hCrc := f.crc }.setHeader f.size f.off f.time).setFlags true true)
  else respond 0 (({ s with hCrc := f.crc }.setHeader 0 0 0).setFlags true false)

/-- `HDR.LOAD` (R170). -/
def execHdrLoad (s : State) : Out := requireConfigured loadHeader s

/-- What `HDR.SEAL` does once the unit is configured and loaded (R173). -/
def sealHeader (s : State) : Out :=
  let img := hdrEncode s.params s.hSize s.hOff s.hTime
  respond 0 { s with
    hb := Memory.writeAll s.hb 0 img, hCrc := st16 s.params.storeEndian ((img.drop 12).take 2) }

/-- `HDR.SEAL` (R173). -/
def execHdrSeal (s : State) : Out := requireLoaded sealHeader s

/-- `HDR.RESET` (R174): the empty instance; `CRC_OK` and `H_CRC` stay. -/
def execHdrReset (s : State) : Out :=
  requireConfigured (fun s => respond 0 ((s.setHeader 0 0 0).setFlags true s.crcOk)) s

/-- What `HDR.START t` does once the unit is configured and loaded (R175). -/
def startHeader (t : Word32) (s : State) : Out :=
  if s.hSize ≠ 0 then raise .badCommand s
  else respond 0 (s.setHeader 1 0 (BitVec.ofNat 32 (quant t.toNat)))

/-- `HDR.START t` (R175). -/
def execHdrStart (t : Word32) (s : State) : Out := requireLoaded (startHeader t) s

/-- What `HDR.ADV` does once the unit is configured and loaded (R176): the sums over the integers (R13), the
offset modulo the capacity, the size saturating at it. -/
def advanceHeader (s : State) : Out :=
  if s.hTime.toNat + s.elementSize.toNat > 0xFFFFFFFF then raise .overflow s
  else
    respond 0 (s.setHeader
      (BitVec.ofNat 32 (min (s.hSize.toNat + 1) s.capacity.toNat))
      (BitVec.ofNat 32 ((s.hOff.toNat + 1) % s.capacity.toNat))
      (BitVec.ofNat 32 (s.hTime.toNat + s.elementSize.toNat)))

/-- `HDR.ADV` (R176). -/
def execHdrAdv (s : State) : Out := requireLoaded advanceHeader s

/-- What `HDR.RET` does once the unit is configured and loaded (R177). -/
def retractHeader (s : State) : Out :=
  if s.hSize.toNat < 2 then raise .noRecords s
  else if s.hTime.toNat < s.elementSize.toNat then raise .overflow s
  else
    respond 0 (s.setHeader
      (BitVec.ofNat 32 (s.hSize.toNat - 1))
      (BitVec.ofNat 32 ((s.hOff.toNat + s.capacity.toNat - 1) % s.capacity.toNat))
      (BitVec.ofNat 32 (s.hTime.toNat - s.elementSize.toNat)))

/-- `HDR.RET` (R177). -/
def execHdrRet (s : State) : Out := requireLoaded retractHeader s

/-- The time of the oldest held bucket, over the integers: `H_TIME − ES·(H_SIZE − 1)` (R178, R183). -/
def State.firstTime (s : State) : Int :=
  (s.hTime.toNat : Int) - (s.elementSize.toNat : Int) * ((s.hSize.toNat : Int) - 1)

/-- What `HDR.TFIRST` does once the unit is configured and loaded (R178). -/
def firstStored (s : State) : Out :=
  if s.hSize = 0 then raise .noRecords s
  else if s.firstTime < 0 then raise .overflow s
  else respond (BitVec.ofNat 32 s.firstTime.toNat) s

/-- `HDR.TFIRST` (R178). -/
def execHdrTfirst (s : State) : Out := requireLoaded firstStored s

/-- What `HDR.TLAST` does once the unit is configured and loaded (R179). -/
def lastStored (s : State) : Out :=
  if s.hSize = 0 then raise .noRecords s else respond s.hTime s

/-- `HDR.TLAST` (R179). -/
def execHdrTlast (s : State) : Out := requireLoaded lastStored s

/-- The slot `j` steps back from the newest bucket: `(H_OFF − j) mod CAP`, the remainder never negative (R13,
R180). -/
def State.slotBack (s : State) (j : Nat) : Nat :=
  (((s.hOff.toNat : Int) - (j : Int)) % (s.capacity.toNat : Int)).toNat

/-- The steps back from the newest bucket to the one whose time is `q`, in the closed form of R181. -/
def State.stepsBack (s : State) (q : Nat) : Option Nat :=
  if q ≤ s.hTime.toNat ∧ (s.hTime.toNat - q) % s.elementSize.toNat = 0 ∧
      (s.hTime.toNat - q) / s.elementSize.toNat < s.hSize.toNat then
    some ((s.hTime.toNat - q) / s.elementSize.toNat)
  else none

/-- What `HDR.FIND t` does once the unit is configured and loaded (R180). -/
def findBucket (t : Word32) (s : State) : Out :=
  match s.stepsBack (quant t.toNat) with
  | some j => respond (BitVec.ofNat 32 (s.slotBack j)) s
  | none => raise .notFound s

/-- `HDR.FIND t` (R180). -/
def execHdrFind (t : Word32) (s : State) : Out := requireLoaded (findBucket t) s

end Sys2Proof.Machine
end

