-- ==== Sys2Proof/Machine/Formats.lean ====
section
/-! DEFINITION. The opcode table's byte formats: each one runs the pseudo-instruction that the spec ties to
it (30_encoding.md R87; 42_frame_build.md R152, R153; log entry 3). -/

namespace Sys2Proof.Machine

/-- `FB.LOAD bytes` (R87): the buffer cleared, then every byte pushed. -/
def loadFrame (bytes : List Byte) : List (State → Out) := execFbClr :: bytes.map execFbPush

/-- `PARSE bytes` (R87): what the block does with a received frame. -/
def parseFrame (bytes : List Byte) (s : State) : Out := seqOk (loadFrame bytes ++ [execRxParse]) s

/-- `RESP slave, func, data` (R87, R153): what the block does to build a normal response. -/
def buildResponse (slave func : Byte) (data : List Byte) (s : State) : Out :=
  seqOk (execTxBegin slave func :: (data.map execFbPush ++ [execTxSeal])) s

/-- `HB.WR i, b` for every byte of a string, from index `i` on. -/
def hbWrites : Nat → List Byte → List (State → Out)
  | _, [] => []
  | i, b :: bs => execHbWr (BitVec.ofNat 8 i) b :: hbWrites (i + 1) bs

/-- `HB.LOAD bytes` (R87): the image buffer filled from index 0. -/
def loadImage (bytes : List Byte) (s : State) : Out := seqOk (hbWrites 0 bytes) s

/-- A 0x03 request received (R91): `PARSE` of its eight bytes. -/
def execReqReadHolding (slave : Byte) (addr qty : Word16) (crcLo crcHi : Byte) (s : State) : Out :=
  parseFrame (requestBytes slave 0x03 addr qty [crcLo, crcHi]) s

/-- A 0x04 request received (R92): `PARSE` of its eight bytes. -/
def execReqReadInput (slave : Byte) (addr qty : Word16) (crcLo crcHi : Byte) (s : State) : Out :=
  parseFrame (requestBytes slave 0x04 addr qty [crcLo, crcHi]) s

/-- A 0x06 request received (R93): `PARSE` of its eight bytes. -/
def execReqWriteSingle (slave : Byte) (addr value : Word16) (crcLo crcHi : Byte) (s : State) : Out :=
  parseFrame (requestBytes slave 0x06 addr value [crcLo, crcHi]) s

/-- A 0x10 request received (R94): `PARSE` of its `9 + N` bytes. -/
def execReqWriteMultiple (slave : Byte) (addr qty : Word16) (count : Byte) (payload : List Byte)
    (crcLo crcHi : Byte) (s : State) : Out :=
  parseFrame (requestBytes slave 0x10 addr qty (count :: (payload ++ [crcLo, crcHi]))) s

/-- A normal response built (R95, R153): `RESP slave, func, data`. The block computes the CRC bytes itself;
a well-formed instruction carries the same ones (log entry 4). -/
def execRespNormal (slave func : Byte) (data : List Byte) (_crcLo _crcHi : Byte) (s : State) : Out :=
  buildResponse slave func data s

/-- An exception response built (R96, R152): `TX.EXC slave, func, code`. The block computes the CRC bytes
itself; a well-formed instruction carries the same ones (log entry 4). -/
def execRespException (slave : Byte) (func : BitVec 7) (code _crcLo _crcHi : Byte) (s : State) : Out :=
  execTxExc slave (0#1 ++ func) code s

/-- A header image put into `hb` (R87 `HB.LOAD`, R100): fourteen `HB.WR`. -/
def execHeaderImage (size off time : Word32) (crc : Word16) (s : State) : Out :=
  loadImage (imageBytes size off time crc) s

end Sys2Proof.Machine
end

