-- ==== Sys2Proof/Machine/System.lean ====
section
/-! DEFINITION. The system commands (45_system.md R230 to R232). -/

namespace Sys2Proof.Machine

/-- `SYS.RESET` (R230): every register, `fb` and `hb` take their reset values (R40). -/
def execSysReset (s : State) : Out := respond 0 s.resetBlock

/-- `REG.RD r` (R231): any of the seventeen registers; a reserved number is `BadCommand`. -/
def execRegRd (r : Byte) (s : State) : Out :=
  match regOfNumber r with
  | some reg => respond (s.readReg reg) s
  | none => raise .badCommand s

/-- `REG.WR r, v` (R232): `SLAVE_ADDR`, `CAPACITY` or `ELEMENT_SIZE`; anything else is `BadCommand`. -/
def execRegWr (r : Byte) (v : Word32) (s : State) : Out :=
  match (regOfNumber r).bind fun reg => s.writeReg reg v with
  | some t => respond 0 t
  | none => raise .badCommand s

end Sys2Proof.Machine
end

