-- ==== Sys2Proof/Machine/Dispatch.lean ====
section
/-! DEFINITION. What each instruction does: one arm per constructor, one call of its meaning. -/

namespace Sys2Proof.Machine

def exec (i : Instr) (s : State) : Host.Outcome State Fault Refusal :=
  match i with
  -- system (45_system.md)
  | .regRd r => Sys2Proof.Machine.execRegRd r s
  | .regWr r v => Sys2Proof.Machine.execRegWr r v s
  -- CRC unit (40_crc.md)
  | .crcInit alg => Sys2Proof.Machine.execCrcInit alg s
  | .crcUpd b => Sys2Proof.Machine.execCrcUpd b s
  -- frame unit, receive side (41_frame_parse.md)
  | .fbClr => Sys2Proof.Machine.execFbClr s
  | .fbPush b => Sys2Proof.Machine.execFbPush b s
  | .fbRd k => Sys2Proof.Machine.execFbRd k s
  | .rxParse => Sys2Proof.Machine.execRxParse s
  -- frame unit, transmit side (42_frame_build.md)
  | .txBegin slave func => Sys2Proof.Machine.execTxBegin slave func s
  | .txSeal => Sys2Proof.Machine.execTxSeal s
  | .txExc slave func code => Sys2Proof.Machine.execTxExc slave func code s
  -- header unit (43_ring_header.md)
  | .hbWr k b => Sys2Proof.Machine.execHbWr k b s
  | .hbRd k => Sys2Proof.Machine.execHbRd k s
  | .hdrLoad => Sys2Proof.Machine.execHdrLoad s
  | .hdrSeal => Sys2Proof.Machine.execHdrSeal s
  | .hdrReset => Sys2Proof.Machine.execHdrReset s
  | .hdrStart t => Sys2Proof.Machine.execHdrStart t s
  | .hdrAdv => Sys2Proof.Machine.execHdrAdv s
  | .hdrRet => Sys2Proof.Machine.execHdrRet s
  | .hdrTfirst => Sys2Proof.Machine.execHdrTfirst s
  | .hdrTlast => Sys2Proof.Machine.execHdrTlast s
  | .hdrFind t => Sys2Proof.Machine.execHdrFind t s
  | .sysReset => Sys2Proof.Machine.execSysReset s
  -- byte formats (30_encoding.md R91 to R96, R100)
  | .reqReadHolding slave addr qty k kk => Sys2Proof.Machine.execReqReadHolding slave addr qty k kk s
  | .reqReadInput slave addr qty k kk => Sys2Proof.Machine.execReqReadInput slave addr qty k kk s
  | .reqWriteSingle slave addr value k kk => Sys2Proof.Machine.execReqWriteSingle slave addr value k kk s
  | .reqWriteMultiple slave addr qty n pay k kk => Sys2Proof.Machine.execReqWriteMultiple slave addr qty n pay k kk s
  | .respNormal slave func data k kk => Sys2Proof.Machine.execRespNormal slave func data k kk s
  | .respException slave func code k kk => Sys2Proof.Machine.execRespException slave func code k kk s
  | .headerImage size off time crc => Sys2Proof.Machine.execHeaderImage size off time crc s

end Sys2Proof.Machine
end

