-- ==== Sys2Proof/Machine/Reserved.lean ====
section
/-! DEFINITION. What the block does with an input that is no instruction of the table (30_encoding.md R97,
R105). -/

namespace Sys2Proof.Machine

/-- An input that decodes to no instruction. A reserved command is refused with `BadCommand`, no state
changed (R105). A received frame that is no request row is parsed all the same, and the parser says
what is wrong with it, or accepts it (R97, R135, R140). A byte string that is no response or image row
is answered as a reserved command (log entry 5). -/
def answerReserved (x : Input) (s : State) : Out :=
  match x with
  | .command _ _ => raise .badCommand s
  | .request bytes => parseFrame bytes s
  | .normalResponse _ => raise .badCommand s
  | .exceptionResponse _ => raise .badCommand s
  | .image _ => raise .badCommand s
  | .powerCycle => .next s.powerOn

end Sys2Proof.Machine
end

