-- ==== Sys2Proof/Machine/Step.lean ====
section
/-! DEFINITION. One step: the next item that the host presents, decoded and executed (30_encoding.md R80;
20_memory.md R74). -/

namespace Sys2Proof.Machine

/-- One step. With nothing presented the state does not change (R20); otherwise the first item is taken and
executed to completion (R74, R80). -/
def step (s : State) : Out :=
  match s.pending with
  | [] => .next s
  | x :: rest =>
    match decode x with
    | .ok i => exec i { s with pending := rest }
    | .error _ => answerReserved x { s with pending := rest }

/-- The state with a word of the opcode table presented next (log entries 21, 22). -/
def State.withFetchWord (s : State) (nbits w : Nat) : State :=
  { s with pending := tableInput nbits w :: s.pending }

end Sys2Proof.Machine
end

