-- ==== Sys2Proof/Machine/Storage.lean ====
section
/-! DEFINITION. What the host procedures (44_host_procedures.md) are made of: commands of the block and
accesses of the external Byte Storage (20_memory.md R68, R69). The block itself never reaches the storage. -/

namespace Sys2Proof.Machine

/-- The errors of a host procedure (60_exceptions.md R254), and the status of a command that the procedure's
rules do not expect to fail (log entry 19). -/
inductive HostError where
  | storage
  | wrongCrc
  | block (st : Status)
  deriving DecidableEq, Repr

/-- How a host procedure ends: it returns, power is lost under it (R291, R292), or the machine stops. -/
inductive ProcResult (α : Type) where
  | done (a : α) (s : State)
  | crashed (s : State)
  | faulted (f : Fault)
  | refused (r : Refusal)
  deriving Repr

/-- One procedure after another. -/
def ProcResult.andThen {α β : Type} (r : ProcResult α) (k : α → State → ProcResult β) : ProcResult β :=
  match r with
  | .done a s => k a s
  | .crashed s => .crashed s
  | .faulted f => .faulted f
  | .refused r => .refused r

/-- The continuation of a procedure that can fail: an error ends it (R204, R205: "I/O failures propagate"). -/
def ProcResult.onOk {α β : Type} (r : ProcResult (Except HostError α))
    (k : α → State → ProcResult (Except HostError β)) : ProcResult (Except HostError β) :=
  r.andThen fun x s =>
    match x with
    | .ok a => k a s
    | .error e => .done (.error e) s

/-! ### Commands -/

/-- One command issued, with its response (R80). -/
def issue (i : Instr) (s : State) : ProcResult Response :=
  match exec i s with
  | .next t => .done (t.resp.getD ⟨.ok, 0⟩) t
  | .fault f => .faulted f
  | .refused r => .refused r

/-- One command that is expected to answer `Ok`, with its result. -/
def issueOk (i : Instr) (s : State) : ProcResult (Except HostError Word32) :=
  (issue i s).andThen fun r s =>
    if r.status = .ok then .done (.ok r.result) s else .done (.error (.block r.status)) s

/-- Commands in order, stopping at the first one whose status is not `Ok` (R87). -/
def issueAll : List Instr → State → ProcResult (Except HostError Unit)
  | [], s => .done (.ok ()) s
  | i :: is, s => (issueOk i s).onOk fun _ s => issueAll is s

/-- The results of commands issued in order, for reading a buffer out (R87 `FB.DUMP`, `HB.DUMP`). -/
def issueReads : List Instr → State → ProcResult (Except HostError (List Byte))
  | [], s => .done (.ok []) s
  | i :: is, s =>
    (issueOk i s).onOk fun v s => (issueReads is s).onOk fun vs s => .done (.ok (v.extractLsb' 0 8 :: vs)) s

/-- The commands `f 0`, …, `f (n − 1)`. -/
def commandsUpTo (f : Byte → Instr) (n : Nat) : List Instr := (List.range n).map fun i => f (BitVec.ofNat 8 i)

/-- The value of a register, read with `REG.RD` (R231). -/
def readRegister (r : Reg) (s : State) : ProcResult (Except HostError Word32) := issueOk (.regRd r.number) s

/-! ### Storage accesses (R69) -/

/-- Whether `n` bytes at an offset lie in the storage's address space (R60: offsets are `u32`; log entry 9). -/
def inStorage (a n : Nat) : Bool := decide (a + n ≤ Config.stCap)

/-- What happens to the next storage access: the first listed event, `ok` if none is listed. -/
def State.nextIo (s : State) : IoEvent := s.io.headD .ok

/-- The state in which that event is used up. -/
def State.ioTaken (s : State) : State := { s with io := s.io.tail }

/-- `MemRead(ST:a, n)`: the bytes, or `Storage` (R69). -/
def storageRead (a n : Nat) (s : State) : ProcResult (Except HostError (List Byte)) :=
  match s.nextIo with
  | .ok =>
    if inStorage a n then .done (.ok (Memory.slice s.storage a n)) s.ioTaken
    else .done (.error .storage) s.ioTaken
  | .failed _ => .done (.error .storage) s.ioTaken
  | .powerLoss _ => .crashed s.ioTaken.powerOn

/-- What a failed or interrupted write of `n` bytes at an offset leaves (U9; log entry 11): the bytes of the
event at the start of the range, at most as many as the range has below the end of the address space. -/
def tornWrite (m : Memory) (a n : Nat) (torn : List Byte) : Memory :=
  Memory.writeAll m a (torn.take (min n (Config.stCap - a)))

/-- `MemWrite(ST:a, n, v)`: stored, or `Storage` (R69). The next event decides what happens, also for a range
that passes the end of the address space; such a write fails all the same where the event is `ok`, and the
model then leaves every byte as it was (log entry 9). -/
def storageWrite (a : Nat) (bytes : List Byte) (s : State) : ProcResult (Except HostError Unit) :=
  match s.nextIo with
  | .ok =>
    if inStorage a bytes.length then
      .done (.ok ()) { s.ioTaken with storage := Memory.writeAll s.storage a bytes }
    else .done (.error .storage) s.ioTaken
  | .failed torn =>
    .done (.error .storage) { s.ioTaken with storage := tornWrite s.storage a bytes.length torn }
  | .powerLoss torn =>
    .crashed { s.ioTaken.powerOn with storage := tornWrite s.storage a bytes.length torn }

end Sys2Proof.Machine
end

