-- ==== Sys2Proof/Machine/ConfigStore.lean ====
section
/-! DEFINITION. ConfigStore (44_host_procedures.md R201 to R207) and the boot sequence
(70_reset_and_hazards.md R284). -/

namespace Sys2Proof.Machine

/-! ### The record (R201, R202) -/

/-- Six 32-bit values: the velocity and the k-factor coefficients (R201). -/
structure Six where
  a0 : Word32
  a1 : Word32
  a2 : Word32
  a3 : Word32
  a4 : Word32
  a5 : Word32
  deriving DecidableEq, Repr

/-- The ConfigRecord's fields and widths (R201). Their meaning is opaque (R7, U20). -/
structure ConfigRecord where
  crc : Word16
  serial : Word32
  sensorType : Byte
  preset1 : BitVec 80
  preset2 : BitVec 80
  velocity : Six
  kFactor : Six
  zeroOffset1 : Word32
  zeroOffset2 : Word32
  uptime : Word32
  total : Word32
  hourTotal : Word32
  dayTotal : Word32
  monthTotal : Word32
  rest : Word32
  negFlowEnable : Byte
  slaveAddress : Byte
  commType : Byte
  modbusMode : Byte
  deriving DecidableEq, Repr

/-- The record's size (R201: 888 bits). -/
def recordBytes : Nat := 111

/-- The bytes of six coefficients. -/
def Six.serialise (e : Endian) (x : Six) : List Byte :=
  put32 e x.a0 ++ put32 e x.a1 ++ put32 e x.a2 ++ put32 e x.a3 ++ put32 e x.a4 ++ put32 e x.a5

/-- The record's bytes: packed, in the order the source lists the fields (R202; log entry 18). -/
def ConfigRecord.serialise (e : Endian) (r : ConfigRecord) : List Byte :=
  put16 e r.crc ++ (put32 e r.serial ++ ([r.sensorType] ++ (bytesOfNat e 10 r.preset1.toNat ++
    (bytesOfNat e 10 r.preset2.toNat ++ (r.velocity.serialise e ++ (r.kFactor.serialise e ++
    (put32 e r.zeroOffset1 ++ (put32 e r.zeroOffset2 ++ (put32 e r.uptime ++ (put32 e r.total ++
    (put32 e r.hourTotal ++ (put32 e r.dayTotal ++ (put32 e r.monthTotal ++ (put32 e r.rest ++
    [r.negFlowEnable, r.slaveAddress, r.commType, r.modbusMode]))))))))))))))

/-- The number in `n` bytes at an index of a byte string. -/
def numberAt (e : Endian) (bs : List Byte) (i n : Nat) : Nat := natOfBytes e ((bs.drop i).take n)

/-- The 32-bit field at an index. -/
def word32At (e : Endian) (bs : List Byte) (i : Nat) : Word32 := BitVec.ofNat 32 (numberAt e bs i 4)

/-- Six coefficients at an index. -/
def sixAt (e : Endian) (bs : List Byte) (i : Nat) : Six where
  a0 := word32At e bs i
  a1 := word32At e bs (i + 4)
  a2 := word32At e bs (i + 8)
  a3 := word32At e bs (i + 12)
  a4 := word32At e bs (i + 16)
  a5 := word32At e bs (i + 20)

/-- The record that bytes stand for, field by field at the offsets of R202. -/
def ConfigRecord.parse (e : Endian) (bs : List Byte) : ConfigRecord where
  crc := BitVec.ofNat 16 (numberAt e bs 0 2)
  serial := word32At e bs 2
  sensorType := bs.getD 6 0
  preset1 := BitVec.ofNat 80 (numberAt e bs 7 10)
  preset2 := BitVec.ofNat 80 (numberAt e bs 17 10)
  velocity := sixAt e bs 27
  kFactor := sixAt e bs 51
  zeroOffset1 := word32At e bs 75
  zeroOffset2 := word32At e bs 79
  uptime := word32At e bs 83
  total := word32At e bs 87
  hourTotal := word32At e bs 91
  dayTotal := word32At e bs 95
  monthTotal := word32At e bs 99
  rest := word32At e bs 103
  negFlowEnable := bs.getD 107 0
  slaveAddress := bs.getD 108 0
  commType := bs.getD 109 0
  modbusMode := bs.getD 110 0

/-! ### Pages (R203) -/

/-- The page of a record as it stands: its bytes, then `PAGE_PAD` up to 1024 (R203). -/
def ConfigRecord.page (p : Config.Params) (r : ConfigRecord) : List Byte :=
  r.serialise p.storeEndian ++ List.replicate (Config.pageBytes - recordBytes) p.pagePad

/-- The checksum of a page: CCITT-FALSE over bytes 2 to 1023 (R203). -/
def pageCrc (page : List Byte) : Word16 := crc16 .ccittFalse (page.drop 2)

/-- The checksum that a page holds in its first two bytes (R203). -/
def storedCrc (p : Config.Params) (page : List Byte) : Word16 := st16 p.storeEndian (page.take 2)

/-- A page is valid when the two agree (R203). -/
def pageValid (p : Config.Params) (page : List Byte) : Bool := decide (storedCrc p page = pageCrc page)

/-- The code of an algorithm as `CRC.INIT` takes it (R86, R116). -/
def algCode : CrcAlg → Byte
  | .ccittFalse => 0
  | .modbus => 1

/-- The checksum of bytes, computed with the CRC unit: the pseudo-instruction `CRC16 alg, bytes` (R87, R120). -/
def crcByUnit (alg : CrcAlg) (bytes : List Byte) (s : State) : ProcResult (Except HostError Word16) :=
  (issueAll (.crcInit (algCode alg) :: bytes.map .crcUpd) s).onOk fun _ s =>
    (readRegister .crc s).onOk fun v s => .done (.ok (v.extractLsb' 0 16)) s

/-! ### load and save (R204, R205) -/

/-- One round of `load`: the record of the copy at an offset, or none if the page is not valid (R204). -/
def loadCopy (base : Nat) (s : State) : ProcResult (Except HostError (Option ConfigRecord)) :=
  (storageRead base Config.pageBytes s).onOk fun page s =>
    (crcByUnit .ccittFalse (page.drop 2) s).onOk fun c s =>
      if c = storedCrc s.params page then .done (.ok (some (.parse s.params.storeEndian page))) s
      else .done (.ok none) s

/-- `ConfigStore.load` (R204): the primary copy, then the secondary, then `WrongCrc`. -/
def configLoad (s : State) : ProcResult (Except HostError ConfigRecord) :=
  (loadCopy Config.cfgPrimary s).onOk fun r s =>
    match r with
    | some r => .done (.ok r) s
    | none =>
      (loadCopy Config.cfgSecondary s).onOk fun r s =>
        match r with
        | some r => .done (.ok r) s
        | none => .done (.error .wrongCrc) s

/-- What `ConfigStore.save(&mut record, storage)` leaves its caller: its result and the record as it is then
(R205). -/
structure Saved where
  result : Except HostError Unit
  record : ConfigRecord
  deriving DecidableEq, Repr

/-- The two writes of `save`, the primary first; the secondary is not attempted after a failed primary (R78,
R205). -/
def writeCopies (page : List Byte) (s : State) : ProcResult (Except HostError Unit) :=
  (storageWrite Config.cfgPrimary page s).onOk fun _ s => storageWrite Config.cfgSecondary page s

/-- `ConfigStore.save` (R205): the checksum into the record, before any write, then the same page to both
copies. The record keeps its new checksum whether the writes succeed or not. -/
def configSave (r : ConfigRecord) (s : State) : ProcResult Saved :=
  (crcByUnit .ccittFalse ((r.page s.params).drop 2) s).andThen fun c s =>
    match c with
    | .error e => .done ⟨.error e, r⟩ s
    | .ok c =>
      let r := { r with crc := c }
      (writeCopies (r.page s.params) s).andThen fun x s => .done ⟨x, r⟩ s

/-! ### Boot (R207, R284) -/

/-- The record a caller goes on with: the loaded one, or its default once both copies have failed (R207). What a
caller does when `load` answers `Storage` the spec does not say: here the error ends the boot (log entry 32). -/
def recordOrDefault (dflt : ConfigRecord) (s : State) : ProcResult (Except HostError ConfigRecord) :=
  (configLoad s).andThen fun x s =>
    match x with
    | .ok r => .done (.ok r) s
    | .error .wrongCrc => .done (.ok dflt) s
    | .error e => .done (.error e) s

/-- The record's slave address written into `SLAVE_ADDR` (R284). -/
def writeSlaveAddress (r : ConfigRecord) (s : State) : ProcResult (Except HostError Unit) :=
  issueAll [.regWr Reg.slaveAddr.number (r.slaveAddress.setWidth 32)] s

/-- Steps (1) and (2) of the boot sequence (R284): the record, then its slave address into `SLAVE_ADDR`. -/
def bootConfig (dflt : ConfigRecord) (s : State) : ProcResult (Except HostError ConfigRecord) :=
  (recordOrDefault dflt s).onOk fun r s => (writeSlaveAddress r s).onOk fun _ s => .done (.ok r) s

end Sys2Proof.Machine
end

