-- ==== Sys2Proof/Machine/RingStore.lean ====
section
/-! DEFINITION. RingHistoryStore (44_host_procedures.md R208 to R217) and the layout of a ring region
(20_memory.md R70 to R72). -/

namespace Sys2Proof.Machine

/-! ### Ring instances (R9, R70 to R72, R200) -/

/-- The storage a ring reserves: prefix, slots, header, two bytes (R71). -/
def regionSize (capacity : Nat) : Nat := 4 * capacity + 20

/-- The constants of one ring instance (R200). Where the slots and the header lie inside the region is the
host's choice (R72). The spec gives `slot_addr(j)` for `j < capacity` only; what `slotAddr` is beyond is open, and
`RingInstance.Valid` asks nothing of it (log entry 31). -/
structure RingInstance where
  capacity : Word32
  elementSize : Word32
  offset : Nat
  hdrAddr : Nat
  slotAddr : Nat → Nat

/-- What R72 asks of the layout: every range inside the region, the header and the slots pairwise disjoint;
and the region inside the storage (R69). -/
structure RingInstance.Valid (g : RingInstance) : Prop where
  capacity_ne : g.capacity ≠ 0
  element_ne : g.elementSize ≠ 0
  region_fits : g.offset + regionSize g.capacity.toNat ≤ Config.stCap
  hdr_low : g.offset ≤ g.hdrAddr
  hdr_high : g.hdrAddr + 14 ≤ g.offset + regionSize g.capacity.toNat
  slot_low : ∀ j, j < g.capacity.toNat → g.offset ≤ g.slotAddr j
  slot_high : ∀ j, j < g.capacity.toNat → g.slotAddr j + 4 ≤ g.offset + regionSize g.capacity.toNat
  slot_hdr : ∀ j, j < g.capacity.toNat → g.slotAddr j + 4 ≤ g.hdrAddr ∨ g.hdrAddr + 14 ≤ g.slotAddr j
  slot_slot : ∀ i j, i < g.capacity.toNat → j < g.capacity.toNat → i ≠ j →
    g.slotAddr i + 4 ≤ g.slotAddr j ∨ g.slotAddr j + 4 ≤ g.slotAddr i

/-- The instance with the spec's default layout (R72). DESIGN CHOICE (log entry 31): the formula of the slots is
used for every `j`, also where R72 gives no slot. -/
def RingInstance.atOffset (capacity elementSize : Word32) (offset : Nat) : RingInstance where
  capacity := capacity
  elementSize := elementSize
  offset := offset
  hdrAddr := offset + 4 + 4 * capacity.toNat
  slotAddr := fun j => offset + 4 + 4 * j

/-- The hour, day and month rings of the given capacities, one region after the other from the start of the stat
page (R9, R70). -/
def statPageRings (hour day month : Word32) : List RingInstance := [
  .atOffset hour (BitVec.ofNat 32 Config.hourElement) Config.statPage,
  .atOffset day (BitVec.ofNat 32 Config.dayElement) (Config.statPage + regionSize hour.toNat),
  .atOffset month (BitVec.ofNat 32 Config.monthElement)
    (Config.statPage + regionSize hour.toNat + regionSize day.toNat)]

/-- Those rings with the capacities that the source gives as approximate (R9; log entry 29). -/
def defaultRings : List RingInstance :=
  statPageRings (BitVec.ofNat 32 Config.hourCapacity) (BitVec.ofNat 32 Config.dayCapacity)
    (BitVec.ofNat 32 Config.monthCapacity)

/-! ### Slots and the header (R210, R211) -/

/-- The commands of `RING.SELECT` (R87). -/
def selectCommands (g : RingInstance) : List Instr :=
  [.regWr Reg.capacity.number g.capacity, .regWr Reg.elementSize.number g.elementSize]

/-- The commands of `HB.LOAD` (R87): `HB.WR i, b` from index `i` on. -/
def hbCommands : Nat → List Byte → List Instr
  | _, [] => []
  | i, b :: bs => .hbWr (BitVec.ofNat 8 i) b :: hbCommands (i + 1) bs

/-- `write_slot(j, v)` (R210): two's complement, four bytes. -/
def writeSlot (g : RingInstance) (j : Nat) (v : Word32) (s : State) : ProcResult (Except HostError Unit) :=
  storageWrite (g.slotAddr j) (put32 s.params.storeEndian v) s

/-- `read_slot(j)` (R210): the signed value. -/
def readSlot (g : RingInstance) (j : Nat) (s : State) : ProcResult (Except HostError Int) :=
  (storageRead (g.slotAddr j) Config.slotBytes s).onOk fun bs s =>
    .done (.ok (st32 s.params.storeEndian bs).toInt) s

/-- `persist_header()` (R211): sealed, dumped, written to storage. -/
def persistHeader (g : RingInstance) (s : State) : ProcResult (Except HostError Unit) :=
  (issueOk .hdrSeal s).onOk fun _ s =>
    (issueReads (commandsUpTo .hbRd Config.hdrBytes) s).onOk fun img s => storageWrite g.hdrAddr img s

/-- A slot write and the header after it (R78, R211). -/
def writeAndPersist (g : RingInstance) (j : Nat) (v : Word32) (s : State) : ProcResult (Except HostError Unit) :=
  (writeSlot g j v s).onOk fun _ s => persistHeader g s

/-! ### new (R209) -/

/-- `RingHistoryStore.new` (R209). A failed header read gives the empty instance. -/
def ringNew (g : RingInstance) (s : State) : ProcResult (Except HostError Unit) :=
  (issueAll (selectCommands g) s).onOk fun _ s =>
    (storageRead g.hdrAddr Config.hdrBytes s).andThen fun x s =>
      match x with
      | .ok img => issueAll (hbCommands 0 img ++ [.hdrLoad]) s
      | .error _ => issueAll [.hdrReset] s

/-- `new` for a host that wants the stricter reading: `HDR.RESET` when `INV_OK` reads 0 after the load (R171). -/
def ringNewStrict (g : RingInstance) (s : State) : ProcResult (Except HostError Unit) :=
  (ringNew g s).onOk fun _ s =>
    (readRegister .hFlags s).onOk fun flags s =>
      if flags.getLsbD 2 then .done (.ok ()) s else issueAll [.hdrReset] s

/-- `new` for a host that wants the hard-error policy: an error when `CRC_OK` reads 0 after the load (R172,
R265). -/
def ringNewOrFail (g : RingInstance) (s : State) : ProcResult (Except HostError Unit) :=
  (ringNew g s).onOk fun _ s =>
    (readRegister .hFlags s).onOk fun flags s =>
      if flags.getLsbD 1 then .done (.ok ()) s else .done (.error .wrongCrc) s

/-! ### add (R212 to R214) -/

/-- Case 1 of `add`, the label FIRST (R212). -/
def addFirst (g : RingInstance) (value time : Word32) (s : State) : ProcResult (Except HostError Unit) :=
  (issueOk (.hdrStart time) s).onOk fun _ s => writeAndPersist g 0 value s

/-- Reset and behave as case 1 (R213, R214). -/
def addAfresh (g : RingInstance) (value time : Word32) (s : State) : ProcResult (Except HostError Unit) :=
  (issueOk .hdrReset s).onOk fun _ s => addFirst g value time s

/-- `value` written at the newest bucket's slot, `write_slot(x[H_OFF], value)` (R213, R214). A header that was loaded
with `H_OFF ≥ CAPACITY` (R171) names no slot of R72; the write then goes where the instance's `slotAddr` says, which
is the model's choice (log entry 31). -/
def overwriteNewest (g : RingInstance) (value : Word32) (s : State) : ProcResult (Except HostError Unit) :=
  (readRegister .hOff s).onOk fun off s => writeAndPersist g off.toNat value s

/-- `n` rounds of the loop of case 2 (R213): an advance and a slot write each, the last one with `value`, the
others with a zero placeholder. -/
def fillForward (g : RingInstance) (value : Word32) : Nat → State → ProcResult (Except HostError Unit)
  | 0, s => .done (.ok ()) s
  | n + 1, s =>
    (issueOk .hdrAdv s).onOk fun _ s =>
      (overwriteNewest g (if n = 0 then value else 0) s).onOk fun _ s => fillForward g value n s

/-- Case 2 of `add`, a gap of `k` whole buckets forward (R213). -/
def addForward (g : RingInstance) (value time : Word32) (k : Nat) (s : State) :
    ProcResult (Except HostError Unit) :=
  if k ≥ g.capacity.toNat then addAfresh g value time s
  else if k = 0 then overwriteNewest g value s
  else fillForward g value k s

/-- Case 3 of `add`, `k` buckets back with `size` buckets held (R214). -/
def addBackward (g : RingInstance) (value time : Word32) (k size : Nat) (s : State) :
    ProcResult (Except HostError Unit) :=
  if k ≥ size then addAfresh g value time s
  else (issueAll (List.replicate k .hdrRet) s).onOk fun _ s => overwriteNewest g value s

/-- `add(storage, value, time)` (R212 to R214, R217), with the instance selected and loaded. -/
def ringAdd (g : RingInstance) (value time : Word32) (s : State) : ProcResult (Except HostError Unit) :=
  (readRegister .hSize s).onOk fun size s =>
    if size = 0 then addFirst g value time s
    else
      (readRegister .hTime s).onOk fun last s =>
        let q := quant time.toNat
        if q > last.toNat then addForward g value time ((q - last.toNat) / g.elementSize.toNat) s
        else addBackward g value time ((last.toNat - q) / g.elementSize.toNat) size.toNat s

/-! ### find and the two timestamps (R215, R216) -/

/-- `find(storage, time)` (R215): the value of the bucket, or none. A failed slot read answers none, or
`Storage` where the parameter says so (U10; log entry 14). -/
def ringFind (g : RingInstance) (time : Word32) (s : State) : ProcResult (Except HostError (Option Int)) :=
  (issue (.hdrFind time) s).andThen fun r s =>
    if r.status = .notFound then .done (.ok none) s
    else if r.status = .ok then
      (readSlot g r.result.toNat s).andThen fun x s =>
        match x with
        | .ok v => .done (.ok (some v)) s
        | .error e => if s.params.findPropagates then .done (.error e) s else .done (.ok none) s
    else .done (.error (.block r.status)) s

/-- `first_stored_timestamp()` (R216). -/
def firstStoredTimestamp (s : State) : ProcResult (Except HostError Word32) := issueOk .hdrTfirst s

/-- `last_stored_timestamp()` (R216). -/
def lastStoredTimestamp (s : State) : ProcResult (Except HostError Word32) := issueOk .hdrTlast s

end Sys2Proof.Machine
end

