-- ==== Sys2Proof/Machine/Boot.lean ====
section
/-! DEFINITION. The boot sequence of the firmware (70_reset_and_hazards.md R284). -/

namespace Sys2Proof.Machine

/-- `new` for ring instances one after the other; the block serves the last one afterwards (R200, R289). -/
def newRings : List RingInstance → State → ProcResult (Except HostError Unit)
  | [], s => .done (.ok ()) s
  | g :: gs, s => (ringNew g s).onOk fun _ s => newRings gs s

/-- Boot (R284): the record and the slave address, then `new` for each ring; the source's firmware has three,
`statPageRings` (R9, R208). Where `load` answers `Storage` the boot ends with that error, `SLAVE_ADDR` unwritten and
no ring opened: the model's choice (log entry 32). -/
def boot (rings : List RingInstance) (dflt : ConfigRecord) (s : State) : ProcResult (Except HostError ConfigRecord) :=
  (bootConfig dflt s).onOk fun r s => (newRings rings s).onOk fun _ s => .done (.ok r) s

end Sys2Proof.Machine
end

