-- ==== Sys2Proof/Machine/ModbusHandler.lean ====
section
/-! DEFINITION. The Modbus register map and handler (44_host_procedures.md R220 to R225). -/

namespace Sys2Proof.Machine

/-- The four telemetry values: opaque 32-bit patterns supplied by the host (R220, R222). -/
structure Telemetry where
  flowRate : Word32
  hourFlow : Word32
  dayFlow : Word32
  monthFlow : Word32
  deriving DecidableEq, Repr

/-- The bytes of the four values: most significant first (R222). -/
def Telemetry.bytes (t : Telemetry) : List Byte :=
  put32 .big t.flowRate ++ put32 .big t.hourFlow ++ put32 .big t.dayFlow ++ put32 .big t.monthFlow

/-- The exception codes (60_exceptions.md R252). -/
def illegalFunction : Byte := 0x01#8

/-- R252. -/
def illegalDataAddress : Byte := 0x02#8

/-- R252. -/
def illegalDataValue : Byte := 0x03#8

/-- R252. -/
def serverDeviceFailure : Byte := 0x04#8

/-! ### The register map (R220) -/

/-- Registers `a .. a + n` lie inside the range from `base` of `size` registers. -/
def inRange (base size a n : Nat) : Bool := decide (base ≤ a) && decide (a + n ≤ base + size)

/-- The bytes of a readable span: function 0x03 reads the record's mirror at 0x0000 to 0x001F and the four
floats at 0x0064 to 0x006B, function 0x04 the floats at 0x0000 to 0x0007; none: outside the ranges (R220). -/
def readSpan (kind : Nat) (rec : List Byte) (t : Telemetry) (a n : Nat) : Option (List Byte) :=
  if kind = 1 then
    if inRange 0x0000 32 a n then some ((rec.drop (2 * a)).take (2 * n))
    else if inRange 0x0064 8 a n then some ((t.bytes.drop (2 * (a - 0x0064))).take (2 * n))
    else none
  else if inRange 0x0000 8 a n then some ((t.bytes.drop (2 * a)).take (2 * n))
  else none

/-- Whether every register written lies inside 0x0000 to 0x001F (R220, R221; log entry 17). -/
def writeInside (a n : Nat) : Bool := decide (n = 0) || decide (a + n ≤ 32)

/-- A byte string with the bytes from an index on replaced. -/
def patchBytes (rec : List Byte) (i : Nat) (new : List Byte) : List Byte :=
  rec.take i ++ new ++ rec.drop (i + new.length)

/-! ### Answers -/

/-- What the handler returns: the frame to send, if any, and the record it goes on with. -/
structure Handled where
  reply : Option (List Byte)
  record : ConfigRecord
  deriving DecidableEq, Repr

/-- `FB.DUMP` (R87): the built frame read out. -/
def dumpFrame (s : State) : ProcResult (Except HostError (List Byte)) :=
  (readRegister .fbLen s).onOk fun n s => issueReads (commandsUpTo .fbRd n.toNat) s

/-- The built frame sent; to a broadcast only if the host answers broadcasts (U19; log entry 15). -/
def sendFrame (slave : Byte) (rec : ConfigRecord) (s : State) : ProcResult (Except HostError Handled) :=
  if slave = Config.broadcast ∧ s.params.answerBroadcast = false then .done (.ok ⟨none, rec⟩) s
  else (dumpFrame s).onOk fun bs s => .done (.ok ⟨some bs, rec⟩) s

/-- An exception response built and sent (R221). -/
def sendException (slave func code : Byte) (rec : ConfigRecord) (s : State) :
    ProcResult (Except HostError Handled) :=
  (issueOk (.txExc slave func code) s).onOk fun _ s => sendFrame slave rec s

/-- The commands of `RESP` (R87). -/
def respCommands (slave func : Byte) (data : List Byte) : List Instr :=
  .txBegin slave func :: (data.map .fbPush ++ [.txSeal])

/-- A normal response built and sent (R221, R223). -/
def sendNormal (slave func : Byte) (data : List Byte) (rec : ConfigRecord) (s : State) :
    ProcResult (Except HostError Handled) :=
  (issueAll (respCommands slave func data) s).onOk fun _ s => sendFrame slave rec s

/-! ### The handler (R221) -/

/-- The request registers, read out before the response is built (R288). -/
structure Request where
  kind : Nat
  slave : Byte
  func : Byte
  addr : Word16
  qty : Word16
  count : Nat
  deriving DecidableEq, Repr

/-- The registers of a parsed request, with `REG.RD`. -/
def readRequest (s : State) : ProcResult (Except HostError Request) :=
  (readRegister .rKind s).onOk fun kind s =>
    (readRegister .rSlave s).onOk fun slave s =>
      (readRegister .rFunc s).onOk fun func s =>
        (readRegister .rAddr s).onOk fun addr s =>
          (readRegister .rQty s).onOk fun qty s =>
            (readRegister .rBc s).onOk fun bc s =>
              .done (.ok ⟨kind.toNat, slave.extractLsb' 0 8, func.extractLsb' 0 8, addr.extractLsb' 0 16,
                qty.extractLsb' 0 16, bc.toNat⟩) s

/-- A read request: quantity before address (R221, D36), then the response of R223. -/
def handleRead (q : Request) (t : Telemetry) (rec : ConfigRecord) (s : State) :
    ProcResult (Except HostError Handled) :=
  if q.qty.toNat < 1 ∨ q.qty.toNat > 125 then sendException q.slave q.func illegalDataValue rec s
  else
    match readSpan q.kind (rec.serialise s.params.storeEndian) t q.addr.toNat q.qty.toNat with
    | some bs => sendNormal q.slave q.func (BitVec.ofNat 8 (2 * q.qty.toNat) :: bs) rec s
    | none => sendException q.slave q.func illegalDataAddress rec s

/-- The registers a write request names: one for 0x06, its quantity for 0x10 (R220). -/
def Request.writeCount (q : Request) : Nat := if q.kind = 4 then q.qty.toNat else 1

/-- The record's bytes after the patch (R224): the value's two bytes for 0x06, the payload for 0x10. Where the
byte count is zero or not twice the quantity the result is a free value (U4; log entry 16). -/
def Request.patched (q : Request) (payload rec : List Byte) : List Byte :=
  if q.kind = 4 then
    if q.count ≠ 0 ∧ q.count = 2 * q.qty.toNat then patchBytes rec (2 * q.addr.toNat) payload
    else Config.mismatchedPatch rec q.addr.toNat q.qty.toNat payload
  else patchBytes rec (2 * q.addr.toNat) (be16Bytes q.qty)

/-- The payload of a parsed 0x10 request, read out of `fb` (R139); nothing for the other requests. -/
def readPayload (q : Request) (s : State) : ProcResult (Except HostError (List Byte)) :=
  if q.kind = 4 then issueReads (commandsUpTo (fun i => .fbRd (7 + i)) q.count) s else .done (.ok []) s

/-- A write request (R221, R224): patch a copy, save it, echo; a storage failure is `ServerDeviceFailure`, and the
record is then the one before the request (log entry 19). -/
def handleWrite (q : Request) (rec : ConfigRecord) (s : State) : ProcResult (Except HostError Handled) :=
  if writeInside q.addr.toNat q.writeCount = false then sendException q.slave q.func illegalDataAddress rec s
  else
    (readPayload q s).onOk fun payload s =>
      let e := s.params.storeEndian
      (configSave (.parse e (q.patched payload (rec.serialise e))) s).andThen fun x s =>
        match x.result with
        | .ok _ => sendNormal q.slave q.func (be16Bytes q.addr ++ be16Bytes q.qty) x.record s
        | .error .storage => sendException q.slave q.func serverDeviceFailure rec s
        | .error err => .done (.error err) s

/-- One received frame handled (R221): nothing sent for a frame that fails length, address or CRC. -/
def handleFrame (frame : List Byte) (t : Telemetry) (rec : ConfigRecord) (s : State) :
    ProcResult (Except HostError Handled) :=
  (issueAll (.fbClr :: frame.map .fbPush) s).andThen fun x s =>
    match x with
    | .error _ => .done (.ok ⟨none, rec⟩) s
    | .ok _ =>
      (issue .rxParse s).andThen fun r s =>
        match r.status with
        | .ok =>
          (readRequest s).onOk fun q s =>
            if q.kind = 1 ∨ q.kind = 2 then handleRead q t rec s else handleWrite q rec s
        | .exception =>
          (readRequest s).onOk fun q s => sendException q.slave q.func (r.result.extractLsb' 0 8) rec s
        | _ => .done (.ok ⟨none, rec⟩) s

/-- One received frame served: handled (R221), and `SLAVE_ADDR` written again if the record's slave address changed
(R284). That the new address holds from the next frame on is the model's choice (N29; log entry 24). -/
def serveFrame (frame : List Byte) (t : Telemetry) (rec : ConfigRecord) (s : State) :
    ProcResult (Except HostError Handled) :=
  (handleFrame frame t rec s).onOk fun h s =>
    if h.record.slaveAddress = rec.slaveAddress then .done (.ok h) s
    else (writeSlaveAddress h.record s).onOk fun _ s => .done (.ok h) s

end Sys2Proof.Machine
end

