-- ==== Sys2Proof/Safety.lean ====
section
/-! DEFINITION. What the claims say of states and runs: the canonical form of the byte spaces, the invariant
of 10_state.md R41, and which instructions are commands. -/

namespace Sys2Proof.Machine

/-- Every byte space is in canonical form and inside its bounds (R60). -/
def State.wf (s : State) : Bool :=
  Memory.wf Config.fbCap s.fb && Memory.wf Config.hdrBytes s.hb && Memory.wf Config.stCap s.storage

/-- The function code that a value of `R_KIND` stands for (R29). -/
def kindFunction (k : BitVec 3) : Byte :=
  if k = 1 then 0x03 else if k = 2 then 0x04 else if k = 3 then 0x06 else 0x10

/-- The invariant of the state after reset and after every command (R41), with the canonical form of the byte
spaces and what R29 and R31 say of the request registers while `R_KIND` is not 0. -/
structure State.Inv (s : State) : Prop where
  /-- The byte spaces are in canonical form. -/
  spaces : s.wf = true
  /-- `0 ≤ FB_LEN ≤ 256` (R28). -/
  len_le : s.fbLen.toNat ≤ 256
  /-- `R_KIND` is one of 0 to 4 (R29). -/
  kind_le : s.rKind.toNat ≤ 4
  /-- A parsed frame has at least eight bytes. -/
  parsed_len : s.rKind ≠ 0 → 8 ≤ s.fbLen.toNat
  /-- `fb[0] = R_SLAVE`. -/
  parsed_slave : s.rKind ≠ 0 → Memory.read s.fb 0 = s.rSlave
  /-- `fb[1] = R_FUNC`. -/
  parsed_func : s.rKind ≠ 0 → Memory.read s.fb 1 = s.rFunc
  /-- `R_FUNC` is the function code of the kind (R29). -/
  parsed_kind : s.rKind ≠ 0 → s.rFunc = kindFunction s.rKind
  /-- `R_ADDR` and `R_QTY` are the fields at 2 and 4 (R31). -/
  parsed_fields : s.rKind ≠ 0 → s.rAddr = s.frameField 2 ∧ s.rQty = s.frameField 4
  /-- The last two bytes are the CRC of the bytes before them. -/
  parsed_crc : s.rKind ≠ 0 → s.frameCrcOk s.fbLen.toNat = true
  /-- `R_KIND = 4` implies `FB_LEN = 9 + R_BC`. -/
  parsed_count : s.rKind = 4 → s.fbLen.toNat = 9 + s.rBc.toNat
  /-- `CRC_OK = 1` implies `LOADED = 1`. -/
  crc_loaded : s.crcOk = true → s.loaded = true

/-- The instructions that are commands of the block, written on the command port (R84); the others are byte
formats. -/
def isCommand (i : Instr) : Bool :=
  match encode i with
  | .command _ _ => true
  | .request _ => false
  | .normalResponse _ => false
  | .exceptionResponse _ => false
  | .image _ => false
  | .powerCycle => false

/-- The opcode table's mnemonic of an instruction (spec/opcode_table.json). -/
def mnemonic : Instr → String
  | .regRd _ => "REG.RD"
  | .regWr _ _ => "REG.WR"
  | .crcInit _ => "CRC.INIT"
  | .crcUpd _ => "CRC.UPD"
  | .fbClr => "FB.CLR"
  | .fbPush _ => "FB.PUSH"
  | .fbRd _ => "FB.RD"
  | .rxParse => "RX.PARSE"
  | .txBegin _ _ => "TX.BEGIN"
  | .txSeal => "TX.SEAL"
  | .txExc _ _ _ => "TX.EXC"
  | .hbWr _ _ => "HB.WR"
  | .hbRd _ => "HB.RD"
  | .hdrLoad => "HDR.LOAD"
  | .hdrSeal => "HDR.SEAL"
  | .hdrReset => "HDR.RESET"
  | .hdrStart _ => "HDR.START"
  | .hdrAdv => "HDR.ADV"
  | .hdrRet => "HDR.RET"
  | .hdrTfirst => "HDR.TFIRST"
  | .hdrTlast => "HDR.TLAST"
  | .hdrFind _ => "HDR.FIND"
  | .sysReset => "SYS.RESET"
  | .reqReadHolding _ _ _ _ _ => "MODBUS.REQ.READ_HOLDING__0x03"
  | .reqReadInput _ _ _ _ _ => "MODBUS.REQ.READ_INPUT__0x04"
  | .reqWriteSingle _ _ _ _ _ => "MODBUS.REQ.WRITE_SINGLE__0x06"
  | .reqWriteMultiple _ _ _ _ _ _ _ => "MODBUS.REQ.WRITE_MULTIPLE__0x10"
  | .respNormal _ _ _ _ _ => "MODBUS.RESP.NORMAL"
  | .respException _ _ _ _ _ => "MODBUS.RESP.EXCEPTION"
  | .headerImage _ _ _ _ => "HEADER.IMAGE"

/-- A row of the opcode table for a command: `match` and `mask` over the 64-bit value `cw : arg` (R84). -/
structure TableRow where
  name : String
  pattern : BitVec 64
  mask : BitVec 64
  deriving DecidableEq, Repr

/-- Whether a command word fits a row: it agrees with the pattern in every bit the mask has. -/
def TableRow.fits (r : TableRow) (cw arg : Word32) : Bool := decide ((cw ++ arg) &&& r.mask = r.pattern)

/-- The 23 command rows as spec/opcode_table.json writes them. -/
def commandTable : List TableRow := [
  ⟨"REG.RD", 0x0100000000000000#64, 0xFFFFFF00FFFFFFFF#64⟩,
  ⟨"REG.WR", 0x0200000000000000#64, 0xFFFFFF0000000000#64⟩,
  ⟨"CRC.INIT", 0x1000000000000000#64, 0xFFFFFF00FFFFFFFF#64⟩,
  ⟨"CRC.UPD", 0x1100000000000000#64, 0xFFFFFF00FFFFFFFF#64⟩,
  ⟨"FB.CLR", 0x2000000000000000#64, 0xFFFFFFFFFFFFFFFF#64⟩,
  ⟨"FB.PUSH", 0x2100000000000000#64, 0xFFFFFF00FFFFFFFF#64⟩,
  ⟨"FB.RD", 0x2200000000000000#64, 0xFFFFFF00FFFFFFFF#64⟩,
  ⟨"RX.PARSE", 0x2300000000000000#64, 0xFFFFFFFFFFFFFFFF#64⟩,
  ⟨"TX.BEGIN", 0x2800000000000000#64, 0xFF0000FFFFFFFFFF#64⟩,
  ⟨"TX.SEAL", 0x2900000000000000#64, 0xFFFFFFFFFFFFFFFF#64⟩,
  ⟨"TX.EXC", 0x2A00000000000000#64, 0xFF000000FFFFFFFF#64⟩,
  ⟨"HB.WR", 0x3000000000000000#64, 0xFFFF0000FFFFFFFF#64⟩,
  ⟨"HB.RD", 0x3100000000000000#64, 0xFFFFFF00FFFFFFFF#64⟩,
  ⟨"HDR.LOAD", 0x3200000000000000#64, 0xFFFFFFFFFFFFFFFF#64⟩,
  ⟨"HDR.SEAL", 0x3300000000000000#64, 0xFFFFFFFFFFFFFFFF#64⟩,
  ⟨"HDR.RESET", 0x3400000000000000#64, 0xFFFFFFFFFFFFFFFF#64⟩,
  ⟨"HDR.START", 0x3500000000000000#64, 0xFFFFFFFF00000000#64⟩,
  ⟨"HDR.ADV", 0x3600000000000000#64, 0xFFFFFFFFFFFFFFFF#64⟩,
  ⟨"HDR.RET", 0x3700000000000000#64, 0xFFFFFFFFFFFFFFFF#64⟩,
  ⟨"HDR.TFIRST", 0x3800000000000000#64, 0xFFFFFFFFFFFFFFFF#64⟩,
  ⟨"HDR.TLAST", 0x3900000000000000#64, 0xFFFFFFFFFFFFFFFF#64⟩,
  ⟨"HDR.FIND", 0x3A00000000000000#64, 0xFFFFFFFF00000000#64⟩,
  ⟨"SYS.RESET", 0xFF00000000000000#64, 0xFFFFFFFFFFFFFFFF#64⟩]

/-- The byte formats with fixed bits: for the leading bytes of each, a mask and a value, as the pattern of its
row in spec/opcode_table.json has them (a letter of the pattern is a free bit). -/
def formatTable : List (String × List (Byte × Byte)) := [
  ("MODBUS.REQ.READ_HOLDING__0x03", [(0x00, 0x00), (0xFF, 0x03)]),
  ("MODBUS.REQ.READ_INPUT__0x04", [(0x00, 0x00), (0xFF, 0x04)]),
  ("MODBUS.REQ.WRITE_SINGLE__0x06", [(0x00, 0x00), (0xFF, 0x06)]),
  ("MODBUS.REQ.WRITE_MULTIPLE__0x10", [(0x00, 0x00), (0xFF, 0x10)]),
  ("MODBUS.RESP.NORMAL", []),
  ("MODBUS.RESP.EXCEPTION", [(0x00, 0x00), (0x80, 0x80)]),
  ("HEADER.IMAGE", [])]

/-- Whether bytes agree with fixed bits. -/
def bytesFit : List (Byte × Byte) → List Byte → Bool
  | [], _ => true
  | _ :: _, [] => false
  | (m, v) :: fs, b :: bs => decide (b &&& m = v) && bytesFit fs bs

/-- Whether bytes agree with the fixed bits of an instruction's row. -/
def fitsFormat (i : Instr) (bytes : List Byte) : Prop :=
  ∃ r ∈ formatTable, r.1 = mnemonic i ∧ bytesFit r.2 bytes = true

/-- Whether an input has the shape of an instruction's row: the pattern of a command row, or the fixed bits and
the length of a byte format (R84, R91 to R96, R100). -/
def fitsRow (i : Instr) (x : Input) : Prop :=
  match x with
  | .command cw arg => ∃ r ∈ commandTable, r.name = mnemonic i ∧ r.fits cw arg = true
  | .request bytes => fitsFormat i bytes ∧ (bytes.length = 8 ∨ bytes.length = 9 + (bytes.getD 6 0).toNat)
  | .normalResponse bytes => fitsFormat i bytes ∧ 4 ≤ bytes.length
  | .exceptionResponse bytes => fitsFormat i bytes ∧ bytes.length = 5
  | .image bytes => fitsFormat i bytes ∧ bytes.length = 14
  | .powerCycle => False

/-! ### Runs of commands -/

/-- Commands executed one after the other, stopping at the first whose status is not `Ok` (R87). -/
def execSeq (is : List Instr) (s : State) : Out := seqOk (is.map exec) s

/-- Commands executed one after the other, whatever their statuses (R74). -/
def execAll : List Instr → State → Out
  | [], s => .next s
  | i :: is, s =>
    match exec i s with
    | .next t => execAll is t
    | .fault f => .fault f
    | .refused r => .refused r

/-- The bytes that the `CRC.UPD` commands of a list carry, in order (R118). -/
def updBytes : List Instr → List Byte
  | [] => []
  | .crcUpd b :: is => b :: updBytes is
  | _ :: is => updBytes is

/-- A safe run: no step of it stops the machine (R15). -/
def SafeFrom (s : State) : Prop := ∀ n, ∃ t, Sys2Proof.core.run n s = .next t

/-! ### Reset and readiness -/

/-- The values of the reset table (R40), as `REG.RD`, `fb` and `hb` show them. -/
structure State.HasResetValues (t : State) : Prop where
  crc : t.crc = 0xFFFF
  crc_alg : t.crcAlg = 0
  slave_addr : t.slaveAddr = 0
  fb_len : t.fbLen = 0
  kind : t.rKind = 0
  slave : t.rSlave = 0
  func : t.rFunc = 0
  addr : t.rAddr = 0
  qty : t.rQty = 0
  count : t.rBc = 0
  capacity : t.capacity = 0
  element_size : t.elementSize = 0
  size : t.hSize = 0
  off : t.hOff = 0
  time : t.hTime = 0
  header_crc : t.hCrc = 0
  flags : t.hFlags = 0
  frame_bytes : ∀ a, Memory.read t.fb a = 0
  image_bytes : ∀ a, Memory.read t.hb a = 0

/-- The header commands that need a loaded header answer `Uninitialized` (R168). -/
def State.notReady (s : State) : Prop := s.capacity = 0 ∨ s.elementSize = 0 ∨ s.loaded = false

/-- A state in which a ring instance is selected and loaded, its header in range, and the storage answers every
access (R200, R209, R212). -/
structure RingReady (g : RingInstance) (s : State) : Prop where
  capacity : s.capacity = g.capacity
  element_size : s.elementSize = g.elementSize
  loaded : s.loaded = true
  off_lt : s.hOff.toNat < g.capacity.toNat
  size_le : s.hSize.toNat ≤ g.capacity.toNat
  spaces : s.wf = true
  io : s.io = []

/-! ### The rounds of an `add` (R211 to R214)

An `add` is a number of rounds, each a slot write and the header after it. Here each round in closed form. -/

/-- The bucket of one round of an `add`: what is written to its slot, and the header after it. -/
structure AddRound where
  value : Word32
  size : Nat
  off : Nat
  time : Nat
  deriving DecidableEq, Repr

/-- Whole buckets from the newest one forward to a rounded time (R213). -/
def State.bucketsAhead (s : State) (q : Nat) : Nat := (q - s.hTime.toNat) / s.elementSize.toNat

/-- Whole buckets from the newest one back to a rounded time (R214). -/
def State.bucketsBack (s : State) (q : Nat) : Nat := (s.hTime.toNat - q) / s.elementSize.toNat

/-- Whether an `add` starts the ring afresh: it is empty, stale, or the time predates what it holds (R212 to
R214). -/
def State.startsAfresh (s : State) (q : Nat) : Bool :=
  decide (s.hSize = 0) || decide (s.capacity.toNat ≤ s.bucketsAhead q) || decide (s.hSize.toNat ≤ s.bucketsBack q)

/-- How many rounds an `add` has: one for each bucket it advances, else one (R212 to R214). -/
def State.addRounds (s : State) (q : Nat) : Nat := if s.startsAfresh q then 1 else max 1 (s.bucketsAhead q)

/-- Round `i` of an `add`, counted from 0 (R212 to R214). -/
def State.addRound (s : State) (q : Nat) (value : Word32) (i : Nat) : AddRound :=
  if s.startsAfresh q then ⟨value, 1, 0, q⟩
  else if 0 < s.bucketsAhead q then
    { value := if i + 1 < s.bucketsAhead q then 0 else value
      size := min (s.hSize.toNat + i + 1) s.capacity.toNat
      off := (s.hOff.toNat + i + 1) % s.capacity.toNat
      time := s.hTime.toNat + (i + 1) * s.elementSize.toNat }
  else
    { value := value
      size := s.hSize.toNat - s.bucketsBack q
      off := s.slotBack (s.bucketsBack q)
      time := s.hTime.toNat - s.bucketsBack q * s.elementSize.toNat }

/-- The header image after a round. -/
def AddRound.image (p : Config.Params) (r : AddRound) : List Byte :=
  hdrEncode p (BitVec.ofNat 32 r.size) (BitVec.ofNat 32 r.off) (BitVec.ofNat 32 r.time)

/-- What storage holds after an `add` of which `n` writes succeeded and the next one, `torn`, did not, from state
`s`: even writes are slots, odd writes are headers (R78, R211, R217, R292; U9 for the torn bytes). -/
structure AddStopped (g : RingInstance) (s : State) (q : Nat) (value : Word32) (n : Nat) (torn : List Byte)
    (m : Memory) : Prop where
  /-- Every slot written holds its round's value. -/
  slots : ∀ i, 2 * i < n →
    Memory.slice m (g.slotAddr (s.addRound q value i).off) 4 =
      put32 s.params.storeEndian (s.addRound q value i).value
  /-- The stored header is that of the last round whose header was written, before the first such round the one
  that was there; a torn header write puts its bytes in front of the rest of it. -/
  header :
    let whole := if n < 2 then Memory.slice s.storage g.hdrAddr 14
      else (s.addRound q value (n / 2 - 1)).image s.params
    let front := if n % 2 = 1 then torn.take 14 else []
    Memory.slice m g.hdrAddr 14 = front ++ whole.drop front.length
  /-- Every byte outside the header and the slots of the rounds begun stays: all other slots, the rest of the
  region, and everything outside it. -/
  frame : ∀ a, (a < g.hdrAddr ∨ g.hdrAddr + 14 ≤ a) →
    (∀ i, 2 * i ≤ n →
      a < g.slotAddr (s.addRound q value i).off ∨ g.slotAddr (s.addRound q value i).off + 4 ≤ a) →
    Memory.read m a = Memory.read s.storage a

/-! ### The tables of the spec -/

/-- The statuses that the table of R251 lists for an instruction, `Ok` among them; for a byte format those of the
commands it stands for. -/
def mayAnswer : Instr → List Status
  | .regRd _ => [.ok, .badCommand]
  | .regWr _ _ => [.ok, .badCommand]
  | .crcInit _ => [.ok, .badCommand]
  | .crcUpd _ => [.ok]
  | .fbClr => [.ok]
  | .fbPush _ => [.ok, .bufferTooSmall]
  | .fbRd _ => [.ok, .badCommand]
  | .rxParse => [.ok, .invalidLength, .invalidSlaveAddress, .invalidCrc, .exception]
  | .txBegin _ _ => [.ok]
  | .txSeal => [.ok, .bufferTooSmall]
  | .txExc _ _ _ => [.ok]
  | .hbWr _ _ => [.ok, .badCommand]
  | .hbRd _ => [.ok, .badCommand]
  | .hdrLoad => [.ok, .uninitialized]
  | .hdrSeal => [.ok, .uninitialized]
  | .hdrReset => [.ok, .uninitialized]
  | .hdrStart _ => [.ok, .uninitialized, .badCommand]
  | .hdrAdv => [.ok, .uninitialized, .overflow]
  | .hdrRet => [.ok, .uninitialized, .noRecords, .overflow]
  | .hdrTfirst => [.ok, .uninitialized, .noRecords, .overflow]
  | .hdrTlast => [.ok, .uninitialized, .noRecords]
  | .hdrFind _ => [.ok, .uninitialized, .notFound]
  | .sysReset => [.ok]
  | .reqReadHolding _ _ _ _ _ => [.ok, .invalidSlaveAddress, .invalidCrc]
  | .reqReadInput _ _ _ _ _ => [.ok, .invalidSlaveAddress, .invalidCrc]
  | .reqWriteSingle _ _ _ _ _ => [.ok, .invalidSlaveAddress, .invalidCrc]
  | .reqWriteMultiple _ _ _ _ _ _ _ =>
    [.ok, .bufferTooSmall, .invalidLength, .invalidSlaveAddress, .invalidCrc]
  | .respNormal _ _ _ _ _ => [.ok, .bufferTooSmall]
  | .respException _ _ _ _ _ => [.ok]
  | .headerImage _ _ _ _ => [.ok]

/-- Whether the result of an instruction that ends `Ok` carries a value (R85). -/
def carriesValue : Instr → Bool
  | .regRd _ => true
  | .fbRd _ => true
  | .hbRd _ => true
  | .hdrTfirst => true
  | .hdrTlast => true
  | .hdrFind _ => true
  | .regWr _ _ => false
  | .crcInit _ => false
  | .crcUpd _ => false
  | .fbClr => false
  | .fbPush _ => false
  | .rxParse => false
  | .txBegin _ _ => false
  | .txSeal => false
  | .txExc _ _ _ => false
  | .hbWr _ _ => false
  | .hdrLoad => false
  | .hdrSeal => false
  | .hdrReset => false
  | .hdrStart _ => false
  | .hdrAdv => false
  | .hdrRet => false
  | .sysReset => false
  | .reqReadHolding _ _ _ _ _ => false
  | .reqReadInput _ _ _ _ _ => false
  | .reqWriteSingle _ _ _ _ _ => false
  | .reqWriteMultiple _ _ _ _ _ _ _ => false
  | .respNormal _ _ _ _ _ => false
  | .respException _ _ _ _ _ => false
  | .headerImage _ _ _ _ => false

/-- Whether a byte string is a frame whose last two bytes are the CRC-16/MODBUS of the bytes before them, the low
byte first (R90). -/
def sealedFrame (f : List Byte) : Bool :=
  decide (2 ≤ f.length) &&
    decide (f.drop (f.length - 2) = crcBytes (crc16 .modbus (f.take (f.length - 2))))

/-- Whether a received frame passes the parser's checks other than the function code: length, slave address, CRC,
and the byte count of a 0x10 request (R133, R138). -/
def passesChecks (s : State) (f : List Byte) : Bool :=
  decide (8 ≤ f.length) && (decide (f.headD 0 = s.slaveAddr) || decide (f.headD 0 = 0)) && sealedFrame f &&
    (decide (f.getD 1 0 ≠ 0x10) || decide (f.length = 9 + (f.getD 6 0).toNat))

/-- The CRC of a record's page, and the record with it (R205). -/
def ConfigRecord.withCrc (p : Config.Params) (r : ConfigRecord) : ConfigRecord :=
  { r with crc := pageCrc (r.page p) }

/-- The page of the primary copy in storage (R70). -/
def State.primary (s : State) : List Byte := Memory.slice s.storage 0 1024

/-- The page of the secondary copy in storage (R70). -/
def State.secondary (s : State) : List Byte := Memory.slice s.storage 1024 1024

end Sys2Proof.Machine
end

