-- ==== Sys2Proof/WellFormed.lean ====
section
/-! DEFINITION. Which instructions are ones the encoding tables can write. Every value of a command's
operand fields is a command (R83; an operand that the command's own rule rejects is answered
`BadCommand` by that rule, R105), so only the byte formats carry checks. -/

namespace Sys2Proof

/-- The well-formed instructions:
a 0x10 request carries as many payload bytes as its byte count says (R94);
a normal response's data fit the frame buffer with head and CRC (R153: it succeeds for `n ≤ 252`), and
its last two bytes are the CRC of the bytes before them (R90);
an exception response's last two bytes are the CRC of the three before them (R96). -/
def Instr.wellFormed : Instr → Bool
  | .regRd _ => true
  | .regWr _ _ => true
  | .crcInit _ => true
  | .crcUpd _ => true
  | .fbClr => true
  | .fbPush _ => true
  | .fbRd _ => true
  | .rxParse => true
  | .txBegin _ _ => true
  | .txSeal => true
  | .txExc _ _ _ => true
  | .hbWr _ _ => true
  | .hbRd _ => true
  | .hdrLoad => true
  | .hdrSeal => true
  | .hdrReset => true
  | .hdrStart _ => true
  | .hdrAdv => true
  | .hdrRet => true
  | .hdrTfirst => true
  | .hdrTlast => true
  | .hdrFind _ => true
  | .sysReset => true
  | .reqReadHolding _ _ _ _ _ => true
  | .reqReadInput _ _ _ _ _ => true
  | .reqWriteSingle _ _ _ _ _ => true
  | .reqWriteMultiple _ _ _ count payload _ _ => decide (payload.length = count.toNat)
  | .respNormal slave func data crcLo crcHi =>
    decide (data.length ≤ 252) &&
      decide ([crcLo, crcHi] = Machine.crcBytes (Machine.crc16 .modbus (slave :: func :: data)))
  | .respException slave func code crcLo crcHi =>
    decide ([crcLo, crcHi] = Machine.crcBytes (Machine.crc16 .modbus [slave, 1#1 ++ func, code]))
  | .headerImage _ _ _ _ => true

end Sys2Proof
end

