-- ==== Sys2Proof/Certificates/Slice0/Obligations.lean ====
section
/-! DEFINITION. The statements for the provers, one per obligation: each says what a rule of spec/ says of the
machine. OBLIGATIONS.json lists them with their rules. -/

section

open Sys2Proof Sys2Proof.Machine

/-! ### Reset, steps and encodings -/

/-- R40, R230, R280, derived: the table of reset values holds of `State.reset`, after `SYS.RESET` from every state, and
after power comes back; the storage and the parameters are no state of the block and stay (R38, R281). That what the
host presents next and the outcomes of the coming storage accesses outlast a power cycle is the model's choice: log
entry 12. -/
def Obligations.ResetRestoresEveryValue : Prop :=
  State.reset.HasResetValues ∧
    decode (.command 0xFF000000#32 0) = .ok .sysReset ∧
    (∀ s : State, ∃ t, exec .sysReset s = .next t ∧ t.HasResetValues ∧ t.resp = some ⟨.ok, 0⟩ ∧
      t.pending = s.pending ∧ t.storage = s.storage ∧ t.io = s.io ∧ t.params = s.params) ∧
    (∀ (s : State) (rest : List Input), s.pending = .powerCycle :: rest →
      ∃ t, step s = .next t ∧ t.HasResetValues ∧
        t.pending = rest ∧ t.storage = s.storage ∧ t.io = s.io ∧ t.params = s.params)

/-- R80, R74, derived: a step takes the first item presented and executes the instruction it decodes to; with nothing
presented the state stays. The list of presented items, and that a step without one changes nothing, are the model's
choice: log entry 1 (R20: "between commands the state does not change"). -/
def Obligations.StepRunsTheDecodedInstruction : Prop :=
  (∀ (s : State) (x : Input) (rest : List Input) (i : Instr),
      s.pending = x :: rest → decode x = .ok i → step s = exec i { s with pending := rest }) ∧
    (∀ s : State, s.pending = [] → step s = .next s)

/-- R105: a command word that fits no row of the opcode table decodes to nothing and is answered `BadCommand`
with result 0, no state changed; and so is a command that its own rule rejects. -/
def Obligations.ReservedCommandsAreRefused : Prop :=
  (∀ cw arg : Word32, (∃ i, decode (.command cw arg) = .ok i) ↔ ∃ r ∈ commandTable, r.fits cw arg = true) ∧
    (∀ (s : State) (cw arg : Word32) (rest : List Input), s.pending = .command cw arg :: rest →
      (∀ r ∈ commandTable, r.fits cw arg = false) →
      step s = .next { s with pending := rest, resp := some ⟨.badCommand, 0⟩ }) ∧
    (∀ (i : Instr) (s t : State) (v : Word32), isCommand i = true → exec i s = .next t →
      t.resp = some ⟨.badCommand, v⟩ → t = { s with resp := some ⟨.badCommand, 0⟩ })

/-- Decoding what a well-formed instruction encodes to gives the instruction back, for all thirty rows. -/
def Obligations.DecodeOfEncodeGivesTheInstruction : Prop :=
  ∀ i : Instr, i.wellFormed = true → decode (encode i) = .ok i

/-- An input that decodes to an instruction is that instruction's encoding: no two inputs stand for one
instruction, and no bit of an input is ignored. -/
def Obligations.EncodeOfDecodeGivesTheInput : Prop :=
  ∀ (x : Input) (i : Instr), decode x = .ok i → encode i = x

/-- Words written out in the spec's rules and examples decode to the instructions they stand for. -/
def Obligations.WordsOfTheSpecDecode : Prop :=
  decode (.command 0x01000008#32 0) = .ok (.regRd 0x08) ∧
    decode (.command 0x02000002#32 1) = .ok (.regWr 0x02 1) ∧
    decode (.command 0x0200000A#32 0x870) = .ok (.regWr 0x0A 2160) ∧
    decode (.command 0x10000001#32 0) = .ok (.crcInit 1) ∧
    decode (.command 0x28010300#32 0) = .ok (.txBegin 0x01 0x03) ∧
    decode (.command 0x2A010302#32 0) = .ok (.txExc 0x01 0x03 0x02) ∧
    decode (.command 0x30000CB6#32 0) = .ok (.hbWr 12 0xB6) ∧
    decode (.command 0x35000000#32 0x6553F14D) = .ok (.hdrStart 1700000077) ∧
    decode (.command 0x3A000000#32 0x6553FF5D) = .ok (.hdrFind 1700003677) ∧
    decode (.command 0#32 0#32) = .error (.reservedOpcode 0) ∧
    decode (.request [0x01, 0x03, 0x00, 0x00, 0x00, 0x0A, 0xC5, 0xCD]) =
      .ok (.reqReadHolding 0x01 0 10 0xC5 0xCD) ∧
    decode (.request [0x01, 0x10, 0x00, 0x01, 0x00, 0x02, 0x04, 0x00, 0x0A, 0x01, 0x02, 0x92, 0x30]) =
      .ok (.reqWriteMultiple 0x01 1 2 4 [0x00, 0x0A, 0x01, 0x02] 0x92 0x30) ∧
    decode (.exceptionResponse [0x01, 0x83, 0x02, 0xC0, 0xF1]) = .ok (.respException 0x01 0x03 0x02 0xC0 0xF1)

/-! ### System commands -/

/-- R231: `REG.RD` answers the register zero-extended, for each of the seventeen, and `BadCommand` for a
reserved number; nothing else changes. -/
def Obligations.RegRdAnswersTheRegister : Prop :=
  (∀ r : Byte, decode (.command (0x01000000#32 ||| r.setWidth 32) 0) = .ok (.regRd r)) ∧
    (∀ (s : State) (r : Byte) (v : Word32),
      (r, v) ∈ [(0x00#8, s.crc.setWidth 32), (0x01#8, s.crcAlg.setWidth 32),
        (0x02#8, s.slaveAddr.setWidth 32), (0x03#8, s.fbLen.setWidth 32), (0x04#8, s.rKind.setWidth 32),
        (0x05#8, s.rSlave.setWidth 32), (0x06#8, s.rFunc.setWidth 32), (0x07#8, s.rAddr.setWidth 32),
        (0x08#8, s.rQty.setWidth 32), (0x09#8, s.rBc.setWidth 32), (0x0A#8, s.capacity),
        (0x0B#8, s.elementSize), (0x0C#8, s.hSize), (0x0D#8, s.hOff), (0x0E#8, s.hTime),
        (0x0F#8, s.hCrc.setWidth 32),
        (0x10#8, BitVec.ofNat 32 ((if s.loaded then 1 else 0) + (if s.crcOk then 2 else 0) +
          (if s.capacity ≠ 0 ∧ s.hOff.toNat < s.capacity.toNat ∧ s.hSize.toNat ≤ s.capacity.toNat
            then 4 else 0)))] →
      exec (.regRd r) s = .next { s with resp := some ⟨.ok, v⟩ }) ∧
    (∀ (s : State) (r : Byte), 0x10 < r.toNat →
      exec (.regRd r) s = .next { s with resp := some ⟨.badCommand, 0⟩ })

/-- R232: `REG.WR` writes `SLAVE_ADDR` if the value fits, `CAPACITY` and `ELEMENT_SIZE` with `LOADED` and `CRC_OK`
cleared; any other register is `BadCommand`. -/
def Obligations.RegWrWritesThreeRegisters : Prop :=
  (∀ (r : Byte) (v : Word32), decode (.command (0x02000000#32 ||| r.setWidth 32) v) = .ok (.regWr r v)) ∧
    (∀ (s : State) (v : Word32),
      (v.toNat ≤ 0xFF →
        exec (.regWr 0x02 v) s =
          .next { s with slaveAddr := BitVec.ofNat 8 v.toNat, resp := some ⟨.ok, 0⟩ }) ∧
      (0xFF < v.toNat → exec (.regWr 0x02 v) s = .next { s with resp := some ⟨.badCommand, 0⟩ }) ∧
      exec (.regWr 0x0A v) s =
        .next { s with capacity := v, loaded := false, crcOk := false, resp := some ⟨.ok, 0⟩ } ∧
      exec (.regWr 0x0B v) s =
        .next { s with elementSize := v, loaded := false, crcOk := false, resp := some ⟨.ok, 0⟩ }) ∧
    (∀ (s : State) (r : Byte) (v : Word32), r ≠ 0x02 → r ≠ 0x0A → r ≠ 0x0B →
      exec (.regWr r v) s = .next { s with resp := some ⟨.badCommand, 0⟩ })

/-! ### CRC unit -/

/-- R116: `CRC.INIT` selects the algorithm and restarts the checksum; a code above 1 is `BadCommand`. -/
def Obligations.CrcInitRestartsTheChecksum : Prop :=
  (∀ alg : Byte, decode (.command (0x10000000#32 ||| alg.setWidth 32) 0) = .ok (.crcInit alg)) ∧
    (∀ (s : State) (alg : Byte),
      (alg.toNat ≤ 1 →
        exec (.crcInit alg) s =
          .next { s with crcAlg := BitVec.ofNat 1 alg.toNat, crc := 0xFFFF, resp := some ⟨.ok, 0⟩ }) ∧
      (1 < alg.toNat → exec (.crcInit alg) s = .next { s with resp := some ⟨.badCommand, 0⟩ }))

/-- R117: `CRC.UPD` applies one step of the selected algorithm to `CRC`. -/
def Obligations.CrcUpdStepsTheChecksum : Prop :=
  (∀ b : Byte, decode (.command (0x11000000#32 ||| b.setWidth 32) 0) = .ok (.crcUpd b)) ∧
    (∀ (s : State) (b : Byte),
      exec (.crcUpd b) s =
        .next { s with
          crc := if s.crcAlg = 0 then ccittStep s.crc b else modbusStep s.crc b, resp := some ⟨.ok, 0⟩ }) ∧
    modbusStep 0xFFFF 0x00 = 0x40BF ∧ ccittStep 0xFFFF 0x00 = 0xE1F0 ∧
    [1, 2, 3, 4, 5, 6].map (fun n => crc16 .modbus ([0x01, 0x03, 0x00, 0x00, 0x00, 0x0A].take n)) =
      [0x807E, 0x2140, 0xF020, 0xD8F1, 0x8419, 0xCDC5]

/-- R118, derived: whatever commands run between a `CRC.INIT` or a `SYS.RESET` and the next one, `CRC` is the
checksum that their `CRC.UPD` bytes give: the frame and header units do not disturb it. -/
def Obligations.OtherUnitsDoNotDisturbTheChecksum : Prop :=
  ∀ (is : List Instr) (s t : State), (∀ i ∈ is, i ≠ .sysReset ∧ ∀ alg, i ≠ .crcInit alg) →
    execAll is s = .next t →
    t.crcAlg = s.crcAlg ∧ t.crc = crcFrom (algOfBit s.crcAlg) s.crc (updBytes is)

/-- R119, derived: a message followed by its own checksum in the right byte order checks to 0, for both
algorithms. -/
def Obligations.MessageWithItsChecksumChecksToZero : Prop :=
  (∀ bs : List Byte,
      crc16 .modbus (bs ++ [BitVec.ofNat 8 (crc16 .modbus bs).toNat,
        BitVec.ofNat 8 ((crc16 .modbus bs).toNat / 256)]) = 0) ∧
    (∀ bs : List Byte,
      crc16 .ccittFalse (bs ++ [BitVec.ofNat 8 ((crc16 .ccittFalse bs).toNat / 256),
        BitVec.ofNat 8 (crc16 .ccittFalse bs).toNat]) = 0)

/-! ### Frame unit, receive side -/

/-- R130: `FB.CLR` clears the length and `R_KIND` and leaves the bytes. -/
def Obligations.FbClrClearsTheLength : Prop :=
  decode (.command 0x20000000#32 0) = .ok .fbClr ∧
    ∀ s : State, exec .fbClr s = .next { s with fbLen := 0, rKind := 0, resp := some ⟨.ok, 0⟩ }

/-- R131: `FB.PUSH` stores one byte at `FB_LEN`; on a full buffer it is `BufferTooSmall` and nothing changes. -/
def Obligations.FbPushAppendsOneByte : Prop :=
  (∀ b : Byte, decode (.command (0x21000000#32 ||| b.setWidth 32) 0) = .ok (.fbPush b)) ∧
    (∀ (s : State) (b : Byte), s.fbLen = 256 →
      exec (.fbPush b) s = .next { s with resp := some ⟨.bufferTooSmall, 0⟩ }) ∧
    (∀ (s : State) (b : Byte), s.wf = true → s.fbLen.toNat < 256 →
      ∃ m, exec (.fbPush b) s =
          .next { s with
            fb := m, fbLen := BitVec.ofNat 9 (s.fbLen.toNat + 1), rKind := 0, resp := some ⟨.ok, 0⟩ } ∧
        ∀ a, Memory.read m a = if a = s.fbLen.toNat then b else Memory.read s.fb a)

/-- R132: `FB.RD` answers the byte at an index below `FB_LEN`; any other index is `BadCommand`. -/
def Obligations.FbRdAnswersTheByte : Prop :=
  (∀ i : Byte, decode (.command (0x22000000#32 ||| i.setWidth 32) 0) = .ok (.fbRd i)) ∧
    (∀ (s : State) (i : Byte),
      (s.fbLen.toNat ≤ i.toNat → exec (.fbRd i) s = .next { s with resp := some ⟨.badCommand, 0⟩ }) ∧
      (i.toNat < s.fbLen.toNat →
        exec (.fbRd i) s = .next { s with resp := some ⟨.ok, (Memory.read s.fb i.toNat).setWidth 32⟩ }))

/-- R134: `RX.PARSE`, its checks in their order, and what each outcome writes. -/
def Obligations.RxParseDecodesTheRequest : Prop :=
  decode (.command 0x23000000#32 0) = .ok .rxParse ∧
    ∀ s : State, s.fbLen.toNat ≤ 256 →
      let len := s.fbLen.toNat
      let f := fun i => Memory.read s.fb i
      let k := (crc16 .modbus (Memory.slice s.fb 0 (len - 2))).toNat
      let field := fun i => BitVec.ofNat 16 (256 * (f i).toNat + (f (i + 1)).toNat)
      let accepted := fun (kind : BitVec 3) (count : Byte) =>
        { s with
          rSlave := f 0, rFunc := f 1, rAddr := field 2, rQty := field 4, rBc := count, rKind := kind,
          resp := some ⟨.ok, 0⟩ }
      exec .rxParse s = .next (
        if len < 8 then { s with rKind := 0, resp := some ⟨.invalidLength, 0⟩ }
        else if f 0 ≠ s.slaveAddr ∧ f 0 ≠ 0 then { s with rKind := 0, resp := some ⟨.invalidSlaveAddress, 0⟩ }
        else if f (len - 2) ≠ BitVec.ofNat 8 k ∨ f (len - 1) ≠ BitVec.ofNat 8 (k / 256) then
          { s with rKind := 0, resp := some ⟨.invalidCrc, 0⟩ }
        else if f 1 = 0x03 then accepted 1 0
        else if f 1 = 0x04 then accepted 2 0
        else if f 1 = 0x06 then accepted 3 0
        else if f 1 = 0x10 then
          if len = 9 + (f 6).toNat then accepted 4 (f 6)
          else { s with rSlave := f 0, rFunc := f 1, rKind := 0, resp := some ⟨.invalidLength, 0⟩ }
        else { s with rSlave := f 0, rFunc := f 1, rKind := 0, resp := some ⟨.exception, 1⟩ })

/-- The model's choice (log entry 20): in a state that no run reaches, with `FB_LEN` above 256, `FB.PUSH` and
`RX.PARSE` stop by name instead of reaching an index that `fb` does not have. -/
def Obligations.FramesBeyondTheBufferStop : Prop :=
  ∀ s : State, 256 < s.fbLen.toNat →
    exec .rxParse s = .fault (.noSuchFrameByte 256) ∧
      ∀ b, exec (.fbPush b) s = .fault (.noSuchFrameByte s.fbLen.toNat)

/-! ### Frame unit, transmit side -/

/-- R150: `TX.BEGIN` starts a frame with its two head bytes. -/
def Obligations.TxBeginStartsTheFrame : Prop :=
  (∀ slave func : Byte,
      decode (.command (0x28000000#32 ||| slave.setWidth 32 <<< 16 ||| func.setWidth 32 <<< 8) 0) =
        .ok (.txBegin slave func)) ∧
    (∀ (s : State) (slave func : Byte), s.wf = true →
      ∃ m, exec (.txBegin slave func) s =
          .next { s with fb := m, fbLen := 2, rKind := 0, resp := some ⟨.ok, 0⟩ } ∧
        ∀ a, Memory.read m a = if a = 0 then slave else if a = 1 then func else Memory.read s.fb a)

/-- R151: `TX.SEAL` appends the CRC-16/MODBUS of the frame, the low byte first; where the two bytes do not fit it
is `BufferTooSmall` and nothing changes. -/
def Obligations.TxSealAppendsTheChecksum : Prop :=
  decode (.command 0x29000000#32 0) = .ok .txSeal ∧
    (∀ s : State, 255 ≤ s.fbLen.toNat →
      exec .txSeal s = .next { s with resp := some ⟨.bufferTooSmall, 0⟩ }) ∧
    (∀ s : State, s.wf = true → s.fbLen.toNat ≤ 254 →
      let len := s.fbLen.toNat
      let k := (crc16 .modbus (Memory.slice s.fb 0 len)).toNat
      ∃ m, exec .txSeal s =
          .next { s with fb := m, fbLen := BitVec.ofNat 9 (len + 2), rKind := 0, resp := some ⟨.ok, 0⟩ } ∧
        ∀ a, Memory.read m a =
          if a = len then BitVec.ofNat 8 k
          else if a = len + 1 then BitVec.ofNat 8 (k / 256) else Memory.read s.fb a)

/-- R152: `TX.EXC` builds the five bytes of an exception response. -/
def Obligations.TxExcBuildsTheExceptionFrame : Prop :=
  (∀ slave func code : Byte,
      decode (.command
        (0x2A000000#32 ||| slave.setWidth 32 <<< 16 ||| func.setWidth 32 <<< 8 ||| code.setWidth 32) 0) =
        .ok (.txExc slave func code)) ∧
    (∀ (s : State) (slave func code : Byte), s.wf = true →
      let k := (crc16 .modbus [slave, func ||| 0x80, code]).toNat
      ∃ m, exec (.txExc slave func code) s =
          .next { s with fb := m, fbLen := 5, rKind := 0, resp := some ⟨.ok, 0⟩ } ∧
        Memory.slice m 0 5 =
          [slave, func ||| 0x80, code, BitVec.ofNat 8 k, BitVec.ofNat 8 (k / 256)] ∧
        ∀ a, 5 ≤ a → Memory.read m a = Memory.read s.fb a) ∧
    crc16 .modbus [0x01, 0x83, 0x02] = 0xF1C0

/-! ### Header unit: the image -/

/-- R165: `HB.WR` stores one byte of the image; an index of 14 or more is `BadCommand`. -/
def Obligations.HbWrStoresOneByte : Prop :=
  (∀ i b : Byte,
      decode (.command (0x30000000#32 ||| i.setWidth 32 <<< 8 ||| b.setWidth 32) 0) = .ok (.hbWr i b)) ∧
    (∀ (s : State) (i b : Byte), 14 ≤ i.toNat →
      exec (.hbWr i b) s = .next { s with resp := some ⟨.badCommand, 0⟩ }) ∧
    (∀ (s : State) (i b : Byte), s.wf = true → i.toNat < 14 →
      ∃ m, exec (.hbWr i b) s = .next { s with hb := m, resp := some ⟨.ok, 0⟩ } ∧
        ∀ a, Memory.read m a = if a = i.toNat then b else Memory.read s.hb a)

/-- R166: `HB.RD` answers one byte of the image; an index of 14 or more is `BadCommand`. -/
def Obligations.HbRdAnswersTheByte : Prop :=
  (∀ i : Byte, decode (.command (0x31000000#32 ||| i.setWidth 32) 0) = .ok (.hbRd i)) ∧
    (∀ (s : State) (i : Byte),
      (14 ≤ i.toNat → exec (.hbRd i) s = .next { s with resp := some ⟨.badCommand, 0⟩ }) ∧
      (i.toNat < 14 →
        exec (.hbRd i) s = .next { s with resp := some ⟨.ok, (Memory.read s.hb i.toNat).setWidth 32⟩ }))

/-- R167: the encoded image is always 14 bytes, always passes the check, and decodes to the fields it was made
of, in either byte order and with either algorithm. -/
def Obligations.HeaderImageRoundTrip : Prop :=
  ∀ (p : Config.Params) (size off time : Word32),
    (hdrEncode p size off time).length = 14 ∧
      hdrCrc p (hdrEncode p size off time) = (hdrDecode p (hdrEncode p size off time)).crc ∧
      hdrDecode p (hdrEncode p size off time) =
        ⟨size, off, time, hdrCrc p (hdrEncode p size off time)⟩

/-- R170: `HDR.LOAD` takes the fields of an image whose CRC matches, and the empty instance from any other;
`Uninitialized` when not configured. -/
def Obligations.HdrLoadValidatesTheImage : Prop :=
  decode (.command 0x32000000#32 0) = .ok .hdrLoad ∧
    (∀ s : State,
      let img := Memory.slice s.hb 0 14
      let f := hdrDecode s.params img
      exec .hdrLoad s = .next (
        if s.capacity = 0 ∨ s.elementSize = 0 then { s with resp := some ⟨.uninitialized, 0⟩ }
        else if crc16 s.params.hdrCrcAlg (img.take 12) = f.crc then
          { s with
            hSize := f.size, hOff := f.off, hTime := f.time, hCrc := f.crc, loaded := true, crcOk := true,
            resp := some ⟨.ok, 0⟩ }
        else
          { s with
            hSize := 0, hOff := 0, hTime := 0, hCrc := f.crc, loaded := true, crcOk := false,
            resp := some ⟨.ok, 0⟩ })) ∧
    crc16 .ccittFalse (List.replicate 12 0x00) = 0x84F9 ∧ crc16 .modbus (List.replicate 12 0x00) = 0x0264 ∧
    crc16 .ccittFalse (List.replicate 12 0xFF) = 0x47D8 ∧ crc16 .modbus (List.replicate 12 0xFF) = 0x8331 ∧
    hdrDecode {} [0x03, 0, 0, 0, 0x02, 0, 0, 0, 0x48, 0x0D, 0x54, 0x65, 0xB6, 0x59] =
      ⟨3, 2, 1700007240, 0x59B6⟩ ∧
    crc16 .ccittFalse [0x03, 0, 0, 0, 0x02, 0, 0, 0, 0x48, 0x0D, 0x54, 0x65] = 0x59B6

/-- R173: `HDR.SEAL` writes the image of the header registers to `hb` and its CRC to `H_CRC`; `Uninitialized` when
not configured or not loaded. -/
def Obligations.HdrSealWritesTheImage : Prop :=
  decode (.command 0x33000000#32 0) = .ok .hdrSeal ∧
    (∀ s : State, s.notReady → exec .hdrSeal s = .next { s with resp := some ⟨.uninitialized, 0⟩ }) ∧
    (∀ s : State, s.wf = true → ¬ s.notReady →
      let e := s.params.storeEndian
      let body := put32 e s.hSize ++ put32 e s.hOff ++ put32 e s.hTime
      let k := crc16 s.params.hdrCrcAlg body
      ∃ m, exec .hdrSeal s = .next { s with hb := m, hCrc := k, resp := some ⟨.ok, 0⟩ } ∧
        Memory.slice m 0 14 = body ++ put16 e k ∧
        ∀ a, 14 ≤ a → Memory.read m a = Memory.read s.hb a) ∧
    hdrEncode {} 0 0 0 = [0, 0, 0, 0, 0, 0, 0, 0, 0, 0, 0, 0, 0xF9, 0x84] ∧
    hdrEncode {} 1 0 1700000040 = [0x01, 0, 0, 0, 0, 0, 0, 0, 0x28, 0xF1, 0x53, 0x65, 0x8C, 0x86]

/-! ### Header unit: the arithmetic -/

/-- R174: `HDR.RESET` gives the empty instance and sets `LOADED`; `CRC_OK`, `H_CRC` and `hb` stay. -/
def Obligations.HdrResetGivesTheEmptyInstance : Prop :=
  decode (.command 0x34000000#32 0) = .ok .hdrReset ∧
    ∀ s : State, exec .hdrReset s = .next (
      if s.capacity = 0 ∨ s.elementSize = 0 then { s with resp := some ⟨.uninitialized, 0⟩ }
      else { s with hSize := 0, hOff := 0, hTime := 0, loaded := true, resp := some ⟨.ok, 0⟩ })

/-- R175: `HDR.START` makes the first entry of an empty header, its time rounded down to a minute. -/
def Obligations.HdrStartMakesTheFirstEntry : Prop :=
  (∀ t : Word32, decode (.command 0x35000000#32 t) = .ok (.hdrStart t)) ∧
    (∀ (s : State) (t : Word32),
      (s.notReady → exec (.hdrStart t) s = .next { s with resp := some ⟨.uninitialized, 0⟩ }) ∧
      (¬ s.notReady → s.hSize ≠ 0 → exec (.hdrStart t) s = .next { s with resp := some ⟨.badCommand, 0⟩ }) ∧
      (¬ s.notReady → s.hSize = 0 →
        exec (.hdrStart t) s =
          .next { s with
            hSize := 1, hOff := 0, hTime := BitVec.ofNat 32 (t.toNat - t.toNat % 60),
            resp := some ⟨.ok, 0⟩ }))

/-- R176: `HDR.ADV` moves one bucket forward: the offset modulo the capacity, the size up to the capacity, the time
by one element; `Overflow` and nothing changed when the time leaves 32 bits. -/
def Obligations.HdrAdvMovesOneBucketForward : Prop :=
  decode (.command 0x36000000#32 0) = .ok .hdrAdv ∧
    ∀ s : State,
      (s.notReady → exec .hdrAdv s = .next { s with resp := some ⟨.uninitialized, 0⟩ }) ∧
      (¬ s.notReady → 0xFFFFFFFF < s.hTime.toNat + s.elementSize.toNat →
        exec .hdrAdv s = .next { s with resp := some ⟨.overflow, 0⟩ }) ∧
      (¬ s.notReady → s.hTime.toNat + s.elementSize.toNat ≤ 0xFFFFFFFF →
        ∃ t, exec .hdrAdv s = .next t ∧
          t = { s with hSize := t.hSize, hOff := t.hOff, hTime := t.hTime, resp := some ⟨.ok, 0⟩ } ∧
          t.hOff.toNat = (s.hOff.toNat + 1) % s.capacity.toNat ∧
          t.hSize.toNat = min (s.hSize.toNat + 1) s.capacity.toNat ∧
          t.hTime.toNat = s.hTime.toNat + s.elementSize.toNat)

/-- R177: `HDR.RET` drops the newest bucket: the offset one back with wrap, the size and the time down; `NoRecords`
with fewer than two buckets, `Overflow` below time 0. -/
def Obligations.HdrRetDropsTheNewestBucket : Prop :=
  decode (.command 0x37000000#32 0) = .ok .hdrRet ∧
    ∀ s : State,
      (s.notReady → exec .hdrRet s = .next { s with resp := some ⟨.uninitialized, 0⟩ }) ∧
      (¬ s.notReady → s.hSize.toNat < 2 → exec .hdrRet s = .next { s with resp := some ⟨.noRecords, 0⟩ }) ∧
      (¬ s.notReady → 2 ≤ s.hSize.toNat → s.hTime.toNat < s.elementSize.toNat →
        exec .hdrRet s = .next { s with resp := some ⟨.overflow, 0⟩ }) ∧
      (¬ s.notReady → 2 ≤ s.hSize.toNat → s.elementSize.toNat ≤ s.hTime.toNat →
        ∃ t, exec .hdrRet s = .next t ∧
          t = { s with hSize := t.hSize, hOff := t.hOff, hTime := t.hTime, resp := some ⟨.ok, 0⟩ } ∧
          t.hOff.toNat = (s.hOff.toNat + s.capacity.toNat - 1) % s.capacity.toNat ∧
          t.hSize.toNat = s.hSize.toNat - 1 ∧
          t.hTime.toNat = s.hTime.toNat - s.elementSize.toNat)

/-- R178: `HDR.TFIRST` answers the time of the oldest bucket, computed over the integers. -/
def Obligations.HdrTfirstAnswersTheOldestTime : Prop :=
  decode (.command 0x38000000#32 0) = .ok .hdrTfirst ∧
    ∀ s : State,
      let t : Int := (s.hTime.toNat : Int) - (s.elementSize.toNat : Int) * ((s.hSize.toNat : Int) - 1)
      (s.notReady → exec .hdrTfirst s = .next { s with resp := some ⟨.uninitialized, 0⟩ }) ∧
      (¬ s.notReady → s.hSize = 0 → exec .hdrTfirst s = .next { s with resp := some ⟨.noRecords, 0⟩ }) ∧
      (¬ s.notReady → s.hSize ≠ 0 → t < 0 → exec .hdrTfirst s = .next { s with resp := some ⟨.overflow, 0⟩ }) ∧
      (¬ s.notReady → s.hSize ≠ 0 → 0 ≤ t →
        ∃ v : Word32, exec .hdrTfirst s = .next { s with resp := some ⟨.ok, v⟩ } ∧ (v.toNat : Int) = t)

/-- R179: `HDR.TLAST` answers the time of the newest bucket. -/
def Obligations.HdrTlastAnswersTheNewestTime : Prop :=
  decode (.command 0x39000000#32 0) = .ok .hdrTlast ∧
    ∀ s : State,
      (s.notReady → exec .hdrTlast s = .next { s with resp := some ⟨.uninitialized, 0⟩ }) ∧
      (¬ s.notReady → s.hSize = 0 → exec .hdrTlast s = .next { s with resp := some ⟨.noRecords, 0⟩ }) ∧
      (¬ s.notReady → s.hSize ≠ 0 → exec .hdrTlast s = .next { s with resp := some ⟨.ok, s.hTime⟩ })

/-- R180: `HDR.FIND` answers the slot of the held bucket whose time is the rounded one, and `NotFound` when no held
bucket has it. -/
def Obligations.HdrFindAnswersTheSlot : Prop :=
  (∀ t : Word32, decode (.command 0x3A000000#32 t) = .ok (.hdrFind t)) ∧
    (∀ (s : State) (t : Word32),
      let q : Int := ((t.toNat - t.toNat % 60 : Nat) : Int)
      let time : Nat → Int := fun j => (s.hTime.toNat : Int) - (s.elementSize.toNat : Int) * (j : Int)
      (s.notReady → exec (.hdrFind t) s = .next { s with resp := some ⟨.uninitialized, 0⟩ }) ∧
      (¬ s.notReady → ∀ j, j < s.hSize.toNat → time j = q →
        ∃ v : Word32, exec (.hdrFind t) s = .next { s with resp := some ⟨.ok, v⟩ } ∧
          (v.toNat : Int) = ((s.hOff.toNat : Int) - (j : Int)) % (s.capacity.toNat : Int)) ∧
      (¬ s.notReady → (∀ j, j < s.hSize.toNat → time j ≠ q) →
        exec (.hdrFind t) s = .next { s with resp := some ⟨.notFound, 0⟩ }))

/-- R183, derived: `HDR.RESET` and `HDR.START` establish the range invariant, `HDR.ADV` and `HDR.RET` keep it; the
first timestamp stays, but for an advance of a full ring, which moves it by one element. -/
def Obligations.HeaderCommandsKeepTheRange : Prop :=
  ∀ (i : Instr) (s t : State) (v : Word32), exec i s = .next t → t.resp = some ⟨.ok, v⟩ →
    ((i = .hdrReset ∨ ∃ time, i = .hdrStart time) →
      t.hOff.toNat < t.capacity.toNat ∧ t.hSize.toNat ≤ t.capacity.toNat) ∧
    ((i = .hdrAdv ∨ i = .hdrRet) → s.hOff.toNat < s.capacity.toNat → s.hSize.toNat ≤ s.capacity.toNat →
      t.hOff.toNat < t.capacity.toNat ∧ t.hSize.toNat ≤ t.capacity.toNat) ∧
    (i = .hdrAdv → s.hSize ≠ 0 → s.hSize.toNat < s.capacity.toNat → t.firstTime = s.firstTime) ∧
    (i = .hdrAdv → s.hSize ≠ 0 → s.hSize = s.capacity →
      t.firstTime = s.firstTime + (s.elementSize.toNat : Int)) ∧
    (i = .hdrRet → t.firstTime = s.firstTime)

/-- R176, derived (the source's wraparound property): `n` advances move the offset by `n` modulo the capacity, the
size up to the capacity and the time by `n` elements. -/
def Obligations.ManyAdvancesWrapTheOffset : Prop :=
  ∀ (n : Nat) (s : State), ¬ s.notReady → s.hOff.toNat < s.capacity.toNat →
    s.hSize.toNat ≤ s.capacity.toNat → s.hTime.toNat + n * s.elementSize.toNat ≤ 0xFFFFFFFF →
    ∃ t, execSeq (List.replicate n .hdrAdv) s = .next t ∧
      t.hOff.toNat = (s.hOff.toNat + n) % s.capacity.toNat ∧
      t.hSize.toNat = min (s.hSize.toNat + n) s.capacity.toNat ∧
      t.hTime.toNat = s.hTime.toNat + n * s.elementSize.toNat ∧
      t = { s with hSize := t.hSize, hOff := t.hOff, hTime := t.hTime, resp := t.resp }

/-! ### Byte formats -/

/-- R87, R134, derived: a received request of eight bytes, in the layout of R91 to R93, ends in the parser's answer: the
fields its bytes spell if slave address and CRC are right, the first failing check's error if not. That such bytes are
an instruction and run `PARSE` is the model's choice: log entry 3. -/
def Obligations.EightByteRequestsAreParsed : Prop :=
  ∀ (s : State) (slave : Byte) (addr qty : Word16) (crcLo crcHi : Byte), s.wf = true →
    ∀ (i : Instr) (func : Byte) (kind : BitVec 3),
      (i, func, kind) ∈ [(Instr.reqReadHolding slave addr qty crcLo crcHi, 0x03#8, 1#3),
        (Instr.reqReadInput slave addr qty crcLo crcHi, 0x04#8, 2#3),
        (Instr.reqWriteSingle slave addr qty crcLo crcHi, 0x06#8, 3#3)] →
      let body := [slave, func, BitVec.ofNat 8 (addr.toNat / 256), BitVec.ofNat 8 addr.toNat,
        BitVec.ofNat 8 (qty.toNat / 256), BitVec.ofNat 8 qty.toNat]
      let k := (crc16 .modbus body).toNat
      decode (.request (body ++ [crcLo, crcHi])) = .ok i ∧
        ∃ m, Memory.slice m 0 8 = body ++ [crcLo, crcHi] ∧
          (∀ a, 8 ≤ a → Memory.read m a = Memory.read s.fb a) ∧
          exec i s = .next (
            if slave ≠ s.slaveAddr ∧ slave ≠ 0 then
              { s with fb := m, fbLen := 8, rKind := 0, resp := some ⟨.invalidSlaveAddress, 0⟩ }
            else if crcLo ≠ BitVec.ofNat 8 k ∨ crcHi ≠ BitVec.ofNat 8 (k / 256) then
              { s with fb := m, fbLen := 8, rKind := 0, resp := some ⟨.invalidCrc, 0⟩ }
            else
              { s with
                fb := m, fbLen := 8, rSlave := slave, rFunc := func, rAddr := addr, rQty := qty, rBc := 0,
                rKind := kind, resp := some ⟨.ok, 0⟩ })

/-- R87, R131, R134, derived: a received 0x10 request of `9 + N` bytes, in the layout of R94, that fits the buffer ends
in the parser's answer, its payload left in `fb`; one that does not fit is `BufferTooSmall` with the buffer full. That
such bytes are an instruction and run `PARSE` is the model's choice: log entry 3. -/
def Obligations.WriteMultipleRequestsAreParsed : Prop :=
  ∀ (s : State) (slave : Byte) (addr qty : Word16) (count : Byte) (payload : List Byte) (crcLo crcHi : Byte),
    s.wf = true → payload.length = count.toNat →
    let i := Instr.reqWriteMultiple slave addr qty count payload crcLo crcHi
    let body := [slave, 0x10, BitVec.ofNat 8 (addr.toNat / 256), BitVec.ofNat 8 addr.toNat,
      BitVec.ofNat 8 (qty.toNat / 256), BitVec.ofNat 8 qty.toNat, count] ++ payload
    let len := 9 + count.toNat
    let k := (crc16 .modbus body).toNat
    decode (.request (body ++ [crcLo, crcHi])) = .ok i ∧
      (count.toNat ≤ 247 →
        ∃ m, Memory.slice m 0 len = body ++ [crcLo, crcHi] ∧
          (∀ a, len ≤ a → Memory.read m a = Memory.read s.fb a) ∧
          exec i s = .next (
            if slave ≠ s.slaveAddr ∧ slave ≠ 0 then
              { s with
                fb := m, fbLen := BitVec.ofNat 9 len, rKind := 0, resp := some ⟨.invalidSlaveAddress, 0⟩ }
            else if crcLo ≠ BitVec.ofNat 8 k ∨ crcHi ≠ BitVec.ofNat 8 (k / 256) then
              { s with fb := m, fbLen := BitVec.ofNat 9 len, rKind := 0, resp := some ⟨.invalidCrc, 0⟩ }
            else
              { s with
                fb := m, fbLen := BitVec.ofNat 9 len, rSlave := slave, rFunc := 0x10, rAddr := addr,
                rQty := qty, rBc := count, rKind := 4, resp := some ⟨.ok, 0⟩ })) ∧
      (248 ≤ count.toNat →
        ∃ m, Memory.slice m 0 256 = (body ++ [crcLo, crcHi]).take 256 ∧
          exec i s = .next { s with fb := m, fbLen := 256, rKind := 0, resp := some ⟨.bufferTooSmall, 0⟩ })

/-- R95, R153, derived: a normal response is built in `fb`: head, data and the CRC of both, up to 252 data bytes; with
more, `BufferTooSmall` and the bytes that fit. A well-formed instruction's own CRC bytes are the ones built. That such
bytes are an instruction and run `RESP` (R87), and that the CRC operands of an ill-formed one are not used, are the
model's choices: log entries 3 and 4. -/
def Obligations.NormalResponseIsBuilt : Prop :=
  ∀ (s : State) (slave func : Byte) (data : List Byte) (crcLo crcHi : Byte), s.wf = true →
    let i := Instr.respNormal slave func data crcLo crcHi
    let head := slave :: func :: data
    let k := (crc16 .modbus head).toNat
    decode (.normalResponse (head ++ [crcLo, crcHi])) = .ok i ∧
      (data.length ≤ 252 →
        ∃ m, Memory.slice m 0 (data.length + 4) = head ++ [BitVec.ofNat 8 k, BitVec.ofNat 8 (k / 256)] ∧
          (i.wellFormed = true → Memory.slice m 0 (data.length + 4) = head ++ [crcLo, crcHi]) ∧
          (∀ a, data.length + 4 ≤ a → Memory.read m a = Memory.read s.fb a) ∧
          exec i s = .next { s with
            fb := m, fbLen := BitVec.ofNat 9 (data.length + 4), rKind := 0, resp := some ⟨.ok, 0⟩ }) ∧
      (253 ≤ data.length →
        ∃ m, Memory.slice m 0 (min (data.length + 2) 256) = head.take 256 ∧
          (∀ a, data.length + 2 ≤ a → Memory.read m a = Memory.read s.fb a) ∧
          exec i s = .next { s with
            fb := m, fbLen := BitVec.ofNat 9 (min (data.length + 2) 256), rKind := 0,
            resp := some ⟨.bufferTooSmall, 0⟩ })

/-- R96, R152, derived: an exception response is built in `fb`, bit 7 of its function code set, and a well-formed
instruction's own five bytes are the ones built. That such bytes are an instruction and run `TX.EXC`, and that the CRC
operands of an ill-formed one are not used, are the model's choices: log entries 3 and 4. -/
def Obligations.ExceptionResponseIsBuilt : Prop :=
  ∀ (s : State) (slave : Byte) (func : BitVec 7) (code crcLo crcHi : Byte), s.wf = true →
    let i := Instr.respException slave func code crcLo crcHi
    let head := [slave, BitVec.ofNat 8 (128 + func.toNat), code]
    let k := (crc16 .modbus head).toNat
    decode (.exceptionResponse (head ++ [crcLo, crcHi])) = .ok i ∧
      ∃ m, Memory.slice m 0 5 = head ++ [BitVec.ofNat 8 k, BitVec.ofNat 8 (k / 256)] ∧
        (i.wellFormed = true → Memory.slice m 0 5 = head ++ [crcLo, crcHi]) ∧
        (∀ a, 5 ≤ a → Memory.read m a = Memory.read s.fb a) ∧
        exec i s = .next { s with fb := m, fbLen := 5, rKind := 0, resp := some ⟨.ok, 0⟩ }

/-- R100, R87, derived: a header image is put into `hb` byte for byte, the fields as the table's pattern writes them;
no header register changes. That such bytes are an instruction, run `HB.LOAD` and are not loaded into the registers as
well is the model's choice: log entry 3. -/
def Obligations.HeaderImageIsStored : Prop :=
  ∀ (s : State) (b : Fin 14 → Byte), s.wf = true →
    ∃ i, decode (.image ((List.finRange 14).map b)) = .ok i ∧
      (∃ size off time crc, i = .headerImage size off time crc) ∧
      ∃ m, exec i s = .next { s with hb := m, resp := some ⟨.ok, 0⟩ } ∧
        Memory.slice m 0 14 = (List.finRange 14).map b ∧
        ∀ a, 14 ≤ a → Memory.read m a = Memory.read s.hb a

/-- R154, derived: a frame that the builder makes, with the data of a request, the parser accepts, with the fields
the data bytes spell. R154 says so of the commands of `RESP`; that a response instruction runs them, whatever its CRC
operands, is the model's choice: log entries 3 and 4. -/
def Obligations.BuiltFramesParse : Prop :=
  ∀ (s : State) (slave func a1 a0 q1 q0 : Byte) (tail : List Byte) (crcLo crcHi : Byte),
    s.wf = true → (slave = s.slaveAddr ∨ slave = 0) →
    (((func = 0x03 ∨ func = 0x04 ∨ func = 0x06) ∧ tail = []) ∨
      (func = 0x10 ∧ ∃ n : Byte, ∃ p : List Byte, tail = n :: p ∧ p.length = n.toNat ∧ n.toNat ≤ 247)) →
    ∃ t u, exec (.respNormal slave func (a1 :: a0 :: q1 :: q0 :: tail) crcLo crcHi) s = .next t ∧
      exec .rxParse t = .next u ∧
      u = { t with
        rSlave := slave, rFunc := func, rAddr := a1 ++ a0, rQty := q1 ++ q0, rBc := tail.headD 0,
        rKind := if func = 0x03 then 1 else if func = 0x04 then 2 else if func = 0x06 then 3 else 4,
        resp := some ⟨.ok, 0⟩ }

/-! ### The whole machine -/

/-- R41, derived: every step keeps the invariant, from every state that has it, whatever is presented. -/
def Obligations.StepKeepsTheInvariant : Prop :=
  ∀ s t : State, s.Inv → Sys2Proof.Machine.step s = .next t → t.Inv

/-- R41, derived: the invariant holds right after reset. -/
def Obligations.ResetHasTheInvariant : Prop := State.reset.Inv

/-- R15, derived: from a state with the invariant every instruction ends and answers, and no run ever stops: no
fault and no refusal is reached. -/
def Obligations.NothingEverStopsTheBlock : Prop :=
  ∀ s : State, s.Inv →
    (∀ i : Instr, ∃ t r, exec i s = .next t ∧ t.resp = some r) ∧ SafeFrom s

/-- R256: a command that does not end `Ok` changes nothing, but for `RX.PARSE`, which clears `R_KIND` and, for the two
errors found after the CRC check, has written `R_SLAVE` and `R_FUNC`. -/
def Obligations.ErrorsArePrecise : Prop :=
  ∀ (i : Instr) (s t : State) (r : Response), isCommand i = true → exec i s = .next t →
    t.resp = some r → r.status ≠ .ok →
    (i ≠ .rxParse → t = { s with resp := some r }) ∧
    (i = .rxParse →
      t = if r.status = .exception ∨ (r.status = .invalidLength ∧ 8 ≤ s.fbLen.toNat) then
          { s with
            rKind := 0, rSlave := Memory.read s.fb 0, rFunc := Memory.read s.fb 1, resp := some r }
        else { s with rKind := 0, resp := some r })

/-- R251, R85, derived: every command answers with a status that the table lists for it; the result is 0 unless it
carries a value, and 1 with `Exception`. The table lists nothing for the seven byte formats: what they may answer
follows from the commands that they run, which is the model's choice: log entry 3. -/
def Obligations.StatusesAreThoseOfTheTable : Prop :=
  ∀ (i : Instr) (s t : State), exec i s = .next t →
    ∃ r, t.resp = some r ∧ r.status ∈ mayAnswer i ∧
      (r.status = .exception → r.result = 1) ∧
      (r.status ≠ .exception → (r.status ≠ .ok ∨ carriesValue i = false) → r.result = 0)

/-- R21, derived: a register or buffer changes only by the commands that the register table lists for it. -/
def Obligations.OnlyTheListedCommandsWrite : Prop :=
  ∀ (i : Instr) (s t : State), isCommand i = true → exec i s = .next t → i ≠ .sysReset →
    (t.crc ≠ s.crc → (∃ alg, i = .crcInit alg) ∨ ∃ b, i = .crcUpd b) ∧
    (t.crcAlg ≠ s.crcAlg → ∃ alg, i = .crcInit alg) ∧
    (t.slaveAddr ≠ s.slaveAddr → ∃ v, i = .regWr 0x02 v) ∧
    (t.fbLen ≠ s.fbLen →
      i = .fbClr ∨ (∃ b, i = .fbPush b) ∨ (∃ a f, i = .txBegin a f) ∨ i = .txSeal ∨ ∃ a f c, i = .txExc a f c) ∧
    (t.fb ≠ s.fb → (∃ b, i = .fbPush b) ∨ (∃ a f, i = .txBegin a f) ∨ i = .txSeal ∨ ∃ a f c, i = .txExc a f c) ∧
    (t.rKind ≠ s.rKind →
      i = .rxParse ∨ i = .fbClr ∨ (∃ b, i = .fbPush b) ∨ (∃ a f, i = .txBegin a f) ∨ i = .txSeal ∨
        ∃ a f c, i = .txExc a f c) ∧
    (t.rSlave ≠ s.rSlave ∨ t.rFunc ≠ s.rFunc ∨ t.rAddr ≠ s.rAddr ∨ t.rQty ≠ s.rQty ∨ t.rBc ≠ s.rBc →
      i = .rxParse) ∧
    (t.capacity ≠ s.capacity → ∃ v, i = .regWr 0x0A v) ∧
    (t.elementSize ≠ s.elementSize → ∃ v, i = .regWr 0x0B v) ∧
    (t.hSize ≠ s.hSize ∨ t.hOff ≠ s.hOff ∨ t.hTime ≠ s.hTime →
      i = .hdrLoad ∨ i = .hdrReset ∨ (∃ time, i = .hdrStart time) ∨ i = .hdrAdv ∨ i = .hdrRet) ∧
    (t.hCrc ≠ s.hCrc → i = .hdrLoad ∨ i = .hdrSeal) ∧
    (t.loaded ≠ s.loaded →
      i = .hdrLoad ∨ i = .hdrReset ∨ (∃ v, i = .regWr 0x0A v) ∨ ∃ v, i = .regWr 0x0B v) ∧
    (t.crcOk ≠ s.crcOk → i = .hdrLoad ∨ (∃ v, i = .regWr 0x0A v) ∨ ∃ v, i = .regWr 0x0B v) ∧
    (t.hb ≠ s.hb → (∃ k b, i = .hbWr k b) ∨ i = .hdrSeal)

/-- R68, derived: no step of the block reads or writes the storage: it stays, with what will happen to its coming
accesses and the parameters, and a step does the same to two states that differ in their storage only. That the
presented items are a list of which a step takes the first, that the outcomes of coming accesses are a list, and that
both outlast a power cycle, are the model's choices: log entries 1, 10 and 12. -/
def Obligations.StepsNeverReachTheStorage : Prop :=
  ∀ (s : State) (m : Memory) (e : List IoEvent),
    (∀ t, step s = .next t →
      t.storage = s.storage ∧ t.io = s.io ∧ t.params = s.params ∧ t.pending = s.pending.tail ∧
        step { s with storage := m, io := e } = .next { t with storage := m, io := e })

/-! ### Host procedures: storage and configuration -/

/-- R69, derived: what a successful write stores, a read of the same range returns, and nothing else changes; a failed
write answers `Storage`. That it leaves every byte outside its range is U9 (93_implementation_defined.md) as log entry
11 takes it; that the list of coming outcomes decides, and an empty one means success, is the model's choice: log entry
10. -/
def Obligations.StorageReturnsWhatWasWritten : Prop :=
  ∀ (s : State) (a : Nat) (bytes : List Byte), s.wf = true → a + bytes.length ≤ 2 ^ 32 →
    (s.io = [] →
      ∃ t, storageWrite a bytes s = .done (.ok ()) t ∧ storageRead a bytes.length t = .done (.ok bytes) t ∧
        t = { s with storage := t.storage } ∧
        ∀ x, x < a ∨ a + bytes.length ≤ x → Memory.read t.storage x = Memory.read s.storage x) ∧
    (∀ (torn : List Byte) (rest : List IoEvent), s.io = .failed torn :: rest →
      ∃ t, storageWrite a bytes s = .done (.error .storage) t ∧
        storageRead a bytes.length s = .done (.error .storage) { s with io := rest } ∧
        t = { s with storage := t.storage, io := rest } ∧
        ∀ x, x < a ∨ a + bytes.length ≤ x → Memory.read t.storage x = Memory.read s.storage x)

/-- R204: `load` returns the primary copy's record if its page is valid, else the secondary's if that is, else
`WrongCrc`; a failed read is `Storage` at once, and the secondary is read only when the primary is not valid. -/
def Obligations.LoadTakesTheFirstValidCopy : Prop :=
  ∀ s : State,
    let e := s.params.storeEndian
    let valid := fun p : List Byte => st16 e (p.take 2) = crc16 .ccittFalse (p.drop 2)
    (s.io = [] →
      (valid s.primary → ∃ t, configLoad s = .done (.ok (.parse e s.primary)) t ∧ t.storage = s.storage) ∧
      (¬ valid s.primary → valid s.secondary →
        ∃ t, configLoad s = .done (.ok (.parse e s.secondary)) t ∧ t.storage = s.storage) ∧
      (¬ valid s.primary → ¬ valid s.secondary →
        ∃ t, configLoad s = .done (.error .wrongCrc) t ∧ t.storage = s.storage)) ∧
    (∀ (torn : List Byte) (rest : List IoEvent), s.io = .failed torn :: rest →
      ∃ t, configLoad s = .done (.error .storage) t ∧ t.storage = s.storage) ∧
    (∀ (torn : List Byte) (rest : List IoEvent), s.io = .ok :: .failed torn :: rest →
      (valid s.primary →
        ∃ t, configLoad s = .done (.ok (.parse e s.primary)) t ∧ t.storage = s.storage ∧
          t.io = .failed torn :: rest) ∧
      (¬ valid s.primary → ∃ t, configLoad s = .done (.error .storage) t ∧ t.storage = s.storage))

/-- R205, derived: `save` puts the checksum into the record, whether the writes then succeed or not, and writes the same page to
both copies; a failed primary write is `Storage` with the secondary not attempted, a failed secondary write is `Storage`
with the primary written. What a failed write leaves is U9 as log entry 11 takes it. -/
def Obligations.SaveWritesBothCopies : Prop :=
  ∀ (s : State) (r : ConfigRecord), s.wf = true →
    let e := s.params.storeEndian
    let pad := List.replicate 913 s.params.pagePad
    let c := crc16 .ccittFalse ((r.serialise e).drop 2 ++ pad)
    let new : ConfigRecord := { r with crc := c }
    let page := put16 e c ++ (r.serialise e).drop 2 ++ pad
    page.length = 1024 ∧
    (s.io = [] →
      ∃ t, configSave r s = .done ⟨.ok (), new⟩ t ∧ t.primary = page ∧ t.secondary = page ∧
        ∀ a, 2048 ≤ a → Memory.read t.storage a = Memory.read s.storage a) ∧
    (∀ (torn : List Byte) (rest : List IoEvent), s.io = .failed torn :: rest →
      ∃ t, configSave r s = .done ⟨.error .storage, new⟩ t ∧ t.io = rest ∧
        ∀ a, 1024 ≤ a → Memory.read t.storage a = Memory.read s.storage a) ∧
    (∀ (torn : List Byte) (rest : List IoEvent), s.io = .ok :: .failed torn :: rest →
      ∃ t, configSave r s = .done ⟨.error .storage, new⟩ t ∧ t.io = rest ∧ t.primary = page ∧
        ∀ a, 2048 ≤ a → Memory.read t.storage a = Memory.read s.storage a)

/-- R206, derived: what `save` stores, `load` gives back field for field; after one flipped byte in the primary `load`
still gives it, from the secondary; after one flipped byte in each copy it is `WrongCrc`. -/
def Obligations.SavedRecordSurvivesOneBadCopy : Prop :=
  ∀ (s : State) (r : ConfigRecord), s.wf = true → s.io = [] →
    ∃ t, configSave r s = .done ⟨.ok (), r.withCrc s.params⟩ t ∧
      (∃ u, configLoad t = .done (.ok (r.withCrc s.params)) u) ∧
      ∀ (i : Nat) (b : Byte), i < 1024 → b ≠ Memory.read t.storage i →
        (∃ u, configLoad { t with storage := Memory.write t.storage i b } =
          .done (.ok (r.withCrc s.params)) u) ∧
        ∀ (j : Nat) (d : Byte), 1024 ≤ j → j < 2048 → d ≠ Memory.read t.storage j →
          ∃ u, configLoad { t with storage := Memory.write (Memory.write t.storage i b) j d } =
            .done (.error .wrongCrc) u

/-- R291, derived: power lost at the secondary write of a `save` leaves the new record for `load`; power lost at the
primary write leaves the secondary as it was, and if the torn primary is not valid, `load` gives the old record from
a valid secondary. -/
def Obligations.SaveSurvivesPowerLoss : Prop :=
  ∀ (s : State) (r : ConfigRecord) (torn : List Byte), s.wf = true →
    (s.io = [.ok, .powerLoss torn] →
      ∃ t, configSave r s = .crashed t ∧ t.HasResetValues ∧
        ∃ u, configLoad t = .done (.ok (r.withCrc s.params)) u) ∧
    (s.io = [.powerLoss torn] →
      ∃ t, configSave r s = .crashed t ∧ t.HasResetValues ∧ t.secondary = s.secondary ∧
        (pageValid s.params t.primary = false → pageValid s.params s.secondary = true →
          ∃ u, configLoad t = .done (.ok (.parse s.params.storeEndian s.secondary)) u))

/-! ### Host procedures: the ring -/

/-- R209: `new` selects the instance, reads its header and takes it if the CRC matches; on a mismatch or a failed read
the instance is empty. The storage stays. -/
def Obligations.NewReadsTheStoredHeader : Prop :=
  ∀ (g : RingInstance) (s : State), g.Valid → s.wf = true →
    let img := Memory.slice s.storage g.hdrAddr 14
    let f := hdrDecode s.params img
    (s.io = [] →
      ∃ t, ringNew g s = .done (.ok ()) t ∧
        t.capacity = g.capacity ∧ t.elementSize = g.elementSize ∧ t.loaded = true ∧ t.storage = s.storage ∧
        (crc16 s.params.hdrCrcAlg (img.take 12) = f.crc →
          t.hSize = f.size ∧ t.hOff = f.off ∧ t.hTime = f.time ∧ t.crcOk = true) ∧
        (crc16 s.params.hdrCrcAlg (img.take 12) ≠ f.crc →
          t.hSize = 0 ∧ t.hOff = 0 ∧ t.hTime = 0 ∧ t.crcOk = false)) ∧
    (∀ (torn : List Byte) (rest : List IoEvent), s.io = .failed torn :: rest →
      ∃ t, ringNew g s = .done (.ok ()) t ∧
        t.capacity = g.capacity ∧ t.elementSize = g.elementSize ∧ t.loaded = true ∧ t.storage = s.storage ∧
        t.hSize = 0 ∧ t.hOff = 0 ∧ t.hTime = 0)

/-- R212 to R214, R211, R217, derived: `add` on a ready ring whose storage answers always ends, leaves it ready with its
header in storage, writes nothing outside the region, and leaves the newest bucket less than one element away from the
rounded time with the value in its slot; where the two times agree, `find` gives the value back. Where one of its writes
fails, `add` stops at that write and reports `Storage`, with the rounds before it in storage and the header registers at
the round begun, ahead of the stored header. What the failed write leaves is U9 as log entry 11 takes it. -/
def Obligations.AddStoresTheValueAndTheHeader : Prop :=
  (∀ (g : RingInstance) (s : State) (value time : Word32), g.Valid → RingReady g s →
    ∃ t, ringAdd g value time s = .done (.ok ()) t ∧ RingReady g t ∧ t.hSize ≠ 0 ∧
      Memory.slice t.storage g.hdrAddr 14 = hdrEncode s.params t.hSize t.hOff t.hTime ∧
      Memory.slice t.storage (g.slotAddr t.hOff.toNat) 4 = put32 s.params.storeEndian value ∧
      (∀ a, a < g.offset ∨ g.offset + regionSize g.capacity.toNat ≤ a →
        Memory.read t.storage a = Memory.read s.storage a) ∧
      quant time.toNat < t.hTime.toNat + g.elementSize.toNat ∧
      t.hTime.toNat < quant time.toNat + g.elementSize.toNat ∧
      (t.hTime.toNat = quant time.toNat → ∃ u, ringFind g time t = .done (.ok (some value.toInt)) u)) ∧
  (∀ (g : RingInstance) (s : State) (value time : Word32) (n : Nat) (torn : List Byte) (rest : List IoEvent),
    g.Valid → RingReady g { s with io := [] } → s.io = List.replicate n .ok ++ .failed torn :: rest →
    let q := quant time.toNat
    let r := s.addRound q value (n / 2)
    n < 2 * s.addRounds q →
    ∃ t, ringAdd g value time s = .done (.error .storage) t ∧ t.io = rest ∧
      AddStopped g s q value n torn t.storage ∧
      t.hSize.toNat = r.size ∧ t.hOff.toNat = r.off ∧ t.hTime.toNat = r.time)

/-- R213, derived (the source's gap-fill property): a value, then another `n` buckets later in a ring that holds more
than `n`: the first stays, the buckets between read 0, the last holds the second value. -/
def Obligations.ForwardGapIsFilledWithZeros : Prop :=
  ∀ (g : RingInstance) (s : State) (v w t0 t1 : Word32) (n : Nat), g.Valid → RingReady g s → s.hSize = 0 →
    g.elementSize.toNat % 60 = 0 → 0 < n → n < g.capacity.toNat →
    t1.toNat = t0.toNat + n * g.elementSize.toNat →
    ∃ a b, ringAdd g v t0 s = .done (.ok ()) a ∧ ringAdd g w t1 a = .done (.ok ()) b ∧
      b.hSize.toNat = n + 1 ∧
      ∀ (k : Nat) (t : Word32), k ≤ n → t.toNat = t0.toNat + k * g.elementSize.toNat →
        ∃ u, ringFind g t b =
          .done (.ok (some (if k = 0 then v.toInt else if k = n then w.toInt else 0))) u

/-- R214, derived: a value for a held bucket `k` steps back drops the newer buckets: the header ends at that bucket,
its slot holds the value, the first timestamp stays, `find` gives the value, and the slots of the older buckets keep
their bytes. -/
def Obligations.BackwardAddDropsTheNewerBuckets : Prop :=
  ∀ (g : RingInstance) (s : State) (value time : Word32) (k : Nat), g.Valid → RingReady g s →
    k < s.hSize.toNat → quant time.toNat + k * g.elementSize.toNat = s.hTime.toNat →
    ∃ t, ringAdd g value time s = .done (.ok ()) t ∧
      t.hSize.toNat = s.hSize.toNat - k ∧ t.hTime.toNat = quant time.toNat ∧
      t.hOff.toNat = s.slotBack k ∧ t.firstTime = s.firstTime ∧
      (∃ u, ringFind g time t = .done (.ok (some value.toInt)) u) ∧
      ∀ j, k < j → j < s.hSize.toNat →
        Memory.slice t.storage (g.slotAddr (s.slotBack j)) 4 =
          Memory.slice s.storage (g.slotAddr (s.slotBack j)) 4

/-- R292, derived: power lost at any write of an `add`, whatever it tears. The block is reset; the rounds before it are
in storage, every other slot and every byte outside the header and the slots of the rounds begun is as it was. Until its
own header is written a round leaves the header of the round before it, before the first round the one that was there,
and `new` loads that header again. (On a full ring the slot just written is one that this header still counts as its
oldest bucket: that bucket's value is then lost.) A torn header that fails its CRC gives the empty instance. What a torn
write leaves is U9 as log entry 11 takes it. -/
def Obligations.AddInterruptedKeepsThePriorHeader : Prop :=
  ∀ (g : RingInstance) (s : State) (value time : Word32) (n : Nat) (torn : List Byte), g.Valid →
    RingReady g { s with io := [] } → s.io = List.replicate n .ok ++ [.powerLoss torn] →
    let q := quant time.toNat
    n < 2 * s.addRounds q →
    ∃ t, ringAdd g value time s = .crashed t ∧ t.HasResetValues ∧ AddStopped g s q value n torn t.storage ∧
      (n < 2 → (n = 0 ∨ torn = []) → ∀ size off at_ : Word32,
        Memory.slice s.storage g.hdrAddr 14 = hdrEncode s.params size off at_ →
        ∃ u, ringNew g t = .done (.ok ()) u ∧ u.hSize = size ∧ u.hOff = off ∧ u.hTime = at_ ∧ u.crcOk = true) ∧
      (2 ≤ n → (n % 2 = 0 ∨ torn = []) →
        let r := s.addRound q value (n / 2 - 1)
        ∃ u, ringNew g t = .done (.ok ()) u ∧ u.hSize.toNat = r.size ∧ u.hOff.toNat = r.off ∧
          u.hTime.toNat = r.time ∧ u.crcOk = true) ∧
      (hdrCrc s.params (Memory.slice t.storage g.hdrAddr 14) ≠
          (hdrDecode s.params (Memory.slice t.storage g.hdrAddr 14)).crc →
        ∃ u, ringNew g t = .done (.ok ()) u ∧ u.hSize = 0 ∧ u.hOff = 0 ∧ u.hTime = 0 ∧ u.crcOk = false)

/-! ### Host procedures: the Modbus handler -/

/-- R221, R225, R284, derived: the handler answers exactly the frames that pass the parser's checks of length, address,
CRC and, for 0x10, byte count, whatever the storage does short of losing power, and what it sends is a sealed frame of
the request's slave with its function code, or with that code's bit 7 set and one of the four exception codes. A change
of the record's slave address is written to `SLAVE_ADDR`; that it is there for the next frame is the model's choice: log
entry 24. -/
def Obligations.HandlerAnswersEveryGoodFrame : Prop :=
  ∀ (s : State) (frame : List Byte) (tel : Telemetry) (rec : ConfigRecord), s.Inv → frame.length ≤ 256 →
    s.params.answerBroadcast = true → (∀ ev ∈ s.io, ∃ torn, ev = .ok ∨ ev = .failed torn) →
    ∃ h t, serveFrame frame tel rec s = .done (.ok h) t ∧ t.Inv ∧
      t.slaveAddr = (if h.record.slaveAddress = rec.slaveAddress then s.slaveAddr else h.record.slaveAddress) ∧
      (passesChecks s frame = false → h.reply = none ∧ h.record = rec ∧ t.storage = s.storage) ∧
      (passesChecks s frame = true →
        ∃ f, h.reply = some f ∧ sealedFrame f = true ∧ f.headD 0 = frame.headD 0 ∧
          (f.getD 1 0 = frame.getD 1 0 ∨
            (f.length = 5 ∧ f.getD 1 0 = frame.getD 1 0 ||| 0x80 ∧ f.getD 2 0 ∈ [0x01, 0x02, 0x03, 0x04])))

/-- R220 to R223, derived: a read of `n` holding registers of the record's mirror answers the byte count and the record's
bytes in their order, one of the telemetry registers, by function 0x03 from 0x0064 on or by 0x04 from 0x0000 on, the
four values' bytes, most significant first; a quantity outside 1 to 125 is `IllegalDataValue`, and a span that leaves
the map of its function is `IllegalDataAddress`. -/
def Obligations.HandlerReadsTheMirror : Prop :=
  ∀ (s : State) (slave : Byte) (addr qty : Word16) (tel : Telemetry) (rec : ConfigRecord), s.Inv →
    (slave = s.slaveAddr ∨ slave = 0) → s.params.answerBroadcast = true →
    let body := fun func : Byte => [slave, func, BitVec.ofNat 8 (addr.toNat / 256), BitVec.ofNat 8 addr.toNat,
      BitVec.ofNat 8 (qty.toNat / 256), BitVec.ofNat 8 qty.toNat]
    let close := fun f : List Byte => f ++ [BitVec.ofNat 8 (crc16 .modbus f).toNat,
      BitVec.ofNat 8 ((crc16 .modbus f).toNat / 256)]
    let values := put32 .big tel.flowRate ++ put32 .big tel.hourFlow ++ put32 .big tel.dayFlow ++
      put32 .big tel.monthFlow
    let a := addr.toNat
    let n := qty.toNat
    (∃ t, handleFrame (close (body 0x03)) tel rec s = .done (.ok ⟨some (
      if n < 1 ∨ 125 < n then close [slave, 0x83, 0x03]
      else if a + n ≤ 32 then
        close ([slave, 0x03, BitVec.ofNat 8 (2 * n)] ++
          ((rec.serialise s.params.storeEndian).drop (2 * a)).take (2 * n))
      else if 100 ≤ a ∧ a + n ≤ 108 then
        close ([slave, 0x03, BitVec.ofNat 8 (2 * n)] ++ (values.drop (2 * (a - 100))).take (2 * n))
      else close [slave, 0x83, 0x02]), rec⟩) t ∧ t.storage = s.storage) ∧
    (∃ t, handleFrame (close (body 0x04)) tel rec s = .done (.ok ⟨some (
      if n < 1 ∨ 125 < n then close [slave, 0x84, 0x03]
      else if a + n ≤ 8 then
        close ([slave, 0x04, BitVec.ofNat 8 (2 * n)] ++ (values.drop (2 * a)).take (2 * n))
      else close [slave, 0x84, 0x02]), rec⟩) t ∧ t.storage = s.storage)

/-- R221, R224, derived: a write of one register (0x06), or of `n` with a byte count of twice `n` (0x10), patches those
bytes of the record, saves it and echoes address and value or quantity; where the primary or the secondary write of the
save fails the answer is `ServerDeviceFailure`; registers outside the mirror are `IllegalDataAddress`. That the handler
goes on with the record it had after a failed save is the model's choice: log entry 19; what a failed write leaves is
U9 as log entry 11 takes it. -/
def Obligations.HandlerWritesOneRegister : Prop :=
  ∀ (s : State) (slave func : Byte) (addr qty : Word16) (payload : List Byte) (tel : Telemetry)
    (rec : ConfigRecord), s.Inv → (slave = s.slaveAddr ∨ slave = 0) → s.params.answerBroadcast = true →
    (func = 0x06 ∨ (func = 0x10 ∧ 0 < qty.toNat ∧ qty.toNat ≤ 123 ∧ payload.length = 2 * qty.toNat)) →
    let e := s.params.storeEndian
    let head := [slave, func, BitVec.ofNat 8 (addr.toNat / 256), BitVec.ofNat 8 addr.toNat,
      BitVec.ofNat 8 (qty.toNat / 256), BitVec.ofNat 8 qty.toNat]
    let body := if func = 0x06 then head else head ++ BitVec.ofNat 8 payload.length :: payload
    let data := if func = 0x06 then head.drop 4 else payload
    let a := addr.toNat
    let n := if func = 0x06 then 1 else qty.toNat
    let close := fun f : List Byte => f ++ [BitVec.ofNat 8 (crc16 .modbus f).toNat,
      BitVec.ofNat 8 ((crc16 .modbus f).toNat / 256)]
    let refuse := fun code : Byte => close [slave, if func = 0x06 then 0x86 else 0x90, code]
    let bytes := rec.serialise e
    let patched := bytes.take (2 * a) ++ data ++ bytes.drop (2 * (a + n))
    (32 < a + n →
      ∃ t, handleFrame (close body) tel rec s = .done (.ok ⟨some (refuse 0x02), rec⟩) t ∧
        t.storage = s.storage) ∧
    (a + n ≤ 32 → s.io = [] →
      ∃ (new : ConfigRecord) (t : State), handleFrame (close body) tel rec s =
          .done (.ok ⟨some (close head), new⟩) t ∧
        (new.serialise e).drop 2 = patched.drop 2 ∧ t.primary = new.page s.params ∧
        t.secondary = new.page s.params ∧ pageValid s.params t.primary = true) ∧
    (∀ (torn : List Byte) (rest : List IoEvent), a + n ≤ 32 → s.io = .failed torn :: rest →
      ∃ t, handleFrame (close body) tel rec s = .done (.ok ⟨some (refuse 0x04), rec⟩) t ∧ t.io = rest ∧
        t.secondary = s.secondary) ∧
    (∀ (torn : List Byte) (rest : List IoEvent), a + n ≤ 32 → s.io = .ok :: .failed torn :: rest →
      ∃ (new : ConfigRecord) (t : State), handleFrame (close body) tel rec s =
          .done (.ok ⟨some (refuse 0x04), rec⟩) t ∧ t.io = rest ∧
        (new.serialise e).drop 2 = patched.drop 2 ∧ t.primary = new.page s.params ∧
        pageValid s.params t.primary = true)

end
end

