-- ==== Sys2Proof/Laws/Bytes.lean ====
section
/-! SUPPORT. Laws of the byte orders and of the command word's fields. -/

namespace Sys2Proof.Machine

/-! ### Byte orders -/

@[simp] theorem leOfNat_length (n v : Nat) : (leOfNat n v).length = n := by
  induction n generalizing v with
  | zero => rfl
  | succ n ih => simp [leOfNat, ih]

@[simp] theorem bytesOfNat_length (e : Endian) (n v : Nat) : (bytesOfNat e n v).length = n := by
  cases e <;> simp [bytesOfNat]

/-- Writing a number's low bytes and reading them back gives the number modulo `256 ^ n`. -/
theorem natOfLe_leOfNat (n v : Nat) : natOfLe (leOfNat n v) = v % 256 ^ n := by
  induction n generalizing v with
  | zero => simp [leOfNat, natOfLe, Nat.mod_one]
  | succ n ih =>
    rw [leOfNat, natOfLe, ih, BitVec.toNat_ofNat, pow_succ' 256 n, Nat.mod_mul]

theorem natOfBytes_bytesOfNat (e : Endian) (n v : Nat) : natOfBytes e (bytesOfNat e n v) = v % 256 ^ n := by
  cases e <;> simp [natOfBytes, bytesOfNat, natOfLe_leOfNat]

theorem natOfLe_lt (bs : List Byte) : natOfLe bs < 256 ^ bs.length := by
  induction bs with
  | nil => simp [natOfLe]
  | cons b bs ih =>
    have := b.isLt
    rw [natOfLe, List.length_cons, pow_succ]
    omega

/-- Reading bytes and writing the number back gives the bytes. -/
theorem leOfNat_natOfLe (bs : List Byte) : leOfNat bs.length (natOfLe bs) = bs := by
  induction bs with
  | nil => rfl
  | cons b bs ih =>
    have hb : b.toNat < 256 := b.isLt
    have hm : (b.toNat + 256 * natOfLe bs) % 256 = b.toNat := by omega
    have hd : (b.toNat + 256 * natOfLe bs) / 256 = natOfLe bs := by omega
    rw [List.length_cons, natOfLe, leOfNat, hd, ih]
    congr 1
    apply BitVec.eq_of_toNat_eq
    rw [BitVec.toNat_ofNat]
    exact hm

@[simp] theorem st32_put32 (e : Endian) (v : Word32) : st32 e (put32 e v) = v := by
  apply BitVec.eq_of_toNat_eq
  rw [st32, put32, natOfBytes_bytesOfNat, BitVec.toNat_ofNat]
  have := v.isLt
  omega

@[simp] theorem st16_put16 (e : Endian) (v : Word16) : st16 e (put16 e v) = v := by
  apply BitVec.eq_of_toNat_eq
  rw [st16, put16, natOfBytes_bytesOfNat, BitVec.toNat_ofNat]
  have := v.isLt
  omega

@[simp] theorem put32_length (e : Endian) (v : Word32) : (put32 e v).length = 4 := bytesOfNat_length e 4 _
@[simp] theorem put16_length (e : Endian) (v : Word16) : (put16 e v).length = 2 := bytesOfNat_length e 2 _

/-! ### Halves of a word16 -/

/-- Each bit of a joined word is a bit of one of its halves. -/
theorem join16_getLsbD (hi lo : Byte) (i : Nat) :
    (join16 hi lo).getLsbD i = if i < 8 then lo.getLsbD i else hi.getLsbD (i - 8) := by
  refine (BitVec.getLsbD_append (x := hi) (y := lo)).trans ?_
  split <;> rfl

theorem lo8_join16 (hi lo : Byte) : lo8 (join16 hi lo) = lo := by
  ext i h
  rw [lo8, BitVec.getElem_extractLsb', join16_getLsbD, if_pos (by omega), Nat.zero_add,
    BitVec.getLsbD_eq_getElem h]

theorem hi8_join16 (hi lo : Byte) : hi8 (join16 hi lo) = hi := by
  ext i h
  rw [hi8, BitVec.getElem_extractLsb', join16_getLsbD, if_neg (by omega), Nat.add_sub_cancel_left,
    BitVec.getLsbD_eq_getElem h]

theorem join16_halves (v : Word16) : join16 (hi8 v) (lo8 v) = v := by
  apply BitVec.eq_of_getLsbD_eq
  intro i h
  rw [join16_getLsbD, lo8, hi8, BitVec.getLsbD_extractLsb', BitVec.getLsbD_extractLsb']
  by_cases h8 : i < 8
  · simp [h8]
  · simp [h8, show 8 + (i - 8) = i by omega, show i - 8 < 8 by omega]

end Sys2Proof.Machine

namespace Sys2Proof

/-! ### Fields of a command word -/

/-- Each bit of a packed word is a bit of one of its four fields. -/
theorem packCw_getLsbD (op a b c : Byte) (i : Nat) :
    (packCw op a b c).getLsbD i =
      if i < 8 then c.getLsbD i else if i < 16 then b.getLsbD (i - 8)
      else if i < 24 then a.getLsbD (i - 16) else op.getLsbD (i - 24) := by
  refine (BitVec.getLsbD_append (x := op ++ a ++ b) (y := c)).trans ?_
  rw [BitVec.getLsbD_append, BitVec.getLsbD_append]
  have e3 : i - 8 - 8 = i - 16 := by omega
  have e4 : i - 16 - 8 = i - 24 := by omega
  rw [e3, e4]
  by_cases h1 : i < 8
  · simp [h1]
  · by_cases h2 : i < 16
    · simp [h1, h2, show i - 8 < 8 by omega]
    · by_cases h3 : i < 24
      · simp [h1, h2, h3, show ¬ i - 8 < 8 by omega, show i - 16 < 8 by omega]
      · simp [h1, h2, h3, show ¬ i - 8 < 8 by omega, show ¬ i - 16 < 8 by omega]

theorem packCw_fields (cw : Word32) : packCw (cwOp cw) (cwA cw) (cwB cw) (cwC cw) = cw := by
  apply BitVec.eq_of_getLsbD_eq
  intro i h
  simp only [packCw_getLsbD, cwOp, cwA, cwB, cwC, BitVec.getLsbD_extractLsb']
  by_cases h1 : i < 8
  · simp [h1]
  · by_cases h2 : i < 16
    · simp [h1, h2, show 8 + (i - 8) = i by omega, show i - 8 < 8 by omega]
    · by_cases h3 : i < 24
      · simp [h1, h2, h3, show 16 + (i - 16) = i by omega, show i - 16 < 8 by omega]
      · simp [h1, h2, h3, show 24 + (i - 24) = i by omega, show i - 24 < 8 by omega]

@[simp] theorem cwC_packCw (op a b c : Byte) : cwC (packCw op a b c) = c := by
  ext i h
  rw [cwC, BitVec.getElem_extractLsb', packCw_getLsbD, if_pos (by omega), Nat.zero_add,
    BitVec.getLsbD_eq_getElem h]

@[simp] theorem cwB_packCw (op a b c : Byte) : cwB (packCw op a b c) = b := by
  ext i h
  rw [cwB, BitVec.getElem_extractLsb', packCw_getLsbD, if_neg (by omega), if_pos (by omega),
    Nat.add_sub_cancel_left, BitVec.getLsbD_eq_getElem h]

@[simp] theorem cwA_packCw (op a b c : Byte) : cwA (packCw op a b c) = a := by
  ext i h
  rw [cwA, BitVec.getElem_extractLsb', packCw_getLsbD, if_neg (by omega), if_neg (by omega),
    if_pos (by omega), Nat.add_sub_cancel_left, BitVec.getLsbD_eq_getElem h]

@[simp] theorem cwOp_packCw (op a b c : Byte) : cwOp (packCw op a b c) = op := by
  ext i h
  rw [cwOp, BitVec.getElem_extractLsb', packCw_getLsbD, if_neg (by omega), if_neg (by omega),
    if_neg (by omega), Nat.add_sub_cancel_left, BitVec.getLsbD_eq_getElem h]

end Sys2Proof
end

