-- ==== Sys2Proof/Laws/Constants.lean ====
section
/-! SUPPORT. The values of the named constants (R8 to R10), for rewriting. -/

namespace Sys2Proof.Config

@[simp] theorem minFrame_eq : minFrame = 8 := rfl
@[simp] theorem crcInitValue_eq : crcInitValue = 0xFFFF#16 := rfl
@[simp] theorem polyModbusReflected_eq : polyModbusReflected = 0xA001#16 := rfl
@[simp] theorem polyCcitt_eq : polyCcitt = 0x1021#16 := rfl
@[simp] theorem broadcast_eq : broadcast = 0x00#8 := rfl
@[simp] theorem quantum_eq : quantum = 60 := rfl
@[simp] theorem pageBytes_eq : pageBytes = 1024 := rfl
@[simp] theorem cfgPrimary_eq : cfgPrimary = 0 := rfl
@[simp] theorem cfgSecondary_eq : cfgSecondary = 1024 := rfl
@[simp] theorem statPage_eq : statPage = 0x1000 := rfl
@[simp] theorem slotBytes_eq : slotBytes = 4 := rfl
@[simp] theorem excFlag_eq : excFlag = 0x80#8 := rfl
@[simp] theorem fbCap_eq : fbCap = 256 := rfl
@[simp] theorem hdrBytes_eq : hdrBytes = 14 := rfl
@[simp] theorem hdrCrcSpan_eq : hdrCrcSpan = 12 := rfl
@[simp] theorem stCap_eq : stCap = 4294967296 := by decide

end Sys2Proof.Config
end

