-- ==== Sys2Proof/Laws/Memory.lean ====
section
/-! SUPPORT. The laws of the byte spaces: read after write, the canonical form kept by every operation, and
equal reads mean equal data. -/

namespace Sys2Proof.Machine

/-! ### The canonical form -/

theorem wfFrom_cons {size lo a : Nat} {b : Byte} {m : Memory} :
    Memory.wfFrom size lo ((a, b) :: m) = true ↔
      lo ≤ a ∧ a < size ∧ b ≠ 0#8 ∧ Memory.wfFrom size (a + 1) m = true := by
  simp [Memory.wfFrom, and_assoc]

/-- A lower bound may be lowered. -/
theorem wfFrom_mono {size lo lo' : Nat} {m : Memory} (h : lo' ≤ lo) (hm : Memory.wfFrom size lo m = true) :
    Memory.wfFrom size lo' m = true := by
  cases m with
  | nil => rfl
  | cons c m =>
    obtain ⟨a, b⟩ := c
    rw [wfFrom_cons] at hm ⊢
    exact ⟨le_trans h hm.1, hm.2⟩

/-- Below the first listed address every byte reads as 0. -/
theorem read_below {size lo a : Nat} {m : Memory} (hm : Memory.wfFrom size lo m = true) (h : a < lo) :
    Memory.read m a = 0#8 := by
  induction m generalizing lo with
  | nil => rfl
  | cons c m ih =>
    obtain ⟨x, b⟩ := c
    rw [wfFrom_cons] at hm
    rw [Memory.read, if_neg (by omega)]
    exact ih hm.2.2.2 (by omega)

/-- Outside the space every byte reads as 0. -/
theorem read_outside {size lo a : Nat} {m : Memory} (hm : Memory.wfFrom size lo m = true) (h : size ≤ a) :
    Memory.read m a = 0#8 := by
  induction m generalizing lo with
  | nil => rfl
  | cons c m ih =>
    obtain ⟨x, b⟩ := c
    rw [wfFrom_cons] at hm
    rw [Memory.read, if_neg (by omega)]
    exact ih hm.2.2.2

theorem write_wfFrom {size lo a : Nat} {b : Byte} {m : Memory} (hm : Memory.wfFrom size lo m = true)
    (hlo : lo ≤ a) (ha : a < size) : Memory.wfFrom size lo (Memory.write m a b) = true := by
  induction m generalizing lo with
  | nil => by_cases hb : b = 0#8 <;> simp [Memory.write, hb, Memory.wfFrom, hlo, ha]
  | cons c m ih =>
    obtain ⟨x, d⟩ := c
    rw [wfFrom_cons] at hm
    obtain ⟨h1, h2, h3, h4⟩ := hm
    rw [Memory.write]
    split
    · exact wfFrom_cons.2 ⟨h1, h2, h3, ih h4 (by omega)⟩
    · split
      · split
        · exact wfFrom_mono (by omega) h4
        · exact wfFrom_cons.2 ⟨hlo, ha, by assumption, wfFrom_mono (by omega) h4⟩
      · split
        · exact wfFrom_cons.2 ⟨h1, h2, h3, h4⟩
        · exact wfFrom_cons.2 ⟨hlo, ha, by assumption, wfFrom_cons.2 ⟨by omega, h2, h3, h4⟩⟩

/-- Writing one byte inside the space keeps the canonical form. -/
theorem write_wf {size a : Nat} {b : Byte} {m : Memory} (hm : Memory.wf size m = true) (ha : a < size) :
    Memory.wf size (Memory.write m a b) = true := write_wfFrom hm (Nat.zero_le a) ha

/-- Writing bytes inside the space keeps the canonical form. -/
theorem writeAll_wf {size a : Nat} {bs : List Byte} {m : Memory} (hm : Memory.wf size m = true)
    (ha : a + bs.length ≤ size) : Memory.wf size (Memory.writeAll m a bs) = true := by
  induction bs generalizing m a with
  | nil => exact hm
  | cons b bs ih =>
    rw [List.length_cons] at ha
    exact ih (write_wf hm (by omega)) (by omega)

/-! ### Read after write -/

theorem read_write_from {size lo a b' : Nat} {b : Byte} {m : Memory} (hm : Memory.wfFrom size lo m = true) :
    Memory.read (Memory.write m a b) b' = if b' = a then b else Memory.read m b' := by
  induction m generalizing lo with
  | nil =>
    by_cases hb : b = 0#8
    · simp [Memory.write, hb, Memory.read]
    · rw [Memory.write, if_neg hb]
      simp only [Memory.read, eq_comm]
  | cons c m ih =>
    obtain ⟨x, d⟩ := c
    rw [wfFrom_cons] at hm
    obtain ⟨h1, h2, h3, h4⟩ := hm
    rw [Memory.write]
    split
    · rename_i hx
      rw [Memory.read, Memory.read, ih h4]
      by_cases h : x = b'
      · rw [if_pos h, if_pos h, if_neg (by omega)]
      · rw [if_neg h, if_neg h]
    · split
      · rename_i hx he
        subst he
        by_cases hb : b = 0#8
        · rw [if_pos hb]
          by_cases h : b' = x
          · rw [if_pos h, h, hb]; exact read_below h4 (by omega)
          · rw [if_neg h, Memory.read, if_neg (fun e => h e.symm)]
        · rw [if_neg hb]
          by_cases h : b' = x
          · rw [if_pos h, Memory.read, if_pos h.symm]
          · rw [if_neg h, Memory.read, Memory.read, if_neg (fun e => h e.symm), if_neg (fun e => h e.symm)]
      · rename_i hx he
        by_cases hb : b = 0#8
        · rw [if_pos hb]
          by_cases h : b' = a
          · rw [if_pos h, h, hb]
            exact read_below (wfFrom_cons.2 ⟨le_refl x, h2, h3, h4⟩) (by omega)
          · rw [if_neg h]
        · rw [if_neg hb]
          by_cases h : b' = a
          · rw [if_pos h, Memory.read, if_pos h.symm]
          · rw [if_neg h, Memory.read, if_neg (fun e => h e.symm)]

/-- What a space reads after a byte is written: that byte there, the old byte everywhere else. -/
theorem read_write {size a x : Nat} {b : Byte} {m : Memory} (hm : Memory.wf size m = true) :
    Memory.read (Memory.write m a b) x = if x = a then b else Memory.read m x := read_write_from hm

/-- What a space reads after bytes are written: the byte of the string inside its range, the old byte outside. -/
theorem read_writeAll {size a x : Nat} {bs : List Byte} {m : Memory} (hm : Memory.wf size m = true)
    (ha : a + bs.length ≤ size) :
    Memory.read (Memory.writeAll m a bs) x =
      if a ≤ x ∧ x < a + bs.length then bs.getD (x - a) 0#8 else Memory.read m x := by
  induction bs generalizing m a with
  | nil => rw [if_neg (by rintro ⟨h1, h2⟩; simp at h2; omega)]; rfl
  | cons b bs ih =>
    rw [List.length_cons] at ha
    rw [Memory.writeAll, ih (write_wf hm (by omega)) (by omega), read_write hm, List.length_cons]
    by_cases h1 : x = a
    · subst h1
      rw [if_neg (by omega), if_pos rfl, if_pos (by omega)]
      simp
    · by_cases h2 : a ≤ x ∧ x < a + (bs.length + 1)
      · rw [if_pos (by omega), if_pos h2]
        obtain ⟨k, rfl⟩ : ∃ k, x = a + 1 + k := ⟨x - (a + 1), by omega⟩
        rw [Nat.add_sub_cancel_left, show a + 1 + k - a = k + 1 by omega, List.getD_cons_succ]
      · rw [if_neg (by omega), if_neg h1, if_neg h2]

/-! ### Slices -/

@[simp] theorem slice_length (m : Memory) (a n : Nat) : (Memory.slice m a n).length = n := by
  induction n generalizing a with
  | zero => rfl
  | succ n ih => simp [Memory.slice, ih]

theorem slice_getD (m : Memory) (a n i : Nat) (h : i < n) :
    (Memory.slice m a n).getD i 0#8 = Memory.read m (a + i) := by
  induction n generalizing a i with
  | zero => omega
  | succ n ih =>
    cases i with
    | zero => rfl
    | succ i => rw [Memory.slice, List.getD_cons_succ, ih _ _ (by omega), show a + 1 + i = a + (i + 1) by omega]

/-- A slice depends on the bytes read in its range only. -/
theorem slice_congr {m m' : Memory} {a n : Nat}
    (h : ∀ x, a ≤ x → x < a + n → Memory.read m x = Memory.read m' x) :
    Memory.slice m a n = Memory.slice m' a n := by
  induction n generalizing a with
  | zero => rfl
  | succ n ih =>
    rw [Memory.slice, Memory.slice, h a (le_refl a) (by omega), ih fun x h1 h2 => h x (by omega) (by omega)]

theorem slice_append (m : Memory) (a n k : Nat) :
    Memory.slice m a (n + k) = Memory.slice m a n ++ Memory.slice m (a + n) k := by
  induction n generalizing a with
  | zero => simp [Memory.slice]
  | succ n ih =>
    rw [show n + 1 + k = n + k + 1 by omega, Memory.slice, Memory.slice, ih, List.cons_append,
      show a + 1 + n = a + (n + 1) by omega]

/-- The bytes read back after a write of a string at its place. -/
theorem slice_writeAll {size a : Nat} {bs : List Byte} {m : Memory} (hm : Memory.wf size m = true)
    (ha : a + bs.length ≤ size) : Memory.slice (Memory.writeAll m a bs) a bs.length = bs := by
  apply List.ext_getElem (by simp)
  intro i h1 h2
  have hi : i < bs.length := h2
  have e := slice_getD (Memory.writeAll m a bs) a bs.length i hi
  rw [read_writeAll hm ha, if_pos (by omega), show a + i - a = i by omega] at e
  simpa [List.getD_eq_getElem?_getD, List.getElem?_eq_getElem h1, List.getElem?_eq_getElem h2] using e

/-- A write leaves every slice outside its range as it was. -/
theorem slice_writeAll_other {size a c n : Nat} {bs : List Byte} {m : Memory} (hm : Memory.wf size m = true)
    (ha : a + bs.length ≤ size) (h : c + n ≤ a ∨ a + bs.length ≤ c) :
    Memory.slice (Memory.writeAll m a bs) c n = Memory.slice m c n :=
  slice_congr fun x h1 h2 => by rw [read_writeAll hm ha, if_neg (by omega)]

/-! ### Equal reads, equal data -/

theorem wfFrom_ext {size lo : Nat} {m m' : Memory} (hm : Memory.wfFrom size lo m = true)
    (hm' : Memory.wfFrom size lo m' = true) (h : ∀ a, Memory.read m a = Memory.read m' a) : m = m' := by
  induction m generalizing m' lo with
  | nil =>
    cases m' with
    | nil => rfl
    | cons c m' =>
      obtain ⟨x, b⟩ := c
      have := h x
      rw [wfFrom_cons] at hm'
      simp only [Memory.read, if_true] at this
      exact absurd this.symm hm'.2.2.1
  | cons c m ih =>
    obtain ⟨x, b⟩ := c
    cases m' with
    | nil =>
      have := h x
      rw [wfFrom_cons] at hm
      simp only [Memory.read, if_true] at this
      exact absurd this hm.2.2.1
    | cons c' m' =>
      obtain ⟨y, d⟩ := c'
      have hm0 := hm
      have hm0' := hm'
      rw [wfFrom_cons] at hm hm'
      have hxy : x = y := by
        rcases Nat.lt_trichotomy x y with hlt | he | hgt
        · have e := h x
          rw [Memory.read, if_pos rfl, Memory.read, if_neg (by omega),
            read_below hm'.2.2.2 (by omega)] at e
          exact absurd e hm.2.2.1
        · exact he
        · have e := h y
          rw [Memory.read, if_neg (by omega), read_below hm.2.2.2 (by omega), Memory.read,
            if_pos rfl] at e
          exact absurd e.symm hm'.2.2.1
      subst hxy
      have hbd : b = d := by simpa [Memory.read] using h x
      subst hbd
      rw [ih hm.2.2.2 hm'.2.2.2 fun a => ?_]
      by_cases ha : x = a
      · subst ha
        rw [read_below hm.2.2.2 (by omega), read_below hm'.2.2.2 (by omega)]
      · simpa [Memory.read, ha] using h a

/-- Two spaces in canonical form that read alike are the same data. -/
theorem wf_ext {size : Nat} {m m' : Memory} (hm : Memory.wf size m = true) (hm' : Memory.wf size m' = true)
    (h : ∀ a, Memory.read m a = Memory.read m' a) : m = m' := wfFrom_ext hm hm' h

end Sys2Proof.Machine
end

