-- ==== Sys2Proof/Laws/State.lean ====
section
/-! SUPPORT. One lemma per field per named update of the state, each true by unfolding. -/

namespace Sys2Proof.Machine

variable (s : State)

/-! ### `State.answer` -/

@[simp] theorem answer_crc (st : Status) (v : Word32) : (s.answer st v).crc = s.crc := rfl
@[simp] theorem answer_crcAlg (st : Status) (v : Word32) : (s.answer st v).crcAlg = s.crcAlg := rfl
@[simp] theorem answer_slaveAddr (st : Status) (v : Word32) : (s.answer st v).slaveAddr = s.slaveAddr := rfl
@[simp] theorem answer_fbLen (st : Status) (v : Word32) : (s.answer st v).fbLen = s.fbLen := rfl
@[simp] theorem answer_rKind (st : Status) (v : Word32) : (s.answer st v).rKind = s.rKind := rfl
@[simp] theorem answer_rSlave (st : Status) (v : Word32) : (s.answer st v).rSlave = s.rSlave := rfl
@[simp] theorem answer_rFunc (st : Status) (v : Word32) : (s.answer st v).rFunc = s.rFunc := rfl
@[simp] theorem answer_rAddr (st : Status) (v : Word32) : (s.answer st v).rAddr = s.rAddr := rfl
@[simp] theorem answer_rQty (st : Status) (v : Word32) : (s.answer st v).rQty = s.rQty := rfl
@[simp] theorem answer_rBc (st : Status) (v : Word32) : (s.answer st v).rBc = s.rBc := rfl
@[simp] theorem answer_capacity (st : Status) (v : Word32) : (s.answer st v).capacity = s.capacity := rfl
@[simp] theorem answer_elementSize (st : Status) (v : Word32) : (s.answer st v).elementSize = s.elementSize := rfl
@[simp] theorem answer_hSize (st : Status) (v : Word32) : (s.answer st v).hSize = s.hSize := rfl
@[simp] theorem answer_hOff (st : Status) (v : Word32) : (s.answer st v).hOff = s.hOff := rfl
@[simp] theorem answer_hTime (st : Status) (v : Word32) : (s.answer st v).hTime = s.hTime := rfl
@[simp] theorem answer_hCrc (st : Status) (v : Word32) : (s.answer st v).hCrc = s.hCrc := rfl
@[simp] theorem answer_loaded (st : Status) (v : Word32) : (s.answer st v).loaded = s.loaded := rfl
@[simp] theorem answer_crcOk (st : Status) (v : Word32) : (s.answer st v).crcOk = s.crcOk := rfl
@[simp] theorem answer_fb (st : Status) (v : Word32) : (s.answer st v).fb = s.fb := rfl
@[simp] theorem answer_hb (st : Status) (v : Word32) : (s.answer st v).hb = s.hb := rfl
@[simp] theorem answer_resp (st : Status) (v : Word32) : (s.answer st v).resp = some ⟨st, v⟩ := rfl
@[simp] theorem answer_pending (st : Status) (v : Word32) : (s.answer st v).pending = s.pending := rfl
@[simp] theorem answer_storage (st : Status) (v : Word32) : (s.answer st v).storage = s.storage := rfl
@[simp] theorem answer_io (st : Status) (v : Word32) : (s.answer st v).io = s.io := rfl
@[simp] theorem answer_params (st : Status) (v : Word32) : (s.answer st v).params = s.params := rfl

/-! ### `State.setFrame` -/

@[simp] theorem setFrame_crc (m : Memory) (n : BitVec 9) : (s.setFrame m n).crc = s.crc := rfl
@[simp] theorem setFrame_crcAlg (m : Memory) (n : BitVec 9) : (s.setFrame m n).crcAlg = s.crcAlg := rfl
@[simp] theorem setFrame_slaveAddr (m : Memory) (n : BitVec 9) : (s.setFrame m n).slaveAddr = s.slaveAddr := rfl
@[simp] theorem setFrame_fbLen (m : Memory) (n : BitVec 9) : (s.setFrame m n).fbLen = n := rfl
@[simp] theorem setFrame_rKind (m : Memory) (n : BitVec 9) : (s.setFrame m n).rKind = 0 := rfl
@[simp] theorem setFrame_rSlave (m : Memory) (n : BitVec 9) : (s.setFrame m n).rSlave = s.rSlave := rfl
@[simp] theorem setFrame_rFunc (m : Memory) (n : BitVec 9) : (s.setFrame m n).rFunc = s.rFunc := rfl
@[simp] theorem setFrame_rAddr (m : Memory) (n : BitVec 9) : (s.setFrame m n).rAddr = s.rAddr := rfl
@[simp] theorem setFrame_rQty (m : Memory) (n : BitVec 9) : (s.setFrame m n).rQty = s.rQty := rfl
@[simp] theorem setFrame_rBc (m : Memory) (n : BitVec 9) : (s.setFrame m n).rBc = s.rBc := rfl
@[simp] theorem setFrame_capacity (m : Memory) (n : BitVec 9) : (s.setFrame m n).capacity = s.capacity := rfl
@[simp] theorem setFrame_elementSize (m : Memory) (n : BitVec 9) : (s.setFrame m n).elementSize = s.elementSize := rfl
@[simp] theorem setFrame_hSize (m : Memory) (n : BitVec 9) : (s.setFrame m n).hSize = s.hSize := rfl
@[simp] theorem setFrame_hOff (m : Memory) (n : BitVec 9) : (s.setFrame m n).hOff = s.hOff := rfl
@[simp] theorem setFrame_hTime (m : Memory) (n : BitVec 9) : (s.setFrame m n).hTime = s.hTime := rfl
@[simp] theorem setFrame_hCrc (m : Memory) (n : BitVec 9) : (s.setFrame m n).hCrc = s.hCrc := rfl
@[simp] theorem setFrame_loaded (m : Memory) (n : BitVec 9) : (s.setFrame m n).loaded = s.loaded := rfl
@[simp] theorem setFrame_crcOk (m : Memory) (n : BitVec 9) : (s.setFrame m n).crcOk = s.crcOk := rfl
@[simp] theorem setFrame_fb (m : Memory) (n : BitVec 9) : (s.setFrame m n).fb = m := rfl
@[simp] theorem setFrame_hb (m : Memory) (n : BitVec 9) : (s.setFrame m n).hb = s.hb := rfl
@[simp] theorem setFrame_resp (m : Memory) (n : BitVec 9) : (s.setFrame m n).resp = s.resp := rfl
@[simp] theorem setFrame_pending (m : Memory) (n : BitVec 9) : (s.setFrame m n).pending = s.pending := rfl
@[simp] theorem setFrame_storage (m : Memory) (n : BitVec 9) : (s.setFrame m n).storage = s.storage := rfl
@[simp] theorem setFrame_io (m : Memory) (n : BitVec 9) : (s.setFrame m n).io = s.io := rfl
@[simp] theorem setFrame_params (m : Memory) (n : BitVec 9) : (s.setFrame m n).params = s.params := rfl

/-! ### `State.setHeader` -/

@[simp] theorem setHeader_crc (size off time : Word32) : (s.setHeader size off time).crc = s.crc := rfl
@[simp] theorem setHeader_crcAlg (size off time : Word32) : (s.setHeader size off time).crcAlg = s.crcAlg := rfl
@[simp] theorem setHeader_slaveAddr (size off time : Word32) : (s.setHeader size off time).slaveAddr = s.slaveAddr := rfl
@[simp] theorem setHeader_fbLen (size off time : Word32) : (s.setHeader size off time).fbLen = s.fbLen := rfl
@[simp] theorem setHeader_rKind (size off time : Word32) : (s.setHeader size off time).rKind = s.rKind := rfl
@[simp] theorem setHeader_rSlave (size off time : Word32) : (s.setHeader size off time).rSlave = s.rSlave := rfl
@[simp] theorem setHeader_rFunc (size off time : Word32) : (s.setHeader size off time).rFunc = s.rFunc := rfl
@[simp] theorem setHeader_rAddr (size off time : Word32) : (s.setHeader size off time).rAddr = s.rAddr := rfl
@[simp] theorem setHeader_rQty (size off time : Word32) : (s.setHeader size off time).rQty = s.rQty := rfl
@[simp] theorem setHeader_rBc (size off time : Word32) : (s.setHeader size off time).rBc = s.rBc := rfl
@[simp] theorem setHeader_capacity (size off time : Word32) : (s.setHeader size off time).capacity = s.capacity := rfl
@[simp] theorem setHeader_elementSize (size off time : Word32) : (s.setHeader size off time).elementSize = s.elementSize := rfl
@[simp] theorem setHeader_hSize (size off time : Word32) : (s.setHeader size off time).hSize = size := rfl
@[simp] theorem setHeader_hOff (size off time : Word32) : (s.setHeader size off time).hOff = off := rfl
@[simp] theorem setHeader_hTime (size off time : Word32) : (s.setHeader size off time).hTime = time := rfl
@[simp] theorem setHeader_hCrc (size off time : Word32) : (s.setHeader size off time).hCrc = s.hCrc := rfl
@[simp] theorem setHeader_loaded (size off time : Word32) : (s.setHeader size off time).loaded = s.loaded := rfl
@[simp] theorem setHeader_crcOk (size off time : Word32) : (s.setHeader size off time).crcOk = s.crcOk := rfl
@[simp] theorem setHeader_fb (size off time : Word32) : (s.setHeader size off time).fb = s.fb := rfl
@[simp] theorem setHeader_hb (size off time : Word32) : (s.setHeader size off time).hb = s.hb := rfl
@[simp] theorem setHeader_resp (size off time : Word32) : (s.setHeader size off time).resp = s.resp := rfl
@[simp] theorem setHeader_pending (size off time : Word32) : (s.setHeader size off time).pending = s.pending := rfl
@[simp] theorem setHeader_storage (size off time : Word32) : (s.setHeader size off time).storage = s.storage := rfl
@[simp] theorem setHeader_io (size off time : Word32) : (s.setHeader size off time).io = s.io := rfl
@[simp] theorem setHeader_params (size off time : Word32) : (s.setHeader size off time).params = s.params := rfl

/-! ### `State.setFlags` -/

@[simp] theorem setFlags_crc (l c : Bool) : (s.setFlags l c).crc = s.crc := rfl
@[simp] theorem setFlags_crcAlg (l c : Bool) : (s.setFlags l c).crcAlg = s.crcAlg := rfl
@[simp] theorem setFlags_slaveAddr (l c : Bool) : (s.setFlags l c).slaveAddr = s.slaveAddr := rfl
@[simp] theorem setFlags_fbLen (l c : Bool) : (s.setFlags l c).fbLen = s.fbLen := rfl
@[simp] theorem setFlags_rKind (l c : Bool) : (s.setFlags l c).rKind = s.rKind := rfl
@[simp] theorem setFlags_rSlave (l c : Bool) : (s.setFlags l c).rSlave = s.rSlave := rfl
@[simp] theorem setFlags_rFunc (l c : Bool) : (s.setFlags l c).rFunc = s.rFunc := rfl
@[simp] theorem setFlags_rAddr (l c : Bool) : (s.setFlags l c).rAddr = s.rAddr := rfl
@[simp] theorem setFlags_rQty (l c : Bool) : (s.setFlags l c).rQty = s.rQty := rfl
@[simp] theorem setFlags_rBc (l c : Bool) : (s.setFlags l c).rBc = s.rBc := rfl
@[simp] theorem setFlags_capacity (l c : Bool) : (s.setFlags l c).capacity = s.capacity := rfl
@[simp] theorem setFlags_elementSize (l c : Bool) : (s.setFlags l c).elementSize = s.elementSize := rfl
@[simp] theorem setFlags_hSize (l c : Bool) : (s.setFlags l c).hSize = s.hSize := rfl
@[simp] theorem setFlags_hOff (l c : Bool) : (s.setFlags l c).hOff = s.hOff := rfl
@[simp] theorem setFlags_hTime (l c : Bool) : (s.setFlags l c).hTime = s.hTime := rfl
@[simp] theorem setFlags_hCrc (l c : Bool) : (s.setFlags l c).hCrc = s.hCrc := rfl
@[simp] theorem setFlags_loaded (l c : Bool) : (s.setFlags l c).loaded = l := rfl
@[simp] theorem setFlags_crcOk (l c : Bool) : (s.setFlags l c).crcOk = c := rfl
@[simp] theorem setFlags_fb (l c : Bool) : (s.setFlags l c).fb = s.fb := rfl
@[simp] theorem setFlags_hb (l c : Bool) : (s.setFlags l c).hb = s.hb := rfl
@[simp] theorem setFlags_resp (l c : Bool) : (s.setFlags l c).resp = s.resp := rfl
@[simp] theorem setFlags_pending (l c : Bool) : (s.setFlags l c).pending = s.pending := rfl
@[simp] theorem setFlags_storage (l c : Bool) : (s.setFlags l c).storage = s.storage := rfl
@[simp] theorem setFlags_io (l c : Bool) : (s.setFlags l c).io = s.io := rfl
@[simp] theorem setFlags_params (l c : Bool) : (s.setFlags l c).params = s.params := rfl

/-! ### `State.resetBlock` -/

@[simp] theorem resetBlock_crc : (s.resetBlock).crc = State.reset.crc := rfl
@[simp] theorem resetBlock_crcAlg : (s.resetBlock).crcAlg = State.reset.crcAlg := rfl
@[simp] theorem resetBlock_slaveAddr : (s.resetBlock).slaveAddr = State.reset.slaveAddr := rfl
@[simp] theorem resetBlock_fbLen : (s.resetBlock).fbLen = State.reset.fbLen := rfl
@[simp] theorem resetBlock_rKind : (s.resetBlock).rKind = State.reset.rKind := rfl
@[simp] theorem resetBlock_rSlave : (s.resetBlock).rSlave = State.reset.rSlave := rfl
@[simp] theorem resetBlock_rFunc : (s.resetBlock).rFunc = State.reset.rFunc := rfl
@[simp] theorem resetBlock_rAddr : (s.resetBlock).rAddr = State.reset.rAddr := rfl
@[simp] theorem resetBlock_rQty : (s.resetBlock).rQty = State.reset.rQty := rfl
@[simp] theorem resetBlock_rBc : (s.resetBlock).rBc = State.reset.rBc := rfl
@[simp] theorem resetBlock_capacity : (s.resetBlock).capacity = State.reset.capacity := rfl
@[simp] theorem resetBlock_elementSize : (s.resetBlock).elementSize = State.reset.elementSize := rfl
@[simp] theorem resetBlock_hSize : (s.resetBlock).hSize = State.reset.hSize := rfl
@[simp] theorem resetBlock_hOff : (s.resetBlock).hOff = State.reset.hOff := rfl
@[simp] theorem resetBlock_hTime : (s.resetBlock).hTime = State.reset.hTime := rfl
@[simp] theorem resetBlock_hCrc : (s.resetBlock).hCrc = State.reset.hCrc := rfl
@[simp] theorem resetBlock_loaded : (s.resetBlock).loaded = State.reset.loaded := rfl
@[simp] theorem resetBlock_crcOk : (s.resetBlock).crcOk = State.reset.crcOk := rfl
@[simp] theorem resetBlock_fb : (s.resetBlock).fb = State.reset.fb := rfl
@[simp] theorem resetBlock_hb : (s.resetBlock).hb = State.reset.hb := rfl
@[simp] theorem resetBlock_resp : (s.resetBlock).resp = s.resp := rfl
@[simp] theorem resetBlock_pending : (s.resetBlock).pending = s.pending := rfl
@[simp] theorem resetBlock_storage : (s.resetBlock).storage = s.storage := rfl
@[simp] theorem resetBlock_io : (s.resetBlock).io = s.io := rfl
@[simp] theorem resetBlock_params : (s.resetBlock).params = s.params := rfl

/-! ### `State.powerOn` -/

@[simp] theorem powerOn_crc : (s.powerOn).crc = State.reset.crc := rfl
@[simp] theorem powerOn_crcAlg : (s.powerOn).crcAlg = State.reset.crcAlg := rfl
@[simp] theorem powerOn_slaveAddr : (s.powerOn).slaveAddr = State.reset.slaveAddr := rfl
@[simp] theorem powerOn_fbLen : (s.powerOn).fbLen = State.reset.fbLen := rfl
@[simp] theorem powerOn_rKind : (s.powerOn).rKind = State.reset.rKind := rfl
@[simp] theorem powerOn_rSlave : (s.powerOn).rSlave = State.reset.rSlave := rfl
@[simp] theorem powerOn_rFunc : (s.powerOn).rFunc = State.reset.rFunc := rfl
@[simp] theorem powerOn_rAddr : (s.powerOn).rAddr = State.reset.rAddr := rfl
@[simp] theorem powerOn_rQty : (s.powerOn).rQty = State.reset.rQty := rfl
@[simp] theorem powerOn_rBc : (s.powerOn).rBc = State.reset.rBc := rfl
@[simp] theorem powerOn_capacity : (s.powerOn).capacity = State.reset.capacity := rfl
@[simp] theorem powerOn_elementSize : (s.powerOn).elementSize = State.reset.elementSize := rfl
@[simp] theorem powerOn_hSize : (s.powerOn).hSize = State.reset.hSize := rfl
@[simp] theorem powerOn_hOff : (s.powerOn).hOff = State.reset.hOff := rfl
@[simp] theorem powerOn_hTime : (s.powerOn).hTime = State.reset.hTime := rfl
@[simp] theorem powerOn_hCrc : (s.powerOn).hCrc = State.reset.hCrc := rfl
@[simp] theorem powerOn_loaded : (s.powerOn).loaded = State.reset.loaded := rfl
@[simp] theorem powerOn_crcOk : (s.powerOn).crcOk = State.reset.crcOk := rfl
@[simp] theorem powerOn_fb : (s.powerOn).fb = State.reset.fb := rfl
@[simp] theorem powerOn_hb : (s.powerOn).hb = State.reset.hb := rfl
@[simp] theorem powerOn_resp : (s.powerOn).resp = none := rfl
@[simp] theorem powerOn_pending : (s.powerOn).pending = s.pending := rfl
@[simp] theorem powerOn_storage : (s.powerOn).storage = s.storage := rfl
@[simp] theorem powerOn_io : (s.powerOn).io = s.io := rfl
@[simp] theorem powerOn_params : (s.powerOn).params = s.params := rfl

/-! ### Reads that an answer leaves alone -/

@[simp] theorem answer_frame (st : Status) (v : Word32) (n : Nat) : (s.answer st v).frame n = s.frame n := rfl
@[simp] theorem answer_image (st : Status) (v : Word32) : (s.answer st v).image = s.image := rfl
@[simp] theorem answer_hFlags (st : Status) (v : Word32) : (s.answer st v).hFlags = s.hFlags := rfl
@[simp] theorem answer_invOk (st : Status) (v : Word32) : (s.answer st v).invOk = s.invOk := rfl
@[simp] theorem answer_configured (st : Status) (v : Word32) : (s.answer st v).configured = s.configured := rfl
@[simp] theorem answer_frameField (st : Status) (v : Word32) (i : Nat) :
    (s.answer st v).frameField i = s.frameField i := rfl

/-- The latest response after an answer. -/
@[simp] theorem answer_lastOk (st : Status) (v : Word32) : (s.answer st v).lastOk = decide (st = .ok) := rfl

end Sys2Proof.Machine
end

