-- ==== Sys2Proof/Laws/Ops.lean ====
section
/-! SUPPORT. For each shared operation, what it can do, said once. -/

namespace Sys2Proof.Machine

/-! ### Answers -/

@[simp] theorem respond_eq (v : Word32) (s : State) : respond v s = .next (s.answer .ok v) := rfl
@[simp] theorem raise_eq (st : Status) (s : State) : raise st s = .next (s.answer st 0) := rfl
@[simp] theorem raiseException_eq (c : Byte) (s : State) :
    raiseException c s = .next (s.answer .exception (c.setWidth 32)) := rfl

/-! ### Preconditions (R168) -/

/-- With the unit configured, the command's own effect; otherwise `Uninitialized`. -/
theorem requireConfigured_cases (k : State → Out) (s : State) :
    (s.configured = true ∧ requireConfigured k s = k s) ∨
      (s.configured = false ∧ requireConfigured k s = .next (s.answer .uninitialized 0)) := by
  cases h : s.configured
  · exact .inr ⟨rfl, by simp [requireConfigured, h]⟩
  · exact .inl ⟨rfl, by simp [requireConfigured, h]⟩

/-- With the unit configured and loaded, the command's own effect; otherwise `Uninitialized`. -/
theorem requireLoaded_cases (k : State → Out) (s : State) :
    (s.configured = true ∧ s.loaded = true ∧ requireLoaded k s = k s) ∨
      ((s.configured = false ∨ s.loaded = false) ∧ requireLoaded k s = .next (s.answer .uninitialized 0)) := by
  cases h : s.configured
  · exact .inr ⟨.inl rfl, by simp [requireLoaded, requireConfigured, h]⟩
  · cases hl : s.loaded
    · exact .inr ⟨.inr rfl, by simp [requireLoaded, requireConfigured, h, hl]⟩
    · exact .inl ⟨rfl, rfl, by simp [requireLoaded, requireConfigured, h, hl]⟩

theorem configured_iff (s : State) : s.configured = true ↔ s.capacity ≠ 0 ∧ s.elementSize ≠ 0 := by
  simp [State.configured]

/-! ### Sequences (R87) -/

@[simp] theorem seqOk_nil (s : State) : seqOk [] s = .next s := rfl

/-- What a sequence does after a first command that answered. -/
theorem seqOk_cons {m : State → Out} {ms : List (State → Out)} {s t : State} (h : m s = .next t) :
    seqOk (m :: ms) s = if t.lastOk then seqOk ms t else .next t := by
  simp [seqOk, h]

/-- A sequence that answers: its first command answered, and either with `Ok`, and the rest answered, or not,
and the sequence stopped there. -/
theorem seqOk_next {m : State → Out} {ms : List (State → Out)} {s t : State} (h : seqOk (m :: ms) s = .next t) :
    ∃ u, m s = .next u ∧ ((u.lastOk = true ∧ seqOk ms u = .next t) ∨ (u.lastOk = false ∧ t = u)) := by
  cases hm : m s with
  | next u =>
    rw [seqOk_cons hm] at h
    cases hu : u.lastOk
    · rw [hu] at h
      exact ⟨u, rfl, .inr ⟨hu, by simpa using h.symm⟩⟩
    · rw [hu] at h
      exact ⟨u, rfl, .inl ⟨hu, h⟩⟩
  | fault f => simp [seqOk, hm] at h
  | refused r => simp [seqOk, hm] at h

/-- A property that every command of a sequence keeps, the sequence keeps. -/
theorem seqOk_keeps {P : State → Prop} {ms : List (State → Out)}
    (hk : ∀ m ∈ ms, ∀ s t, P s → m s = .next t → P t) {s t : State} (hs : P s) (h : seqOk ms s = .next t) :
    P t := by
  induction ms generalizing s with
  | nil =>
    cases h
    exact hs
  | cons m ms ih =>
    obtain ⟨u, hm, ⟨_, hr⟩ | ⟨_, rfl⟩⟩ := seqOk_next h
    · exact ih (fun m' h' => hk m' (List.mem_cons_of_mem _ h')) (hk m List.mem_cons_self s u hs hm) hr
    · exact hk m List.mem_cons_self s t hs hm

/-- A sequence whose commands all answer, from a property that they keep, answers. -/
theorem seqOk_answers {P : State → Prop} {ms : List (State → Out)}
    (hk : ∀ m ∈ ms, ∀ s, P s → ∃ t, m s = .next t ∧ P t) {s : State} (hs : P s) :
    ∃ t, seqOk ms s = .next t ∧ P t := by
  induction ms generalizing s with
  | nil => exact ⟨s, rfl, hs⟩
  | cons m ms ih =>
    obtain ⟨u, hm, hu⟩ := hk m List.mem_cons_self s hs
    rw [seqOk_cons hm]
    cases u.lastOk
    · exact ⟨u, rfl, hu⟩
    · exact ih (fun m' h' => hk m' (List.mem_cons_of_mem _ h')) hu

/-! ### Frames -/

@[simp] theorem frame_length (s : State) (n : Nat) : (s.frame n).length = n := slice_length s.fb 0 n
@[simp] theorem image_length (s : State) : s.image.length = 14 := slice_length s.hb 0 14

/-- `FB.PUSH` below the end of the buffer. -/
theorem execFbPush_room {s : State} (b : Byte) (h : s.fbLen.toNat < 256) :
    execFbPush b s =
      .next ((s.setFrame (Memory.write s.fb s.fbLen.toNat b) (s.fbLen + 1)).answer .ok 0) := by
  rw [execFbPush, if_neg (by rw [Config.fbCap_eq]; omega), if_neg (by rw [Config.fbCap_eq]; omega)]
  rfl

/-- Pushes that all fit: the bytes stand at the old length, the length grows by their number. -/
theorem pushes_append {bs : List Byte} {s : State} {ms : List (State → Out)}
    (h : s.fbLen.toNat + bs.length ≤ 256) (hne : bs ≠ []) :
    seqOk (bs.map execFbPush ++ ms) s =
      seqOk ms ((s.setFrame (Memory.writeAll s.fb s.fbLen.toNat bs)
        (BitVec.ofNat 9 (s.fbLen.toNat + bs.length))).answer .ok 0) := by
  induction bs generalizing s with
  | nil => exact absurd rfl hne
  | cons b bs ih =>
    rw [List.length_cons] at h
    rw [List.map_cons, List.cons_append, seqOk_cons (execFbPush_room b (by omega))]
    simp only [answer_lastOk, decide_true, if_true]
    have hl : (s.fbLen + 1).toNat = s.fbLen.toNat + 1 := by
      rw [BitVec.toNat_add]
      show (s.fbLen.toNat + 1) % 2 ^ 9 = s.fbLen.toNat + 1
      omega
    by_cases hb : bs = []
    · subst hb
      have e : s.fbLen + 1 = BitVec.ofNat 9 (s.fbLen.toNat + 1) := by
        apply BitVec.eq_of_toNat_eq
        rw [hl, BitVec.toNat_ofNat]
        omega
      rw [List.length_singleton, ← e]
      rfl
    · rw [ih (by simp only [answer_fbLen, setFrame_fbLen, hl]; omega) hb]
      simp only [answer_fbLen, setFrame_fbLen, answer_fb, setFrame_fb, hl, List.length_cons]
      rw [show s.fbLen.toNat + 1 + bs.length = s.fbLen.toNat + (bs.length + 1) by omega]
      rfl

/-- `FB.LOAD` of one to 256 bytes: they stand at index 0, and nothing but `fb`, `FB_LEN` and `R_KIND` changes. -/
theorem loadFrame_then {bs : List Byte} {s : State} {ms : List (State → Out)}
    (h : bs.length ≤ 256) (hne : bs ≠ []) :
    seqOk (loadFrame bs ++ ms) s =
      seqOk ms ((s.setFrame (Memory.writeAll s.fb 0 bs) (BitVec.ofNat 9 bs.length)).answer .ok 0) := by
  have he : execFbClr s = .next ((s.setFrame s.fb 0).answer .ok 0) := rfl
  rw [loadFrame, List.cons_append, seqOk_cons he]
  simp only [answer_lastOk, decide_true, if_true]
  rw [pushes_append (by simpa using h) hne]
  simp [State.setFrame, State.answer]

/-- Writes of the image buffer from an index on, all inside it. -/
theorem hbWrites_then {bs : List Byte} {s : State} {i : Nat} (h : i + bs.length ≤ 14) (hne : bs ≠ []) :
    seqOk (hbWrites i bs) s = .next ({ s with hb := Memory.writeAll s.hb i bs }.answer .ok 0) := by
  induction bs generalizing s i with
  | nil => exact absurd rfl hne
  | cons b bs ih =>
    rw [List.length_cons] at h
    have hi : (BitVec.ofNat 8 i).toNat = i := by
      rw [BitVec.toNat_ofNat]
      omega
    have he : execHbWr (BitVec.ofNat 8 i) b s =
        .next ({ s with hb := Memory.write s.hb i b }.answer .ok 0) := by
      rw [execHbWr, hi, if_neg (by rw [Config.hdrBytes_eq]; omega)]
      rfl
    rw [hbWrites, seqOk_cons he]
    simp only [answer_lastOk, decide_true, if_true]
    by_cases hb : bs = []
    · subst hb
      rfl
    · rw [ih (by omega) hb]
      rfl

/-! ### Registers -/

/-- A register's number selects it (R21). -/
@[simp] theorem regOfNumber_number (r : Reg) : regOfNumber r.number = some r := by
  cases r <;> rfl

/-- A number selects a register exactly when it is at most 0x10 (R21). -/
theorem regOfNumber_isSome (n : Byte) : (regOfNumber n).isSome = true ↔ n.toNat ≤ 0x10 := by
  revert n
  decide

end Sys2Proof.Machine
end

