-- ==== Sys2Proof/Laws/PerInstr.lean ====
section
/-! SUPPORT. What is said of every instruction as syntax: the input that encodes it has the shape of its row of
the opcode table. -/

namespace Sys2Proof.Laws

open Sys2Proof.Machine

/-! ### Command words and the table's 64-bit patterns -/

/-- The conjunction of packed words is the packed word of the conjunctions. -/
theorem pack_and (op a b c op' a' b' c' : Byte) (v v' : Word32) :
    (packCw op a b c ++ v) &&& (packCw op' a' b' c' ++ v') =
      packCw (op &&& op') (a &&& a') (b &&& b') (c &&& c') ++ (v &&& v') := by
  apply BitVec.eq_of_getLsbD_eq
  intro i _
  simp only [BitVec.getLsbD_and, BitVec.getLsbD_append, packCw_getLsbD]
  split_ifs <;> rfl

/-- A word fits a row whose pattern and mask are packed words, if each field does. -/
theorem fits_pack {n : String} {op a b c mo ma mb mc po pa pb pc : Byte} {v mv pv : Word32} {p m : BitVec 64}
    (hm : m = packCw mo ma mb mc ++ mv) (hp : p = packCw po pa pb pc ++ pv)
    (h : op &&& mo = po ∧ a &&& ma = pa ∧ b &&& mb = pb ∧ c &&& mc = pc ∧ v &&& mv = pv) :
    TableRow.fits ⟨n, p, m⟩ (packCw op a b c) v = true := by
  obtain ⟨h1, h2, h3, h4, h5⟩ := h
  simp only [TableRow.fits, hm, hp, pack_and, h1, h2, h3, h4, h5, decide_true]

namespace WritesItsRow

/-- A well-formed instruction is encoded by an input of its row's shape. -/
def Statement (i : Instr) : Prop := i.wellFormed = true → fitsRow i (encode i)

theorem regRd (r : Byte) : Statement (.regRd r) := fun _ =>
  ⟨⟨"REG.RD", 0x0100000000000000#64, 0xFFFFFF00FFFFFFFF#64⟩, by simp [commandTable], rfl,
    fits_pack (mo := 0xff) (ma := 0xff) (mb := 0xff) (mc := 0x00) (mv := 0xffffffff)
      (po := 0x01) (pa := 0x00) (pb := 0x00) (pc := 0x00) (pv := 0x00000000)
      (by decide) (by decide) (by simp)⟩

theorem regWr (r : Byte) (v : Word32) : Statement (.regWr r v) := fun _ =>
  ⟨⟨"REG.WR", 0x0200000000000000#64, 0xFFFFFF0000000000#64⟩, by simp [commandTable], rfl,
    fits_pack (mo := 0xff) (ma := 0xff) (mb := 0xff) (mc := 0x00) (mv := 0x00000000)
      (po := 0x02) (pa := 0x00) (pb := 0x00) (pc := 0x00) (pv := 0x00000000)
      (by decide) (by decide) (by simp)⟩

theorem crcInit (alg : Byte) : Statement (.crcInit alg) := fun _ =>
  ⟨⟨"CRC.INIT", 0x1000000000000000#64, 0xFFFFFF00FFFFFFFF#64⟩, by simp [commandTable], rfl,
    fits_pack (mo := 0xff) (ma := 0xff) (mb := 0xff) (mc := 0x00) (mv := 0xffffffff)
      (po := 0x10) (pa := 0x00) (pb := 0x00) (pc := 0x00) (pv := 0x00000000)
      (by decide) (by decide) (by simp)⟩

theorem crcUpd (b : Byte) : Statement (.crcUpd b) := fun _ =>
  ⟨⟨"CRC.UPD", 0x1100000000000000#64, 0xFFFFFF00FFFFFFFF#64⟩, by simp [commandTable], rfl,
    fits_pack (mo := 0xff) (ma := 0xff) (mb := 0xff) (mc := 0x00) (mv := 0xffffffff)
      (po := 0x11) (pa := 0x00) (pb := 0x00) (pc := 0x00) (pv := 0x00000000)
      (by decide) (by decide) (by simp)⟩

theorem fbClr : Statement .fbClr := fun _ =>
  ⟨⟨"FB.CLR", 0x2000000000000000#64, 0xFFFFFFFFFFFFFFFF#64⟩, by simp [commandTable], rfl,
    fits_pack (mo := 0xff) (ma := 0xff) (mb := 0xff) (mc := 0xff) (mv := 0xffffffff)
      (po := 0x20) (pa := 0x00) (pb := 0x00) (pc := 0x00) (pv := 0x00000000)
      (by decide) (by decide) (by simp)⟩

theorem fbPush (b : Byte) : Statement (.fbPush b) := fun _ =>
  ⟨⟨"FB.PUSH", 0x2100000000000000#64, 0xFFFFFF00FFFFFFFF#64⟩, by simp [commandTable], rfl,
    fits_pack (mo := 0xff) (ma := 0xff) (mb := 0xff) (mc := 0x00) (mv := 0xffffffff)
      (po := 0x21) (pa := 0x00) (pb := 0x00) (pc := 0x00) (pv := 0x00000000)
      (by decide) (by decide) (by simp)⟩

theorem fbRd (i : Byte) : Statement (.fbRd i) := fun _ =>
  ⟨⟨"FB.RD", 0x2200000000000000#64, 0xFFFFFF00FFFFFFFF#64⟩, by simp [commandTable], rfl,
    fits_pack (mo := 0xff) (ma := 0xff) (mb := 0xff) (mc := 0x00) (mv := 0xffffffff)
      (po := 0x22) (pa := 0x00) (pb := 0x00) (pc := 0x00) (pv := 0x00000000)
      (by decide) (by decide) (by simp)⟩

theorem rxParse : Statement .rxParse := fun _ =>
  ⟨⟨"RX.PARSE", 0x2300000000000000#64, 0xFFFFFFFFFFFFFFFF#64⟩, by simp [commandTable], rfl,
    fits_pack (mo := 0xff) (ma := 0xff) (mb := 0xff) (mc := 0xff) (mv := 0xffffffff)
      (po := 0x23) (pa := 0x00) (pb := 0x00) (pc := 0x00) (pv := 0x00000000)
      (by decide) (by decide) (by simp)⟩

theorem txBegin (slave func : Byte) : Statement (.txBegin slave func) := fun _ =>
  ⟨⟨"TX.BEGIN", 0x2800000000000000#64, 0xFF0000FFFFFFFFFF#64⟩, by simp [commandTable], rfl,
    fits_pack (mo := 0xff) (ma := 0x00) (mb := 0x00) (mc := 0xff) (mv := 0xffffffff)
      (po := 0x28) (pa := 0x00) (pb := 0x00) (pc := 0x00) (pv := 0x00000000)
      (by decide) (by decide) (by simp)⟩

theorem txSeal : Statement .txSeal := fun _ =>
  ⟨⟨"TX.SEAL", 0x2900000000000000#64, 0xFFFFFFFFFFFFFFFF#64⟩, by simp [commandTable], rfl,
    fits_pack (mo := 0xff) (ma := 0xff) (mb := 0xff) (mc := 0xff) (mv := 0xffffffff)
      (po := 0x29) (pa := 0x00) (pb := 0x00) (pc := 0x00) (pv := 0x00000000)
      (by decide) (by decide) (by simp)⟩

theorem txExc (slave func code : Byte) : Statement (.txExc slave func code) := fun _ =>
  ⟨⟨"TX.EXC", 0x2A00000000000000#64, 0xFF000000FFFFFFFF#64⟩, by simp [commandTable], rfl,
    fits_pack (mo := 0xff) (ma := 0x00) (mb := 0x00) (mc := 0x00) (mv := 0xffffffff)
      (po := 0x2a) (pa := 0x00) (pb := 0x00) (pc := 0x00) (pv := 0x00000000)
      (by decide) (by decide) (by simp)⟩

theorem hbWr (i b : Byte) : Statement (.hbWr i b) := fun _ =>
  ⟨⟨"HB.WR", 0x3000000000000000#64, 0xFFFF0000FFFFFFFF#64⟩, by simp [commandTable], rfl,
    fits_pack (mo := 0xff) (ma := 0xff) (mb := 0x00) (mc := 0x00) (mv := 0xffffffff)
      (po := 0x30) (pa := 0x00) (pb := 0x00) (pc := 0x00) (pv := 0x00000000)
      (by decide) (by decide) (by simp)⟩

theorem hbRd (i : Byte) : Statement (.hbRd i) := fun _ =>
  ⟨⟨"HB.RD", 0x3100000000000000#64, 0xFFFFFF00FFFFFFFF#64⟩, by simp [commandTable], rfl,
    fits_pack (mo := 0xff) (ma := 0xff) (mb := 0xff) (mc := 0x00) (mv := 0xffffffff)
      (po := 0x31) (pa := 0x00) (pb := 0x00) (pc := 0x00) (pv := 0x00000000)
      (by decide) (by decide) (by simp)⟩

theorem hdrLoad : Statement .hdrLoad := fun _ =>
  ⟨⟨"HDR.LOAD", 0x3200000000000000#64, 0xFFFFFFFFFFFFFFFF#64⟩, by simp [commandTable], rfl,
    fits_pack (mo := 0xff) (ma := 0xff) (mb := 0xff) (mc := 0xff) (mv := 0xffffffff)
      (po := 0x32) (pa := 0x00) (pb := 0x00) (pc := 0x00) (pv := 0x00000000)
      (by decide) (by decide) (by simp)⟩

theorem hdrSeal : Statement .hdrSeal := fun _ =>
  ⟨⟨"HDR.SEAL", 0x3300000000000000#64, 0xFFFFFFFFFFFFFFFF#64⟩, by simp [commandTable], rfl,
    fits_pack (mo := 0xff) (ma := 0xff) (mb := 0xff) (mc := 0xff) (mv := 0xffffffff)
      (po := 0x33) (pa := 0x00) (pb := 0x00) (pc := 0x00) (pv := 0x00000000)
      (by decide) (by decide) (by simp)⟩

theorem hdrReset : Statement .hdrReset := fun _ =>
  ⟨⟨"HDR.RESET", 0x3400000000000000#64, 0xFFFFFFFFFFFFFFFF#64⟩, by simp [commandTable], rfl,
    fits_pack (mo := 0xff) (ma := 0xff) (mb := 0xff) (mc := 0xff) (mv := 0xffffffff)
      (po := 0x34) (pa := 0x00) (pb := 0x00) (pc := 0x00) (pv := 0x00000000)
      (by decide) (by decide) (by simp)⟩

theorem hdrStart (t : Word32) : Statement (.hdrStart t) := fun _ =>
  ⟨⟨"HDR.START", 0x3500000000000000#64, 0xFFFFFFFF00000000#64⟩, by simp [commandTable], rfl,
    fits_pack (mo := 0xff) (ma := 0xff) (mb := 0xff) (mc := 0xff) (mv := 0x00000000)
      (po := 0x35) (pa := 0x00) (pb := 0x00) (pc := 0x00) (pv := 0x00000000)
      (by decide) (by decide) (by simp)⟩

theorem hdrAdv : Statement .hdrAdv := fun _ =>
  ⟨⟨"HDR.ADV", 0x3600000000000000#64, 0xFFFFFFFFFFFFFFFF#64⟩, by simp [commandTable], rfl,
    fits_pack (mo := 0xff) (ma := 0xff) (mb := 0xff) (mc := 0xff) (mv := 0xffffffff)
      (po := 0x36) (pa := 0x00) (pb := 0x00) (pc := 0x00) (pv := 0x00000000)
      (by decide) (by decide) (by simp)⟩

theorem hdrRet : Statement .hdrRet := fun _ =>
  ⟨⟨"HDR.RET", 0x3700000000000000#64, 0xFFFFFFFFFFFFFFFF#64⟩, by simp [commandTable], rfl,
    fits_pack (mo := 0xff) (ma := 0xff) (mb := 0xff) (mc := 0xff) (mv := 0xffffffff)
      (po := 0x37) (pa := 0x00) (pb := 0x00) (pc := 0x00) (pv := 0x00000000)
      (by decide) (by decide) (by simp)⟩

theorem hdrTfirst : Statement .hdrTfirst := fun _ =>
  ⟨⟨"HDR.TFIRST", 0x3800000000000000#64, 0xFFFFFFFFFFFFFFFF#64⟩, by simp [commandTable], rfl,
    fits_pack (mo := 0xff) (ma := 0xff) (mb := 0xff) (mc := 0xff) (mv := 0xffffffff)
      (po := 0x38) (pa := 0x00) (pb := 0x00) (pc := 0x00) (pv := 0x00000000)
      (by decide) (by decide) (by simp)⟩

theorem hdrTlast : Statement .hdrTlast := fun _ =>
  ⟨⟨"HDR.TLAST", 0x3900000000000000#64, 0xFFFFFFFFFFFFFFFF#64⟩, by simp [commandTable], rfl,
    fits_pack (mo := 0xff) (ma := 0xff) (mb := 0xff) (mc := 0xff) (mv := 0xffffffff)
      (po := 0x39) (pa := 0x00) (pb := 0x00) (pc := 0x00) (pv := 0x00000000)
      (by decide) (by decide) (by simp)⟩

theorem hdrFind (t : Word32) : Statement (.hdrFind t) := fun _ =>
  ⟨⟨"HDR.FIND", 0x3A00000000000000#64, 0xFFFFFFFF00000000#64⟩, by simp [commandTable], rfl,
    fits_pack (mo := 0xff) (ma := 0xff) (mb := 0xff) (mc := 0xff) (mv := 0x00000000)
      (po := 0x3a) (pa := 0x00) (pb := 0x00) (pc := 0x00) (pv := 0x00000000)
      (by decide) (by decide) (by simp)⟩

theorem sysReset : Statement .sysReset := fun _ =>
  ⟨⟨"SYS.RESET", 0xFF00000000000000#64, 0xFFFFFFFFFFFFFFFF#64⟩, by simp [commandTable], rfl,
    fits_pack (mo := 0xff) (ma := 0xff) (mb := 0xff) (mc := 0xff) (mv := 0xffffffff)
      (po := 0xff) (pa := 0x00) (pb := 0x00) (pc := 0x00) (pv := 0x00000000)
      (by decide) (by decide) (by simp)⟩

theorem reqReadHolding (slave : Byte) (addr qty : Word16) (crcLo crcHi : Byte)
    : Statement (.reqReadHolding slave addr qty crcLo crcHi) := fun _ =>
  ⟨⟨_, List.mem_of_getElem? (i := 0) rfl, rfl, by simp [bytesFit, requestBytes]⟩,
    .inl (by simp [requestBytes, be16Bytes])⟩

theorem reqReadInput (slave : Byte) (addr qty : Word16) (crcLo crcHi : Byte)
    : Statement (.reqReadInput slave addr qty crcLo crcHi) := fun _ =>
  ⟨⟨_, List.mem_of_getElem? (i := 1) rfl, rfl, by simp [bytesFit, requestBytes]⟩,
    .inl (by simp [requestBytes, be16Bytes])⟩

theorem reqWriteSingle (slave : Byte) (addr value : Word16) (crcLo crcHi : Byte)
    : Statement (.reqWriteSingle slave addr value crcLo crcHi) := fun _ =>
  ⟨⟨_, List.mem_of_getElem? (i := 2) rfl, rfl, by simp [bytesFit, requestBytes]⟩,
    .inl (by simp [requestBytes, be16Bytes])⟩

theorem reqWriteMultiple (slave : Byte) (addr qty : Word16) (count : Byte) (payload : List Byte) (crcLo crcHi : Byte)
    : Statement (.reqWriteMultiple slave addr qty count payload crcLo crcHi) := fun h => by
  simp only [Instr.wellFormed, decide_eq_true_eq] at h
  refine ⟨⟨_, List.mem_of_getElem? (i := 3) rfl, rfl, ?_⟩, .inr ?_⟩
  · simp [bytesFit, requestBytes]
  · simp [requestBytes, be16Bytes, h]
    omega

theorem respNormal (slave func : Byte) (data : List Byte) (crcLo crcHi : Byte)
    : Statement (.respNormal slave func data crcLo crcHi) := fun _ =>
  ⟨⟨_, List.mem_of_getElem? (i := 4) rfl, rfl, rfl⟩, by simp⟩

theorem respException (slave : Byte) (func : BitVec 7) (code crcLo crcHi : Byte)
    : Statement (.respException slave func code crcLo crcHi) := fun _ => by
  refine ⟨⟨_, List.mem_of_getElem? (i := 5) rfl, rfl, ?_⟩, rfl⟩
  have h : ∀ f : BitVec 7, (1#1 ++ f) &&& 0x80#8 = 0x80#8 := by decide
  simp [bytesFit, h func]

theorem headerImage (size off time : Word32) (crc : Word16) : Statement (.headerImage size off time crc) := fun _ =>
  ⟨⟨_, List.mem_of_getElem? (i := 6) rfl, rfl, rfl⟩, rfl⟩

end WritesItsRow

end Sys2Proof.Laws
end

