-- ==== Sys2Proof/Laws/Storage.lean ====
section
/-! SUPPORT. What the host procedures' building blocks can do: sequencing, and one access of the Byte Storage. -/

namespace Sys2Proof.Machine

/-! ### Sequencing -/

@[simp] theorem andThen_done {α β : Type} (a : α) (s : State) (k : α → State → ProcResult β) :
    (ProcResult.done a s).andThen k = k a s := rfl
@[simp] theorem andThen_crashed {α β : Type} (s : State) (k : α → State → ProcResult β) :
    (ProcResult.crashed s).andThen k = .crashed s := rfl
@[simp] theorem onOk_ok {α β : Type} (a : α) (s : State) (k : α → State → ProcResult (Except HostError β)) :
    (ProcResult.done (.ok a) s).onOk k = k a s := rfl
@[simp] theorem onOk_error {α β : Type} (e : HostError) (s : State)
    (k : α → State → ProcResult (Except HostError β)) :
    (ProcResult.done (.error e) s).onOk k = .done (.error e) s := rfl
@[simp] theorem onOk_crashed {α β : Type} (s : State) (k : α → State → ProcResult (Except HostError β)) :
    (ProcResult.crashed s).onOk k = .crashed s := rfl

/-! ### One access -/

theorem inStorage_iff (a n : Nat) : inStorage a n = true ↔ a + n ≤ 2 ^ 32 := by
  simp [inStorage]

/-- Everything a read can do: it never changes the storage. -/
theorem storageRead_cases (a n : Nat) (s : State) :
    (s.nextIo = .ok ∧ a + n ≤ 2 ^ 32 ∧ storageRead a n s = .done (.ok (Memory.slice s.storage a n)) s.ioTaken) ∨
      (s.nextIo = .ok ∧ 2 ^ 32 < a + n ∧ storageRead a n s = .done (.error .storage) s.ioTaken) ∨
      (∃ torn, s.nextIo = .failed torn ∧ storageRead a n s = .done (.error .storage) s.ioTaken) ∨
      ∃ torn, s.nextIo = .powerLoss torn ∧ storageRead a n s = .crashed s.ioTaken.powerOn := by
  cases h : s.nextIo with
  | ok =>
    by_cases hi : a + n ≤ 2 ^ 32
    · exact .inl ⟨rfl, hi, by simp [storageRead, h, (inStorage_iff a n).2 hi]⟩
    · refine .inr (.inl ⟨rfl, by omega, ?_⟩)
      simp [storageRead, h, mt (inStorage_iff a n).1 hi]
  | failed torn => exact .inr (.inr (.inl ⟨torn, rfl, by simp [storageRead, h]⟩))
  | powerLoss torn => exact .inr (.inr (.inr ⟨torn, rfl, by simp [storageRead, h]⟩))

/-- Everything a write can do. -/
theorem storageWrite_cases (a : Nat) (bytes : List Byte) (s : State) :
    (s.nextIo = .ok ∧ a + bytes.length ≤ 2 ^ 32 ∧
        storageWrite a bytes s = .done (.ok ()) { s.ioTaken with storage := Memory.writeAll s.storage a bytes }) ∨
      (s.nextIo = .ok ∧ 2 ^ 32 < a + bytes.length ∧ storageWrite a bytes s = .done (.error .storage) s.ioTaken) ∨
      (∃ torn, s.nextIo = .failed torn ∧ storageWrite a bytes s =
        .done (.error .storage) { s.ioTaken with storage := tornWrite s.storage a bytes.length torn }) ∨
      ∃ torn, s.nextIo = .powerLoss torn ∧ storageWrite a bytes s =
        .crashed { s.ioTaken.powerOn with storage := tornWrite s.storage a bytes.length torn } := by
  cases h : s.nextIo with
  | ok =>
    by_cases hi : a + bytes.length ≤ 2 ^ 32
    · exact .inl ⟨rfl, hi, by simp [storageWrite, h, (inStorage_iff a _).2 hi]⟩
    · refine .inr (.inl ⟨rfl, by omega, ?_⟩)
      simp [storageWrite, h, mt (inStorage_iff a _).1 hi]
  | failed torn => exact .inr (.inr (.inl ⟨torn, rfl, by simp [storageWrite, h]⟩))
  | powerLoss torn => exact .inr (.inr (.inr ⟨torn, rfl, by simp [storageWrite, h]⟩))

/-! ### Torn writes (U9) -/

/-- A torn write keeps the canonical form. -/
theorem tornWrite_wf {m : Memory} (a n : Nat) (torn : List Byte) (hm : Memory.wf Config.stCap m = true) :
    Memory.wf Config.stCap (tornWrite m a n torn) = true := by
  by_cases ha : a ≤ Config.stCap
  · exact writeAll_wf hm (by rw [List.length_take]; omega)
  · rw [tornWrite, show Config.stCap - a = 0 by omega, Nat.min_zero, List.take_zero]
    exact hm

/-- A torn write leaves every byte outside its range. -/
theorem read_tornWrite_outside {m : Memory} {a n x : Nat} {torn : List Byte}
    (hm : Memory.wf Config.stCap m = true) (hx : x < a ∨ a + n ≤ x) :
    Memory.read (tornWrite m a n torn) x = Memory.read m x := by
  by_cases ha : a ≤ Config.stCap
  · have hl : (torn.take (min n (Config.stCap - a))).length ≤ n := by rw [List.length_take]; omega
    rw [tornWrite, read_writeAll hm (by rw [List.length_take]; omega), if_neg (by omega)]
  · rw [tornWrite, show Config.stCap - a = 0 by omega, Nat.min_zero, List.take_zero]
    rfl

end Sys2Proof.Machine
end

