-- ==== Sys2Proof/Machine/Assembler.lean ====
section
/-! DEFINITION. The assembler syntax of a command (30_encoding.md R86): the mnemonic, then the operands in
decimal, separated by commas. -/

namespace Sys2Proof.Machine

/-- A mnemonic and its operands. -/
def asmLine (mnemonic : String) : List Nat → String
  | [] => mnemonic
  | ops => mnemonic ++ " " ++ ", ".intercalate (ops.map toString)

/-- The text of a command; none for the byte formats, which are not commands. -/
def assemble : Instr → Option String
  | .regRd r => some (asmLine "REG.RD" [r.toNat])
  | .regWr r v => some (asmLine "REG.WR" [r.toNat, v.toNat])
  | .crcInit alg => some (asmLine "CRC.INIT" [alg.toNat])
  | .crcUpd b => some (asmLine "CRC.UPD" [b.toNat])
  | .fbClr => some (asmLine "FB.CLR" [])
  | .fbPush b => some (asmLine "FB.PUSH" [b.toNat])
  | .fbRd i => some (asmLine "FB.RD" [i.toNat])
  | .rxParse => some (asmLine "RX.PARSE" [])
  | .txBegin slave func => some (asmLine "TX.BEGIN" [slave.toNat, func.toNat])
  | .txSeal => some (asmLine "TX.SEAL" [])
  | .txExc slave func code => some (asmLine "TX.EXC" [slave.toNat, func.toNat, code.toNat])
  | .hbWr i b => some (asmLine "HB.WR" [i.toNat, b.toNat])
  | .hbRd i => some (asmLine "HB.RD" [i.toNat])
  | .hdrLoad => some (asmLine "HDR.LOAD" [])
  | .hdrSeal => some (asmLine "HDR.SEAL" [])
  | .hdrReset => some (asmLine "HDR.RESET" [])
  | .hdrStart t => some (asmLine "HDR.START" [t.toNat])
  | .hdrAdv => some (asmLine "HDR.ADV" [])
  | .hdrRet => some (asmLine "HDR.RET" [])
  | .hdrTfirst => some (asmLine "HDR.TFIRST" [])
  | .hdrTlast => some (asmLine "HDR.TLAST" [])
  | .hdrFind t => some (asmLine "HDR.FIND" [t.toNat])
  | .sysReset => some (asmLine "SYS.RESET" [])
  | .reqReadHolding _ _ _ _ _ => none
  | .reqReadInput _ _ _ _ _ => none
  | .reqWriteSingle _ _ _ _ _ => none
  | .reqWriteMultiple _ _ _ _ _ _ _ => none
  | .respNormal _ _ _ _ _ => none
  | .respException _ _ _ _ _ => none
  | .headerImage _ _ _ _ => none

/-- The symbolic name of a register, as the syntax allows it for its number (R21, R86). -/
def Reg.name : Reg → String
  | .crc => "CRC"
  | .crcAlg => "CRC_ALG"
  | .slaveAddr => "SLAVE_ADDR"
  | .fbLen => "FB_LEN"
  | .rKind => "R_KIND"
  | .rSlave => "R_SLAVE"
  | .rFunc => "R_FUNC"
  | .rAddr => "R_ADDR"
  | .rQty => "R_QTY"
  | .rBc => "R_BC"
  | .capacity => "CAPACITY"
  | .elementSize => "ELEMENT_SIZE"
  | .hSize => "H_SIZE"
  | .hOff => "H_OFF"
  | .hTime => "H_TIME"
  | .hCrc => "H_CRC"
  | .hFlags => "H_FLAGS"

end Sys2Proof.Machine
end

