-- ==== Sys2Proof/Tests/Slice0.lean ====
section
/-! SUPPORT. The model's own tests. Expected values are those of spec/95_test_vectors.md and of the rules' worked
examples, or worked out by hand from a rule. A theorem named `witness_…` shows that the hypotheses of a statement
can be met, clause by clause. -/

namespace Sys2Proof.Tests

-- The kernel evaluations of this file one after the other: side by side, each waiting one holds a thread's stack.
set_option Elab.async false

open Sys2Proof.Machine

/-! ### Helpers -/

/-- The next state of an outcome; reset where there is none. -/
def after (o : Out) : State :=
  match o with
  | .next t => t
  | .fault _ => State.reset
  | .refused _ => State.reset

/-- The response of an outcome; none where there is no next state. -/
def answerOf (o : Out) : Option Response :=
  match o with
  | .next t => t.resp
  | .fault _ => none
  | .refused _ => none

/-- The state of a procedure that returned. -/
def doneState {α : Type} (r : ProcResult α) : Option State :=
  match r with
  | .done _ s => some s
  | .crashed _ => none
  | .faulted _ => none
  | .refused _ => none

/-- Reset with a frame in `fb` and slave address 1. -/
def framed (bytes : List Byte) : State :=
  { State.reset with
    slaveAddr := 1, fb := Memory.writeAll [] 0 bytes, fbLen := BitVec.ofNat 9 bytes.length }

/-- Reset with an instance selected and a header loaded. -/
def ring (capacity elementSize size off time : Word32) : State :=
  { State.reset with
    capacity := capacity, elementSize := elementSize, hSize := size, hOff := off, hTime := time, loaded := true }

/-- The source's request (V3). -/
def readRequestBytes : List Byte := [0x01, 0x03, 0x00, 0x00, 0x00, 0x0A, 0xC5, 0xCD]

/-! ### Well-formedness: one ill-formed term for each check -/

theorem test_wf_refuses_a_payload_of_the_wrong_length :
    (Instr.reqWriteMultiple 1 0 2 4 [0x00, 0x0A, 0x01] 0x92 0x30).wellFormed = false := by decide

theorem test_wf_refuses_a_response_too_long :
    (Instr.respNormal 1 3 (List.replicate 253 0) 0xDF 0xCC).wellFormed = false := by decide +kernel

theorem test_wf_refuses_a_wrong_response_checksum :
    (Instr.respNormal 0x01 0x03 [0x04, 0x00, 0x0A, 0x01, 0x02] 0x5A 0x61).wellFormed = false := by decide +kernel

theorem test_wf_refuses_a_wrong_exception_checksum :
    (Instr.respException 0x01 0x03 0x02 0xC0 0xF0).wellFormed = false := by decide +kernel

theorem test_wf_accepts_the_specs_frames :
    (Instr.reqWriteMultiple 1 1 2 4 [0x00, 0x0A, 0x01, 0x02] 0x92 0x30).wellFormed = true ∧
      (Instr.respNormal 0x01 0x03 [0x04, 0x00, 0x0A, 0x01, 0x02] 0x5A 0x60).wellFormed = true ∧
      (Instr.respException 0x01 0x03 0x02 0xC0 0xF1).wellFormed = true := by decide +kernel

/-! ### Decoding: words written out from the encoding tables, every constructor -/

theorem test_decode_system :
    decode (.command 0x01000010 0) = .ok (.regRd 0x10) ∧
      decode (.command 0x0200000B 0x00000E10) = .ok (.regWr 0x0B 3600) ∧
      decode (.command 0xFF000000 0) = .ok .sysReset := ⟨rfl, rfl, rfl⟩

theorem test_decode_crc :
    decode (.command 0x10000000 0) = .ok (.crcInit 0) ∧ decode (.command 0x110000A5 0) = .ok (.crcUpd 0xA5) :=
  ⟨rfl, rfl⟩

theorem test_decode_frame_receive :
    decode (.command 0x20000000 0) = .ok .fbClr ∧ decode (.command 0x210000AA 0) = .ok (.fbPush 0xAA) ∧
      decode (.command 0x220000FF 0) = .ok (.fbRd 0xFF) ∧ decode (.command 0x23000000 0) = .ok .rxParse :=
  ⟨rfl, rfl, rfl, rfl⟩

theorem test_decode_frame_transmit :
    decode (.command 0x28110400 0) = .ok (.txBegin 0x11 0x04) ∧ decode (.command 0x29000000 0) = .ok .txSeal ∧
      decode (.command 0x2AFF03FE 0) = .ok (.txExc 0xFF 0x03 0xFE) := ⟨rfl, rfl, rfl⟩

theorem test_decode_header_image_commands :
    decode (.command 0x300009F1 0) = .ok (.hbWr 9 0xF1) ∧ decode (.command 0x3100000C 0) = .ok (.hbRd 12) ∧
      decode (.command 0x32000000 0) = .ok .hdrLoad ∧ decode (.command 0x33000000 0) = .ok .hdrSeal :=
  ⟨rfl, rfl, rfl, rfl⟩

theorem test_decode_header_arithmetic :
    decode (.command 0x34000000 0) = .ok .hdrReset ∧
      decode (.command 0x35000000 0x0000003B) = .ok (.hdrStart 59) ∧
      decode (.command 0x36000000 0) = .ok .hdrAdv ∧ decode (.command 0x37000000 0) = .ok .hdrRet ∧
      decode (.command 0x38000000 0) = .ok .hdrTfirst ∧ decode (.command 0x39000000 0) = .ok .hdrTlast ∧
      decode (.command 0x3A000000 0x6553FF42) = .ok (.hdrFind 1700003650) :=
  ⟨rfl, rfl, rfl, rfl, rfl, rfl, rfl⟩

theorem test_decode_requests :
    decode (.request [0x11, 0x03, 0x00, 0x6B, 0x00, 0x03, 0x76, 0x87]) =
        .ok (.reqReadHolding 0x11 0x006B 3 0x76 0x87) ∧
      decode (.request [0x01, 0x04, 0x00, 0x00, 0x00, 0x02, 0x71, 0xCB]) = .ok (.reqReadInput 1 0 2 0x71 0xCB) ∧
      decode (.request [0x01, 0x06, 0x00, 0x0D, 0x00, 0x11, 0xD8, 0x05]) =
        .ok (.reqWriteSingle 1 0x000D 0x0011 0xD8 0x05) ∧
      decode (.request [0x01, 0x10, 0x00, 0x00, 0x00, 0x00, 0x00, 0x09, 0x50]) =
        .ok (.reqWriteMultiple 1 0 0 0 [] 0x09 0x50) := ⟨rfl, rfl, rfl, rfl⟩

theorem test_decode_responses_and_image :
    decode (.normalResponse [0x01, 0x03, 0x04, 0x00, 0x0A, 0x01, 0x02, 0x5A, 0x60]) =
        .ok (.respNormal 1 3 [0x04, 0x00, 0x0A, 0x01, 0x02] 0x5A 0x60) ∧
      decode (.exceptionResponse [0x01, 0x87, 0x01, 0x82, 0x30]) = .ok (.respException 1 0x07 0x01 0x82 0x30) ∧
      decode (.image [0x03, 0, 0, 0, 0x02, 0, 0, 0, 0x48, 0x0D, 0x54, 0x65, 0xB6, 0x59]) =
        .ok (.headerImage 0x03000000 0x02000000 0x480D5465 0xB659) := ⟨rfl, rfl, rfl⟩

theorem test_decode_refuses_reserved_words :
    decode (.command 0x03000000 0) = .error (.reservedOpcode 0x03) ∧
      decode (.command 0x20000001 0) = .error (.unusedFieldSet 0x20) ∧
      decode (.command 0x20000000 1) = .error (.unusedFieldSet 0x20) ∧
      decode (.command 0x35000001 0) = .error (.unusedFieldSet 0x35) ∧
      decode (.command 0x02000102 1) = .error (.unusedFieldSet 0x02) ∧
      decode (.command 0x28010301 0) = .error (.unusedFieldSet 0x28) := ⟨rfl, rfl, rfl, rfl, rfl, rfl⟩

theorem test_decode_table_words :
    decodeTableWord 64 0x2A01030200000000 = some (.txExc 1 3 2) ∧
      decodeTableWord 40 0xF1C0028301 = some (.respException 1 3 2 0xC0 0xF1) ∧
      decodeTableWord 64 0 = none := ⟨rfl, rfl, rfl⟩

theorem test_fetch_word_runs_it :
    answerOf (step (State.reset.withFetchWord 64 0x0100000000000000)) = some ⟨.ok, 0xFFFF⟩ := rfl

/-! ### One step of each instruction -/

theorem test_reg_rd : answerOf (execRegRd 0x00 State.reset) = some ⟨.ok, 0xFFFF⟩ := rfl

theorem test_reg_rd_flags : answerOf (execRegRd 0x10 (ring 5 3600 3 2 7200)) = some ⟨.ok, 5⟩ := rfl

theorem test_reg_wr_too_wide : answerOf (execRegWr 0x02 0x100 State.reset) = some ⟨.badCommand, 0⟩ := rfl

theorem test_reg_wr_clears_loaded :
    (after (execRegWr 0x0A 5 (ring 5 3600 3 2 7200))).loaded = false ∧
      (after (execRegWr 0x0A 5 (ring 5 3600 3 2 7200))).hSize = 3 := ⟨rfl, rfl⟩

theorem test_sys_reset : (after (execSysReset (framed readRequestBytes))).fbLen = 0 := rfl

theorem test_crc_init_refuses_other_codes : answerOf (execCrcInit 2 State.reset) = some ⟨.badCommand, 0⟩ := rfl

theorem test_crc_upd_after_reset_is_ccitt : (after (execCrcUpd 0x01 State.reset)).crc = 0xF1D1 := by decide

theorem test_crc_upd_modbus : (after (execCrcUpd 0x01 { State.reset with crcAlg := 1 })).crc = 0x807E := by decide

theorem test_crc_check_values :
    crc16 .ccittFalse [0x31, 0x32, 0x33, 0x34, 0x35, 0x36, 0x37, 0x38, 0x39] = 0x29B1 ∧
      crc16 .modbus [0x31, 0x32, 0x33, 0x34, 0x35, 0x36, 0x37, 0x38, 0x39] = 0x4B37 := by decide +kernel

theorem test_fb_clr : (after (execFbClr (framed readRequestBytes))).fbLen = 0 := rfl

theorem test_fb_push :
    (after (execFbPush 0xAA (framed [0x01]))).fb = [(0, 0x01), (1, 0xAA)] ∧
      (after (execFbPush 0xAA (framed [0x01]))).fbLen = 2 := ⟨rfl, rfl⟩

theorem test_fb_push_full :
    answerOf (execFbPush 0xAA { State.reset with fbLen := 256 }) = some ⟨.bufferTooSmall, 0⟩ := rfl

theorem test_fb_rd : answerOf (execFbRd 6 (framed readRequestBytes)) = some ⟨.ok, 0xC5⟩ := rfl

theorem test_rx_parse :
    let t := after (execRxParse (framed readRequestBytes))
    t.resp = some ⟨.ok, 0⟩ ∧ t.rKind = 1 ∧ t.rAddr = 0 ∧ t.rQty = 10 := by decide +kernel

theorem test_rx_parse_unknown_function :
    let t := after (execRxParse (framed [0x01, 0x07, 0x00, 0x00, 0x00, 0x00, 0xB4, 0x0A]))
    t.resp = some ⟨.exception, 1⟩ ∧ t.rKind = 0 ∧ t.rFunc = 0x07 := by decide +kernel

theorem test_tx_begin : (after (execTxBegin 0x01 0x03 (framed readRequestBytes))).frame 2 = [0x01, 0x03] := rfl

theorem test_tx_seal :
    (after (execTxSeal (framed [0x01, 0x03, 0x04, 0x00, 0x0A, 0x01, 0x02]))).frame 9 =
      [0x01, 0x03, 0x04, 0x00, 0x0A, 0x01, 0x02, 0x5A, 0x60] := by decide +kernel

theorem test_tx_seal_empty : (after (execTxSeal State.reset)).frame 2 = [0xFF, 0xFF] := by decide +kernel

theorem test_tx_exc :
    (after (execTxExc 0x01 0x83 0x02 State.reset)).frame 5 = [0x01, 0x83, 0x02, 0xC0, 0xF1] := by decide +kernel

theorem test_hb_wr : (after (execHbWr 12 0xB6 State.reset)).hb = [(12, 0xB6)] := rfl

theorem test_hb_rd_out_of_range : answerOf (execHbRd 14 State.reset) = some ⟨.badCommand, 0⟩ := rfl

theorem test_hdr_load :
    let t := after (execHdrLoad { ring 5 3600 0 0 0 with
      hb := Memory.writeAll [] 0 [0x03, 0, 0, 0, 0x02, 0, 0, 0, 0x48, 0x0D, 0x54, 0x65, 0xB6, 0x59] })
    t.hSize = 3 ∧ t.hOff = 2 ∧ t.hTime = 1700007240 ∧ t.hCrc = 0x59B6 ∧ t.hFlags = 7 := by decide +kernel

theorem test_hdr_load_mismatch :
    let t := after (execHdrLoad { ring 5 3600 0 0 0 with
      hb := Memory.writeAll [] 0 [0x04, 0, 0, 0, 0x02, 0, 0, 0, 0x48, 0x0D, 0x54, 0x65, 0xB6, 0x59] })
    t.hSize = 0 ∧ t.hOff = 0 ∧ t.hTime = 0 ∧ t.hCrc = 0x59B6 ∧ t.hFlags = 5 := by decide +kernel

theorem test_hdr_seal :
    (after (execHdrSeal (ring 5 3600 4 3 1700010840))).image =
      [0x04, 0, 0, 0, 0x03, 0, 0, 0, 0x58, 0x1B, 0x54, 0x65, 0x4A, 0xFC] := by decide +kernel

theorem test_hdr_seal_big_modbus :
    (after (execHdrSeal { ring 5 3600 9 7 1700007240 with
      params := { storeEndian := .big, hdrCrcAlg := .modbus } })).image =
      [0, 0, 0, 0x09, 0, 0, 0, 0x07, 0x65, 0x54, 0x0D, 0x48, 0x28, 0xE0] := by decide +kernel

theorem test_hdr_reset : (after (execHdrReset (ring 5 3600 3 2 7200))).hOff = 0 := rfl

theorem test_hdr_start : (after (execHdrStart 0xFFFFFFFF (ring 5 3600 0 0 0))).hTime = 0xFFFFFFF0 := by decide

theorem test_hdr_start_not_empty :
    answerOf (execHdrStart 5 (ring 5 3600 1 0 0)) = some ⟨.badCommand, 0⟩ := rfl

theorem test_hdr_adv_brings_into_range :
    let t := after (execHdrAdv (ring 5 3600 9 7 1700007240))
    t.hSize = 5 ∧ t.hOff = 3 ∧ t.hTime = 1700010840 := by decide

theorem test_hdr_adv_overflow :
    answerOf (execHdrAdv (ring 5 3600 1 0 0xFFFFFFF0)) = some ⟨.overflow, 0⟩ := rfl

theorem test_hdr_ret_wraps :
    let t := after (execHdrRet (ring 5 3600 3 0 1700007240))
    t.hSize = 2 ∧ t.hOff = 4 ∧ t.hTime = 1700003640 := by decide

theorem test_hdr_ret_overflow : answerOf (execHdrRet (ring 5 3600 2 1 60)) = some ⟨.overflow, 0⟩ := rfl

theorem test_hdr_tfirst :
    answerOf (execHdrTfirst (ring 5 3600 3 0 1700007240)) = some ⟨.ok, 1700000040⟩ := by decide

theorem test_hdr_tfirst_overflow : answerOf (execHdrTfirst (ring 5 3600 2 1 60)) = some ⟨.overflow, 0⟩ := by decide

theorem test_hdr_tlast : answerOf (execHdrTlast (ring 5 3600 2 1 60)) = some ⟨.ok, 60⟩ := rfl

theorem test_hdr_find : answerOf (execHdrFind 1700003650 (ring 5 3600 3 0 1700007240)) = some ⟨.ok, 4⟩ := by decide

theorem test_hdr_find_none :
    answerOf (execHdrFind 1700003700 (ring 5 3600 3 0 1700007240)) = some ⟨.notFound, 0⟩ := by decide

theorem test_request_read_holding :
    (after (execReqReadHolding 0x11 0x006B 3 0x76 0x87 { State.reset with slaveAddr := 0x11 })).rAddr = 0x006B := by
  decide +kernel

theorem test_request_read_input : (after (execReqReadInput 1 0 2 0x71 0xCB (framed []))).rKind = 2 := by
  decide +kernel

theorem test_request_write_single : (after (execReqWriteSingle 1 0x0D 0x11 0xD8 0x05 (framed []))).rQty = 0x11 := by
  decide +kernel

theorem test_request_write_multiple :
    (after (execReqWriteMultiple 1 1 2 4 [0x00, 0x0A, 0x01, 0x02] 0x92 0x30 (framed []))).rBc = 4 := by
  decide +kernel

theorem test_response_normal :
    (after (execRespNormal 1 3 [0x04, 0x3F, 0xC0, 0x00, 0x00] 0xF6 0x1B State.reset)).frame 9 =
      [0x01, 0x03, 0x04, 0x3F, 0xC0, 0x00, 0x00, 0xF6, 0x1B] := by decide +kernel

theorem test_response_exception :
    (after (execRespException 1 0x07 0x01 0x82 0x30 State.reset)).frame 5 = [0x01, 0x87, 0x01, 0x82, 0x30] := by
  decide +kernel

theorem test_header_image :
    (after (execHeaderImage 0x02000000 0x01000000 0x3C000000 0x1BA6 State.reset)).image =
      [0x02, 0, 0, 0, 0x01, 0, 0, 0, 0x3C, 0, 0, 0, 0x1B, 0xA6] := by decide +kernel

theorem test_assembler : assemble (.txExc 1 0x03 0x02) = some "TX.EXC 1, 3, 2" := by decide +kernel

theorem test_reset_spaces_are_canonical : State.reset.wf = true := rfl

/-! ### Host procedures, on small states -/

/-- A ring of two slots at the start of the stat page. -/
def smallRing : RingInstance := .atOffset 2 60 0x1000

theorem test_new_on_blank_storage_is_empty :
    (doneState (ringNew smallRing State.reset)).map (fun t => (t.loaded, t.hFlags)) = some (true, 5) := by
  decide +kernel

theorem test_add_writes_slot_then_header :
    (doneState (ringAdd smallRing 7 119 (ring 2 60 0 0 0))).map (fun t => (t.hTime, Memory.slice t.storage 0x1004 5)) =
      some (60, [0x07, 0x00, 0x00, 0x00, 0x00]) := by decide +kernel

/-- P7: the crash of `add(110, t0 + 3600)` between its two writes leaves the header and the new slot. -/
theorem test_add_crash_keeps_the_header :
    (match ringAdd (.atOffset 5 3600 0x1000) 110 1700003677 { ring 5 3600 1 0 1700000040 with
        storage := Memory.writeAll [] 0x1018 (hdrEncode {} 1 0 1700000040), io := [.ok, .powerLoss []] } with
      | .crashed t => some (Memory.slice t.storage 0x1008 4, Memory.slice t.storage 0x1018 14)
      | _ => none) = some ([0x6E, 0x00, 0x00, 0x00],
        [0x01, 0x00, 0x00, 0x00, 0x00, 0x00, 0x00, 0x00, 0x28, 0xF1, 0x53, 0x65, 0x8C, 0x86]) := by decide +kernel

/-- U9 where a range passes the end of the address space: the bytes below the end can be torn, power loss counts. -/
theorem test_write_past_the_end :
    (match storageWrite (2 ^ 32 - 1) [1, 2] { State.reset with io := [.powerLoss [7, 8]] } with
      | .crashed t => some t.storage
      | _ => none) = some [(2 ^ 32 - 1, 7)] := by decide +kernel

/-- U4: a 0x10 request of byte count zero patches with a free value, also where its quantity is zero. -/
theorem test_zero_byte_count_is_free :
    Request.patched ⟨4, 1, 0x10, 0, 0, 0⟩ [] [1, 2] = Config.mismatchedPatch [1, 2] 0 0 [] := rfl

theorem test_region_sizes :
    regionSize 2160 = 8660 ∧ defaultRings.map (·.offset) = [0x1000, 0x31D4, 0x4358] := by decide

/-- A record of zeros with slave address 0x11. -/
def someRecord : ConfigRecord := { ConfigRecord.parse .little [] with slaveAddress := 0x11 }

theorem test_record_is_111_bytes : (someRecord.serialise .big).length = recordBytes := by decide +kernel

theorem test_handler_illegal_value :
    (match handleFrame [0x01, 0x03, 0x00, 0x00, 0x00, 0x7E, 0xC5, 0xEA] ⟨0, 0, 0, 0⟩ someRecord (framed []) with
      | .done (.ok h) _ => h.reply
      | _ => none) = some [0x01, 0x83, 0x03, 0x01, 0x31] := by decide +kernel

/-! ### Witnesses: the hypotheses of the statements can be met -/

/-- A state with a parsed request, for the invariant. -/
def parsed : State := after (execRxParse (framed readRequestBytes))

theorem witness_invariant : parsed.Inv ∧ parsed.rKind ≠ 0 := by
  refine ⟨⟨?_, ?_, ?_, ?_, ?_, ?_, ?_, ?_, ?_, ?_, ?_⟩, ?_⟩ <;> decide +kernel

theorem witness_StepKeepsTheInvariant :
    parsed.Inv ∧ (∃ t, step parsed = .next t) ∧
      ∃ t, step { parsed with pending := [.command 0x20000000 0] } = .next t :=
  ⟨witness_invariant.1, ⟨_, rfl⟩, ⟨_, rfl⟩⟩

theorem witness_NothingEverStopsTheBlock : parsed.Inv := witness_invariant.1

theorem witness_ResetRestoresEveryValue :
    ({ State.reset with pending := [.powerCycle] } : State).pending = .powerCycle :: [] := rfl

theorem witness_StepRunsTheDecodedInstruction :
    (State.reset.withFetchWord 64 0x1100000500000000).pending = .command 0x11000005 0 :: [] ∧
      decode (.command 0x11000005 0) = .ok (.crcUpd 5) ∧ State.reset.pending = [] := ⟨rfl, rfl, rfl⟩

theorem witness_ReservedCommandsAreRefused :
    (∀ r ∈ commandTable, r.fits 0xFE000000 0 = false) ∧
      ({ State.reset with pending := [.command 0xFE000000 0] } : State).pending = .command 0xFE000000 0 :: [] ∧
      isCommand (.crcInit 2) = true ∧
      exec (.crcInit 2) State.reset = .next (State.reset.answer .badCommand 0) :=
  ⟨by decide, rfl, rfl, rfl⟩

theorem witness_DecodeOfEncodeGivesTheInstruction :
    (Instr.respException 0x01 0x03 0x02 0xC0 0xF1).wellFormed = true := by decide +kernel

theorem witness_EncodeOfDecodeGivesTheInput : decode (.command 0x30000CB6 0) = .ok (.hbWr 12 0xB6) := rfl

theorem witness_RegRdAnswersTheRegister :
    let s := framed readRequestBytes
    (0x10#8, 0#32) ∈ [(0x00#8, s.crc.setWidth 32), (0x01#8, s.crcAlg.setWidth 32),
      (0x02#8, s.slaveAddr.setWidth 32), (0x03#8, s.fbLen.setWidth 32), (0x04#8, s.rKind.setWidth 32),
      (0x05#8, s.rSlave.setWidth 32), (0x06#8, s.rFunc.setWidth 32), (0x07#8, s.rAddr.setWidth 32),
      (0x08#8, s.rQty.setWidth 32), (0x09#8, s.rBc.setWidth 32), (0x0A#8, s.capacity),
      (0x0B#8, s.elementSize), (0x0C#8, s.hSize), (0x0D#8, s.hOff), (0x0E#8, s.hTime),
      (0x0F#8, s.hCrc.setWidth 32),
      (0x10#8, BitVec.ofNat 32 ((if s.loaded then 1 else 0) + (if s.crcOk then 2 else 0) +
        (if s.capacity ≠ 0 ∧ s.hOff.toNat < s.capacity.toNat ∧ s.hSize.toNat ≤ s.capacity.toNat
          then 4 else 0)))] ∧ 0x10 < (0x11#8).toNat := by decide

theorem witness_RegWrWritesThreeRegisters :
    (0xFF#32).toNat ≤ 0xFF ∧ 0xFF < (0x100#32).toNat ∧ 0x03#8 ≠ 0x02 ∧ 0x03#8 ≠ 0x0A ∧ 0x03#8 ≠ 0x0B := by decide

theorem witness_CrcInitRestartsTheChecksum : (1#8).toNat ≤ 1 ∧ 1 < (2#8).toNat := by decide

theorem witness_OtherUnitsDoNotDisturbTheChecksum :
    (∀ i ∈ [Instr.crcUpd 1, .fbPush 2, .hdrLoad, .crcUpd 3], i ≠ .sysReset ∧ ∀ alg, i ≠ .crcInit alg) ∧
      ∃ t, execAll [.crcUpd 1, .fbPush 2, .hdrLoad, .crcUpd 3] State.reset = .next t := by
  refine ⟨?_, ⟨_, rfl⟩⟩
  intro i h
  simp only [List.mem_cons, List.not_mem_nil, or_false] at h
  rcases h with rfl | rfl | rfl | rfl <;> simp

theorem witness_FbPushAppendsOneByte :
    ({ State.reset with fbLen := 256 } : State).fbLen = 256 ∧ State.reset.wf = true ∧
      ({ State.reset with fbLen := 255 } : State).fbLen.toNat < 256 := by decide

theorem witness_FbRdAnswersTheByte :
    (framed [7]).fbLen.toNat ≤ (1#8).toNat ∧ (0#8).toNat < (framed [7]).fbLen.toNat := by decide

theorem witness_RxParseDecodesTheRequest :
    ({ State.reset with fbLen := 256 } : State).fbLen.toNat ≤ 256 ∧ (framed readRequestBytes).fbLen.toNat ≤ 256 := by
  decide

theorem witness_FramesBeyondTheBufferStop : 256 < ({ State.reset with fbLen := 257 } : State).fbLen.toNat := by decide

theorem witness_TxBeginStartsTheFrame : (framed readRequestBytes).wf = true := by decide +kernel

theorem witness_TxSealAppendsTheChecksum :
    255 ≤ ({ State.reset with fbLen := 255 } : State).fbLen.toNat ∧ State.reset.wf = true ∧
      ({ State.reset with fbLen := 254 } : State).fbLen.toNat ≤ 254 := by decide

theorem witness_TxExcBuildsTheExceptionFrame : (framed readRequestBytes).wf = true := by decide +kernel

theorem witness_HbWrStoresOneByte : 14 ≤ (14#8).toNat ∧ State.reset.wf = true ∧ (13#8).toNat < 14 := by decide

theorem witness_HbRdAnswersTheByte : 14 ≤ (14#8).toNat ∧ (13#8).toNat < 14 := by decide

/-- A ring with a loaded header is ready. -/
theorem ready (size off time : Word32) : ¬ (ring 5 3600 size off time).notReady := by
  simp [State.notReady, ring]

theorem not_ready_at_reset : State.reset.notReady := .inl rfl

theorem witness_HdrSealWritesTheImage :
    State.reset.notReady ∧ (ring 5 3600 3 2 7200).wf = true ∧ ¬ (ring 5 3600 3 2 7200).notReady :=
  ⟨not_ready_at_reset, rfl, ready 3 2 7200⟩

theorem witness_HdrStartMakesTheFirstEntry :
    State.reset.notReady ∧ (¬ (ring 5 3600 1 0 0).notReady ∧ (ring 5 3600 1 0 0).hSize ≠ 0) ∧
      ¬ (ring 5 3600 0 0 0).notReady ∧ (ring 5 3600 0 0 0).hSize = 0 :=
  ⟨not_ready_at_reset, ⟨ready 1 0 0, by decide⟩, ready 0 0 0, rfl⟩

theorem witness_HdrAdvMovesOneBucketForward :
    State.reset.notReady ∧ ¬ (ring 5 3600 1 0 0).notReady ∧
      0xFFFFFFFF < (ring 5 3600 1 0 0xFFFFF1F0).hTime.toNat + (ring 5 3600 1 0 0xFFFFF1F0).elementSize.toNat ∧
      (ring 5 3600 1 0 0xFFFFF1EF).hTime.toNat + (ring 5 3600 1 0 0xFFFFF1EF).elementSize.toNat ≤ 0xFFFFFFFF :=
  ⟨not_ready_at_reset, ready 1 0 0, by decide, by decide⟩

theorem witness_HdrRetDropsTheNewestBucket :
    State.reset.notReady ∧ ¬ (ring 5 3600 2 0 3600).notReady ∧ (ring 5 3600 1 0 3600).hSize.toNat < 2 ∧
      2 ≤ (ring 5 3600 2 0 3600).hSize.toNat ∧
      (ring 5 3600 2 0 3599).hTime.toNat < (ring 5 3600 2 0 3599).elementSize.toNat ∧
      (ring 5 3600 2 0 3600).elementSize.toNat ≤ (ring 5 3600 2 0 3600).hTime.toNat :=
  ⟨not_ready_at_reset, ready 2 0 3600, by decide, by decide, by decide, by decide⟩

theorem witness_HdrTfirstAnswersTheOldestTime :
    State.reset.notReady ∧ ¬ (ring 5 3600 2 0 3599).notReady ∧ (ring 5 3600 0 0 0).hSize = 0 ∧ (ring 5 3600 2 0 3599).hSize ≠ 0 ∧
      (ring 5 3600 2 0 3599).firstTime < 0 ∧ 0 ≤ (ring 5 3600 2 0 3600).firstTime :=
  ⟨not_ready_at_reset, ready 2 0 3599, rfl, by decide, by decide, by decide⟩

theorem witness_HdrTlastAnswersTheNewestTime :
    State.reset.notReady ∧ ¬ (ring 5 3600 0 0 0).notReady ∧ (ring 5 3600 0 0 0).hSize = 0 ∧
      ¬ (ring 5 3600 1 0 0).notReady ∧ (ring 5 3600 1 0 0).hSize ≠ 0 :=
  ⟨not_ready_at_reset, ready 0 0 0, rfl, ready 1 0 0, by decide⟩

theorem witness_HdrFindAnswersTheSlot :
    State.reset.notReady ∧ ¬ (ring 5 3600 2 0 7200).notReady ∧ 1 < (ring 5 3600 2 0 7200).hSize.toNat ∧
      ((7200 : Int) - 3600 * (1 : Nat) = ((3659 - 3659 % 60 : Nat) : Int)) ∧
      ∀ j, j < (ring 5 3600 2 0 7200).hSize.toNat → (7200 : Int) - 3600 * (j : Int) ≠ 0 := by
  refine ⟨not_ready_at_reset, ready 2 0 7200, by decide, by decide, ?_⟩
  intro j h
  have h2 : j < 2 := h
  omega

theorem witness_HeaderCommandsKeepTheRange :
    let s := ring 5 3600 3 2 7200
    let full := ring 5 3600 5 4 36000
    let empty := ring 5 3600 0 0 0
    answerOf (exec .hdrReset s) = some ⟨.ok, 0⟩ ∧ answerOf (exec (.hdrStart 7) empty) = some ⟨.ok, 0⟩ ∧
      answerOf (exec .hdrAdv s) = some ⟨.ok, 0⟩ ∧ answerOf (exec .hdrAdv full) = some ⟨.ok, 0⟩ ∧
      answerOf (exec .hdrRet s) = some ⟨.ok, 0⟩ ∧ s.hOff.toNat < s.capacity.toNat ∧
      s.hSize.toNat ≤ s.capacity.toNat ∧ s.hSize ≠ 0 ∧ s.hSize.toNat < s.capacity.toNat ∧ full.hSize ≠ 0 ∧
      full.hSize = full.capacity := by decide

theorem witness_ManyAdvancesWrapTheOffset :
    let s := ring 5 0x7FFFFFFF 0 0 1
    ¬ s.notReady ∧ s.hOff.toNat < s.capacity.toNat ∧ s.hSize.toNat ≤ s.capacity.toNat ∧
      s.hTime.toNat + 2 * s.elementSize.toNat ≤ 0xFFFFFFFF := by
  refine ⟨by simp [State.notReady, ring], by decide, by decide, by decide⟩

theorem witness_EightByteRequestsAreParsed :
    (framed []).wf = true ∧ (Instr.reqReadInput 1 0 2 0x71 0xCB, 0x04#8, 2#3) ∈
      [(Instr.reqReadHolding 1 0 2 0x71 0xCB, 0x03#8, 1#3), (Instr.reqReadInput 1 0 2 0x71 0xCB, 0x04#8, 2#3),
        (Instr.reqWriteSingle 1 0 2 0x71 0xCB, 0x06#8, 3#3)] ∧
      (1#8 = (framed []).slaveAddr) ∧ crc16 .modbus [0x01, 0x04, 0x00, 0x00, 0x00, 0x02] = 0xCB71 :=
  ⟨by decide, by simp, rfl, by decide +kernel⟩

theorem witness_WriteMultipleRequestsAreParsed :
    State.reset.wf = true ∧ ((List.replicate 247 (0 : Byte)).length = (247#8).toNat ∧ (247#8).toNat ≤ 247) ∧
      (List.replicate 248 (0 : Byte)).length = (248#8).toNat ∧ 248 ≤ (248#8).toNat :=
  ⟨rfl, ⟨by rw [List.length_replicate]; decide, by decide⟩, by rw [List.length_replicate]; decide, by decide⟩

theorem witness_NormalResponseIsBuilt :
    State.reset.wf = true ∧ (List.replicate 252 (0 : Byte)).length ≤ 252 ∧
      253 ≤ (List.replicate 253 (0 : Byte)).length ∧
      (Instr.respNormal 0x01 0x03 [0x04, 0x00, 0x0A, 0x01, 0x02] 0x5A 0x60).wellFormed = true :=
  ⟨rfl, by rw [List.length_replicate], by rw [List.length_replicate], by decide +kernel⟩

theorem witness_ExceptionResponseIsBuilt :
    State.reset.wf = true ∧ (Instr.respException 0x01 0x03 0x02 0xC0 0xF1).wellFormed = true :=
  ⟨rfl, by decide +kernel⟩

theorem witness_HeaderImageIsStored : State.reset.wf = true := rfl

theorem witness_BuiltFramesParse :
    (framed []).wf = true ∧ (1#8 = (framed []).slaveAddr ∨ 1#8 = 0) ∧
      (((0x06#8 = 0x03 ∨ 0x06#8 = 0x04 ∨ 0x06#8 = 0x06) ∧ ([] : List Byte) = [])) ∧
      ∃ n : Byte, ∃ p : List Byte, [2, 8, 9] = n :: p ∧ p.length = n.toNat ∧ n.toNat ≤ 247 :=
  ⟨by decide, .inl rfl, ⟨.inr (.inr rfl), rfl⟩, 2, [8, 9], rfl, rfl, by decide⟩

theorem witness_ErrorsArePrecise :
    exec (.fbRd 0) State.reset = .next (State.reset.answer .badCommand 0) ∧ isCommand (.fbRd 0) = true ∧
      isCommand .rxParse = true ∧ answerOf (exec .rxParse State.reset) = some ⟨.invalidLength, 0⟩ ∧
      answerOf (exec .rxParse (framed [0x01, 0x07, 0x00, 0x00, 0x00, 0x00, 0xB4, 0x0A])) =
        some ⟨.exception, 1⟩ := by
  refine ⟨rfl, rfl, rfl, rfl, by decide +kernel⟩

theorem witness_StatusesAreThoseOfTheTable : ∃ t, exec .hdrTlast State.reset = .next t := ⟨_, rfl⟩

theorem witness_OnlyTheListedCommandsWrite :
    isCommand (.crcUpd 1) = true ∧ Instr.crcUpd 1 ≠ .sysReset ∧ (∃ t, exec (.crcUpd 1) State.reset = .next t) ∧
      (after (exec (.crcUpd 1) State.reset)).crc ≠ State.reset.crc := by
  refine ⟨rfl, by simp, ⟨_, rfl⟩, by decide⟩

theorem witness_StepsNeverReachTheStorage :
    ∃ t, step { State.reset with pending := [.command 0x33000000 0] } = .next t := ⟨_, rfl⟩

theorem witness_StorageReturnsWhatWasWritten :
    State.reset.wf = true ∧ 2 ^ 32 - 3 + ([1, 2, 3] : List Byte).length ≤ 2 ^ 32 ∧ State.reset.io = [] ∧
      ({ State.reset with io := [.failed [9]] } : State).io = .failed [9] :: [] := ⟨rfl, by decide, rfl, rfl⟩

/-- Storage with a valid primary page of zeros, or a valid secondary (section 2.1 of spec/95: 1022 zeros check to
0x9FF5). -/
def zeroPage (base : Nat) : State := { State.reset with storage := [(base, 0xF5), (base + 1, 0x9F)] }

set_option maxRecDepth 20000 in
theorem primary_of_zeros_is_valid :
    st16 .little ((zeroPage 0).primary.take 2) = crc16 .ccittFalse ((zeroPage 0).primary.drop 2) := by
  decide +kernel

set_option maxRecDepth 20000 in
theorem secondary_of_zeros_is_valid :
    st16 .little ((zeroPage 1024).secondary.take 2) = crc16 .ccittFalse ((zeroPage 1024).secondary.drop 2) := by
  decide +kernel

set_option maxRecDepth 20000 in
theorem blank_pages_are_not_valid :
    st16 .little ((zeroPage 1024).primary.take 2) ≠ crc16 .ccittFalse ((zeroPage 1024).primary.drop 2) ∧
      st16 .little ((zeroPage 0).secondary.take 2) ≠ crc16 .ccittFalse ((zeroPage 0).secondary.drop 2) := by
  decide +kernel

theorem witness_LoadTakesTheFirstValidCopy :
    (zeroPage 0).io = [] ∧
      st16 .little ((zeroPage 0).primary.take 2) = crc16 .ccittFalse ((zeroPage 0).primary.drop 2) ∧
      st16 .little ((zeroPage 1024).primary.take 2) ≠ crc16 .ccittFalse ((zeroPage 1024).primary.drop 2) ∧
      st16 .little ((zeroPage 1024).secondary.take 2) = crc16 .ccittFalse ((zeroPage 1024).secondary.drop 2) ∧
      st16 .little ((zeroPage 0).secondary.take 2) ≠ crc16 .ccittFalse ((zeroPage 0).secondary.drop 2) ∧
      ({ zeroPage 0 with io := [.ok, .failed []] } : State).io = .ok :: .failed [] :: [] :=
  ⟨rfl, primary_of_zeros_is_valid, blank_pages_are_not_valid.1, secondary_of_zeros_is_valid,
    blank_pages_are_not_valid.2, rfl⟩

theorem witness_SaveWritesBothCopies :
    State.reset.wf = true ∧ State.reset.io = [] ∧
      ({ State.reset with io := [.failed [1]] } : State).io = .failed [1] :: [] ∧
      ({ State.reset with io := [.ok, .failed [1]] } : State).io = .ok :: .failed [1] :: [] := ⟨rfl, rfl, rfl, rfl⟩

theorem witness_SavedRecordSurvivesOneBadCopy :
    State.reset.wf = true ∧ State.reset.io = [] ∧ 1023 < 1024 ∧ 1024 ≤ 1024 ∧ 2047 < 2048 ∧
      (∃ b : Byte, b ≠ Memory.read State.reset.storage 1023) := by
  refine ⟨rfl, rfl, by decide, by decide, by decide, 1, by decide⟩

theorem witness_SaveSurvivesPowerLoss :
    State.reset.wf = true ∧ ({ State.reset with io := [.ok, .powerLoss [3]] } : State).io = [.ok, .powerLoss [3]] ∧
      ({ zeroPage 1024 with io := [.powerLoss []] } : State).io = [.powerLoss []] ∧
      pageValid (zeroPage 1024).params (zeroPage 1024).primary = false ∧
      pageValid (zeroPage 1024).params (zeroPage 1024).secondary = true :=
  ⟨rfl, rfl, rfl, decide_eq_false blank_pages_are_not_valid.1, decide_eq_true secondary_of_zeros_is_valid⟩

theorem smallRing_valid : smallRing.Valid where
  capacity_ne := by decide
  element_ne := by decide
  region_fits := by decide
  hdr_low := by decide
  hdr_high := by decide
  slot_low := by
    intro j _
    show 0x1000 ≤ 0x1000 + 4 + 4 * j
    omega
  slot_high := by
    intro j hj
    have h : j < 2 := hj
    show 0x1000 + 4 + 4 * j + 4 ≤ 0x1000 + regionSize 2
    rw [show regionSize 2 = 28 from rfl]
    omega
  slot_hdr := by
    intro j hj
    have h : j < 2 := hj
    left
    show 0x1000 + 4 + 4 * j + 4 ≤ 0x1000 + 4 + 4 * 2
    omega
  slot_slot := by
    intro i j _ _ h
    show 0x1000 + 4 + 4 * i + 4 ≤ 0x1000 + 4 + 4 * j ∨ 0x1000 + 4 + 4 * j + 4 ≤ 0x1000 + 4 + 4 * i
    omega

/-- A ready ring with the given header. -/
theorem smallRing_ready (size off time : Word32) (hs : size.toNat ≤ 2) (ho : off.toNat < 2) :
    RingReady smallRing (ring 2 60 size off time) :=
  ⟨rfl, rfl, rfl, ho, hs, rfl, rfl⟩

/-- A ready ring whose header is in storage. -/
def storedRing : State :=
  { ring 2 60 2 1 120 with storage := Memory.writeAll [] smallRing.hdrAddr (hdrEncode {} 2 1 120) }

theorem storedRing_ready : RingReady smallRing storedRing :=
  ⟨rfl, rfl, rfl, by decide, by decide, by decide +kernel, rfl⟩

theorem witness_NewReadsTheStoredHeader :
    smallRing.Valid ∧ State.reset.wf = true ∧ State.reset.io = [] ∧
      crc16 .ccittFalse ((Memory.slice State.reset.storage smallRing.hdrAddr 14).take 12) ≠
        (hdrDecode {} (Memory.slice State.reset.storage smallRing.hdrAddr 14)).crc ∧
      storedRing.wf = true ∧ storedRing.io = [] ∧
      crc16 .ccittFalse ((Memory.slice storedRing.storage smallRing.hdrAddr 14).take 12) =
        (hdrDecode {} (Memory.slice storedRing.storage smallRing.hdrAddr 14)).crc ∧
      ({ State.reset with io := [.failed []] } : State).io = .failed [] :: [] := by
  refine ⟨smallRing_valid, rfl, rfl, ?_, storedRing_ready.spaces, rfl, ?_, rfl⟩ <;> decide +kernel

/-- The last write of an `add` of one round fails. -/
def failingRing : State := { ring 2 60 2 1 120 with io := [.ok, .failed [9]] }

theorem failingRing_ready : RingReady smallRing { failingRing with io := [] } :=
  ⟨rfl, rfl, rfl, by decide, by decide, rfl, rfl⟩

theorem witness_AddStoresTheValueAndTheHeader :
    smallRing.Valid ∧ RingReady smallRing (ring 2 60 0 0 0) ∧ RingReady smallRing (ring 2 60 2 1 120) ∧
      (RingReady smallRing { failingRing with io := [] } ∧
        failingRing.io = List.replicate 1 .ok ++ .failed [9] :: [] ∧ failingRing.addRounds (quant 180) = 1 ∧
        1 < 2 * failingRing.addRounds (quant 180)) :=
  ⟨smallRing_valid, smallRing_ready 0 0 0 (by decide) (by decide), smallRing_ready 2 1 120 (by decide) (by decide),
    failingRing_ready, rfl, by decide, by decide⟩

theorem witness_ForwardGapIsFilledWithZeros :
    smallRing.Valid ∧ RingReady smallRing (ring 2 60 0 0 0) ∧ (ring 2 60 0 0 0).hSize = 0 ∧
      smallRing.elementSize.toNat % 60 = 0 ∧ 1 < smallRing.capacity.toNat ∧
      (130#32).toNat = (70#32).toNat + 1 * smallRing.elementSize.toNat :=
  ⟨smallRing_valid, smallRing_ready 0 0 0 (by decide) (by decide), rfl, by decide, by decide, by decide⟩

theorem witness_BackwardAddDropsTheNewerBuckets :
    smallRing.Valid ∧ RingReady smallRing (ring 2 60 2 1 120) ∧ 1 < (ring 2 60 2 1 120).hSize.toNat ∧
      quant (61#32).toNat + 1 * smallRing.elementSize.toNat = (ring 2 60 2 1 120).hTime.toNat ∧
      0 < 1 ∧ 1 < (ring 2 60 2 1 120).hSize.toNat :=
  ⟨smallRing_valid, smallRing_ready 2 1 120 (by decide) (by decide), by decide, by decide, by decide, by decide⟩

/-- A ring of three slots at the start of the stat page. -/
def midRing : RingInstance := .atOffset 3 60 0x1000

/-- That ring with one bucket, its header in storage, and power lost at a storage access. -/
def interruptedRing (n : Nat) (torn : List Byte) : State :=
  { ring 3 60 1 0 120 with
    storage := Memory.writeAll [] midRing.hdrAddr (hdrEncode {} 1 0 120)
    io := List.replicate n .ok ++ [.powerLoss torn] }

theorem midRing_valid : midRing.Valid where
  capacity_ne := by decide
  element_ne := by decide
  region_fits := by decide
  hdr_low := by decide
  hdr_high := by decide
  slot_low := by
    intro j _
    show 0x1000 ≤ 0x1000 + 4 + 4 * j
    omega
  slot_high := by
    intro j hj
    have h : j < 3 := hj
    show 0x1000 + 4 + 4 * j + 4 ≤ 0x1000 + regionSize 3
    rw [show regionSize 3 = 32 from rfl]
    omega
  slot_hdr := by
    intro j hj
    have h : j < 3 := hj
    left
    show 0x1000 + 4 + 4 * j + 4 ≤ 0x1000 + 4 + 4 * 3
    omega
  slot_slot := by
    intro i j _ _ h
    show 0x1000 + 4 + 4 * i + 4 ≤ 0x1000 + 4 + 4 * j ∨ 0x1000 + 4 + 4 * j + 4 ≤ 0x1000 + 4 + 4 * i
    omega

theorem interruptedRing_ready (n : Nat) (torn : List Byte) :
    RingReady midRing { interruptedRing n torn with io := [] } :=
  ⟨rfl, rfl, rfl, by show 0 < 3; decide, by show 1 ≤ 3; decide,
    by show ({ interruptedRing 0 [] with io := [] } : State).wf = true; decide +kernel, rfl⟩

/-- The bytes after the torn write, where an `add` two buckets ahead is cut off. -/
def cutOff (n : Nat) (torn : List Byte) : List Byte :=
  match ringAdd midRing 7 240 (interruptedRing n torn) with
  | .crashed t => Memory.slice t.storage midRing.hdrAddr 14
  | _ => []

/-- The hypotheses at the first write, the first header write and the last header write of an `add` of two rounds, and
a torn header that fails its CRC. -/
theorem witness_AddInterruptedKeepsThePriorHeader :
    midRing.Valid ∧ (∀ n torn, RingReady midRing { interruptedRing n torn with io := [] }) ∧
      (∀ n torn, (interruptedRing n torn).io = List.replicate n .ok ++ [.powerLoss torn]) ∧
      (interruptedRing 0 []).addRounds (quant 240) = 2 ∧ 3 < 2 * (interruptedRing 3 []).addRounds (quant 240) ∧
      Memory.slice (interruptedRing 0 []).storage midRing.hdrAddr 14 = hdrEncode {} 1 0 120 ∧
      cutOff 1 [] = hdrEncode {} 1 0 120 ∧ cutOff 3 [] = hdrEncode {} 2 1 180 ∧
      hdrCrc {} (cutOff 3 [9]) ≠ (hdrDecode {} (cutOff 3 [9])).crc :=
  ⟨midRing_valid, interruptedRing_ready, fun _ _ => rfl, by decide, by decide, by decide +kernel, by decide +kernel,
    by decide +kernel, by decide +kernel⟩

/-- A state with the invariant, slave address 1 and nothing parsed. -/
theorem framed_empty_inv : (framed []).Inv := by
  refine ⟨?_, ?_, ?_, ?_, ?_, ?_, ?_, ?_, ?_, ?_, ?_⟩ <;> decide +kernel

theorem witness_HandlerAnswersEveryGoodFrame :
    (framed []).Inv ∧ readRequestBytes.length ≤ 256 ∧ (framed []).params.answerBroadcast = true ∧
      (∀ ev ∈ (framed []).io, ∃ torn, ev = .ok ∨ ev = .failed torn) ∧
      passesChecks (framed []) readRequestBytes = true ∧ passesChecks (framed []) [0x01] = false := by
  refine ⟨framed_empty_inv, by decide, rfl, ?_, by decide +kernel, by decide +kernel⟩
  intro ev h
  cases h

/-- The hypotheses, and for each case of the answer the start and quantity at the ends of its range: (a, n) for
0x03 and 0x04. -/
theorem witness_HandlerReadsTheMirror :
    (framed []).Inv ∧ (1#8 = (framed []).slaveAddr ∨ 1#8 = 0) ∧ (framed []).params.answerBroadcast = true ∧
      (∀ n ∈ [(0#16).toNat, (126#16).toNat], n < 1 ∨ 125 < n) ∧
      (∀ p ∈ [(0, 1), (0, 32), (31, 1)], 1 ≤ p.2 ∧ p.1 + p.2 ≤ 32) ∧
      (∀ p ∈ [(100, 1), (100, 8), (107, 1)], 32 < p.1 + p.2 ∧ 100 ≤ p.1 ∧ p.1 + p.2 ≤ 108) ∧
      (∀ p ∈ [(31, 2), (32, 1), (99, 1), (99, 2), (100, 9), (108, 1), (0, 125)],
        32 < p.1 + p.2 ∧ ¬ (100 ≤ p.1 ∧ p.1 + p.2 ≤ 108)) ∧
      (∀ p ∈ [(0, 1), (0, 8), (7, 1)], p.1 + p.2 ≤ 8) ∧ (∀ p ∈ [(0, 9), (8, 1), (7, 2)], 8 < p.1 + p.2) :=
  ⟨framed_empty_inv, .inl rfl, rfl, by decide, by decide, by decide, by decide, by decide, by decide⟩

/-- The invariant does not speak of what the coming storage accesses do. -/
theorem framed_failing_inv (io : List IoEvent) : ({ framed [] with io := io } : State).Inv := by
  have h := framed_empty_inv
  exact ⟨h.spaces, h.len_le, h.kind_le, h.parsed_len, h.parsed_slave, h.parsed_func, h.parsed_kind,
    h.parsed_fields, h.parsed_crc, h.parsed_count, h.crc_loaded⟩

theorem witness_HandlerWritesOneRegister :
    (framed []).Inv ∧ (1#8 = (framed []).slaveAddr ∨ 1#8 = 0) ∧ (framed []).params.answerBroadcast = true ∧
      (0x10#8 = 0x10 ∧ (∀ q ∈ [1#16, 32#16, 123#16], 0 < q.toNat ∧ q.toNat ≤ 123 ∧
        (List.replicate (2 * q.toNat) (0 : Byte)).length = 2 * q.toNat)) ∧
      (32 < (32#16).toNat + 1 ∧ 32 < (31#16).toNat + (2#16).toNat) ∧
      ((31#16).toNat + 1 ≤ 32 ∧ (0#16).toNat + (32#16).toNat ≤ 32 ∧ (framed []).io = []) ∧
      ({ framed [] with io := [.failed [5]] } : State).Inv ∧
      ({ framed [] with io := [.failed [5]] } : State).io = .failed [5] :: [] ∧
      ({ framed [] with io := [.ok, .failed []] } : State).Inv ∧
      ({ framed [] with io := [.ok, .failed []] } : State).io = .ok :: .failed [] :: [] := by
  refine ⟨framed_empty_inv, .inl rfl, rfl, ⟨rfl, ?_⟩, by decide, by decide, framed_failing_inv _, rfl,
    framed_failing_inv _, rfl⟩
  intro q h
  rw [List.length_replicate]
  simp only [List.mem_cons, List.not_mem_nil, or_false] at h
  rcases h with rfl | rfl | rfl <;> decide

end Sys2Proof.Tests
end

section
/-! O43 (R15, R259). Of the invariant of R41 only the bound of `FB_LEN` (R28) matters here: the model's one fault,
`noSuchFrameByte`, needs a longer frame. So each meaning is shown to answer from every state whose frame fits the
buffer, and to leave such a state; a run then follows by induction on its length. -/

namespace Sys2Proof.Machine

/-! ### What a command has to do -/

/-- The frame fits the buffer (R28). -/
def State.FrameFits (s : State) : Prop := s.fbLen.toNat ≤ Config.fbCap

/-- What a command leaves behind: a response on the port, and the frame fits the buffer. -/
structure State.Answered (s : State) : Prop where
  fits : s.FrameFits
  responded : ∃ r, s.resp = some r

/-- The outcome is a next state in which the command has answered. -/
def Answers (o : Out) : Prop := ∃ t, o = .next t ∧ t.Answered

theorem Answers.ends_fitting {o : Out} (h : Answers o) : ∃ t, o = .next t ∧ t.FrameFits :=
  h.imp fun _ ⟨ho, ht⟩ => ⟨ho, ht.fits⟩

/-- A meaning that answers from every state whose frame fits the buffer. -/
def AlwaysAnswers (m : State → Out) : Prop := ∀ s : State, s.FrameFits → Answers (m s)

theorem State.Inv.frameFits {s : State} (h : s.Inv) : s.FrameFits := h.len_le

theorem State.FrameFits.of_fbLen_eq {s t : State} (hs : s.FrameFits) (h : t.fbLen = s.fbLen) : t.FrameFits := by
  rw [State.FrameFits, h]
  exact hs

theorem resetBlock_fits (s : State) : s.resetBlock.FrameFits := Nat.zero_le _

theorem powerOn_fits (s : State) : s.powerOn.FrameFits := Nat.zero_le _

section

/-! ### The shared operations -/

variable {s : State}

theorem answer_answers (st : Status) (v : Word32) (hs : s.FrameFits) : Answers (.next (s.answer st v)) :=
  ⟨_, rfl, hs, _, rfl⟩

theorem respond_answers (v : Word32) (hs : s.FrameFits) : Answers (respond v s) := answer_answers .ok v hs

theorem raise_answers (st : Status) (hs : s.FrameFits) : Answers (raise st s) := answer_answers st 0 hs

theorem raiseException_answers (c : Byte) (hs : s.FrameFits) : Answers (raiseException c s) :=
  answer_answers .exception _ hs

/-- A check that fails raises its status, whatever the command would have done. -/
theorem check_answers {c : Prop} [Decidable c] {st : Status} {o : Out} (hs : s.FrameFits) (ho : ¬ c → Answers o) :
    Answers (if c then raise st s else o) := by
  split
  next => exact raise_answers st hs
  next h => exact ho h

/-- A new frame has to fit; the old one does not matter. -/
theorem respond_setFrame_answers (m : Memory) {n : BitVec 9} (h : n.toNat ≤ 256) :
    Answers (respond 0 (s.setFrame m n)) :=
  respond_answers 0 h

theorem requireConfigured_answers {k : State → Out} (hk : AlwaysAnswers k) :
    AlwaysAnswers (requireConfigured k) := by
  intro s hs
  obtain ⟨_, h⟩ | ⟨_, h⟩ := requireConfigured_cases k s <;> rw [h]
  · exact hk s hs
  · exact answer_answers _ _ hs

theorem requireLoaded_answers {k : State → Out} (hk : AlwaysAnswers k) : AlwaysAnswers (requireLoaded k) := by
  intro s hs
  obtain ⟨_, _, h⟩ | ⟨_, h⟩ := requireLoaded_cases k s <;> rw [h]
  · exact hk s hs
  · exact answer_answers _ _ hs

/-- A sequence of at least one command: the first one puts a response on the port, and the rest keep one there. -/
theorem seqOk_alwaysAnswers {ms : List (State → Out)} (hne : ms ≠ []) (hms : ∀ m ∈ ms, AlwaysAnswers m) :
    AlwaysAnswers (seqOk ms) := by
  intro s hs
  cases ms with
  | nil => exact absurd rfl hne
  | cons m ms =>
    obtain ⟨u, hu, hans⟩ := hms m List.mem_cons_self s hs
    rw [seqOk_cons hu]
    cases u.lastOk
    · exact ⟨u, rfl, hans⟩
    · exact seqOk_answers (fun m' h' t ht => hms m' (List.mem_cons_of_mem _ h') t ht.fits) hans

/-! ### System and CRC unit -/

theorem writeReg_fbLen {r : Reg} {v : Word32} {t : State} (h : s.writeReg r v = some t) : t.fbLen = s.fbLen := by
  cases r with
  | slaveAddr =>
    rw [State.writeReg] at h
    split at h
    · cases h
    · cases h
      rfl
  | capacity | elementSize =>
    cases h
    rfl
  | _ => cases h

theorem execRegRd_answers (r : Byte) : AlwaysAnswers (execRegRd r) := by
  intro s hs
  unfold execRegRd
  split
  · exact respond_answers _ hs
  · exact raise_answers _ hs

theorem execRegWr_answers (r : Byte) (v : Word32) : AlwaysAnswers (execRegWr r v) := by
  intro s hs
  unfold execRegWr
  split
  next t h =>
    obtain ⟨reg, _, hw⟩ := Option.bind_eq_some_iff.1 h
    exact respond_answers _ (hs.of_fbLen_eq (writeReg_fbLen hw))
  next => exact raise_answers _ hs

theorem execSysReset_answers : AlwaysAnswers execSysReset := fun s _ => respond_answers 0 (resetBlock_fits s)

theorem execCrcInit_answers (alg : Byte) : AlwaysAnswers (execCrcInit alg) := fun _ hs =>
  check_answers hs fun _ => respond_answers _ (hs.of_fbLen_eq rfl)

theorem execCrcUpd_answers (b : Byte) : AlwaysAnswers (execCrcUpd b) := fun _ hs =>
  respond_answers _ (hs.of_fbLen_eq rfl)

/-! ### Frame unit -/

theorem execFbClr_answers : AlwaysAnswers execFbClr := fun _ _ => respond_setFrame_answers _ (by decide)

/-- The fault needs a length above 256; a push at 256 is `BufferTooSmall`, and below it the frame fits again. -/
theorem execFbPush_answers (b : Byte) : AlwaysAnswers (execFbPush b) := by
  intro s hs
  have hle : s.fbLen.toNat ≤ 256 := hs
  by_cases hfull : s.fbLen.toNat = 256
  · rw [execFbPush, Config.fbCap_eq, if_pos hfull]
    exact raise_answers _ hs
  · rw [execFbPush_room b (by omega)]
    have hgrow : (s.fbLen + 1).toNat ≤ 256 := by bv_omega
    exact respond_setFrame_answers _ hgrow

theorem execFbRd_answers (i : Byte) : AlwaysAnswers (execFbRd i) := fun _ hs =>
  check_answers hs fun _ => respond_answers _ hs

theorem acceptRequest_answers (kind : BitVec 3) (count : Byte) : AlwaysAnswers (acceptRequest kind count) :=
  fun _ hs => respond_answers _ (hs.of_fbLen_eq rfl)

theorem dispatchFunction_answers (len : Nat) : AlwaysAnswers (dispatchFunction len) := by
  intro s hs
  unfold dispatchFunction
  split
  · exact acceptRequest_answers _ _ s hs
  · exact acceptRequest_answers _ _ s hs
  · exact acceptRequest_answers _ _ s hs
  · exact check_answers hs fun _ => check_answers hs fun _ => acceptRequest_answers _ _ s hs
  · exact raiseException_answers _ hs

/-- The fault needs a length above 256; every other check that fails raises its own status. -/
theorem execRxParse_answers : AlwaysAnswers execRxParse := by
  intro s hs
  have hcleared : ({ s with rKind := 0 } : State).FrameFits := hs
  have hbound : ¬ s.fbLen.toNat > Config.fbCap := Nat.not_lt.2 hs
  refine check_answers hcleared fun _ => ?_
  rw [if_neg hbound]
  refine check_answers hcleared fun _ => ?_
  split
  · exact dispatchFunction_answers _ _ (hs.of_fbLen_eq rfl)
  · exact raise_answers _ hcleared

theorem execTxBegin_answers (slave func : Byte) : AlwaysAnswers (execTxBegin slave func) := fun _ _ =>
  respond_setFrame_answers _ (by decide)

theorem execTxSeal_answers : AlwaysAnswers execTxSeal := by
  intro s hs
  refine check_answers hs fun hroom => ?_
  rw [Config.fbCap_eq] at hroom
  exact respond_setFrame_answers _ (by bv_omega)

theorem execTxExc_answers (slave func code : Byte) : AlwaysAnswers (execTxExc slave func code) := fun _ _ =>
  respond_setFrame_answers _ (by decide)

/-! ### Header unit

None of these commands writes `FB_LEN`. -/

theorem execHbWr_answers (i b : Byte) : AlwaysAnswers (execHbWr i b) := fun _ hs =>
  check_answers hs fun _ => respond_answers _ (hs.of_fbLen_eq rfl)

theorem execHbRd_answers (i : Byte) : AlwaysAnswers (execHbRd i) := fun _ hs =>
  check_answers hs fun _ => respond_answers _ hs

theorem execHdrLoad_answers : AlwaysAnswers execHdrLoad := by
  refine requireConfigured_answers fun s hs => ?_
  unfold loadHeader
  dsimp only
  split
  · exact respond_answers _ (hs.of_fbLen_eq rfl)
  · exact respond_answers _ (hs.of_fbLen_eq rfl)

theorem execHdrSeal_answers : AlwaysAnswers execHdrSeal :=
  requireLoaded_answers fun _ hs => respond_answers _ (hs.of_fbLen_eq rfl)

theorem execHdrReset_answers : AlwaysAnswers execHdrReset :=
  requireConfigured_answers fun _ hs => respond_answers _ (hs.of_fbLen_eq rfl)

theorem execHdrStart_answers (t : Word32) : AlwaysAnswers (execHdrStart t) :=
  requireLoaded_answers fun _ hs => check_answers hs fun _ => respond_answers _ (hs.of_fbLen_eq rfl)

theorem execHdrAdv_answers : AlwaysAnswers execHdrAdv :=
  requireLoaded_answers fun _ hs => check_answers hs fun _ => respond_answers _ (hs.of_fbLen_eq rfl)

theorem execHdrRet_answers : AlwaysAnswers execHdrRet :=
  requireLoaded_answers fun _ hs => check_answers hs fun _ => check_answers hs fun _ =>
    respond_answers _ (hs.of_fbLen_eq rfl)

theorem execHdrTfirst_answers : AlwaysAnswers execHdrTfirst :=
  requireLoaded_answers fun _ hs => check_answers hs fun _ => check_answers hs fun _ => respond_answers _ hs

theorem execHdrTlast_answers : AlwaysAnswers execHdrTlast :=
  requireLoaded_answers fun _ hs => check_answers hs fun _ => respond_answers _ hs

theorem execHdrFind_answers (t : Word32) : AlwaysAnswers (execHdrFind t) := by
  refine requireLoaded_answers fun s hs => ?_
  unfold findBucket
  split
  · exact respond_answers _ hs
  · exact raise_answers _ hs

/-! ### Byte formats

Any bytes may be loaded, a frame that is too long too: the push that does not fit answers `BufferTooSmall`. -/

theorem mem_map_execFbPush_answers {bs : List Byte} {m : State → Out} (h : m ∈ bs.map execFbPush) :
    AlwaysAnswers m := by
  obtain ⟨b, _, rfl⟩ := List.mem_map.1 h
  exact execFbPush_answers b

theorem mem_hbWrites_answers {bs : List Byte} {i : Nat} {m : State → Out} (h : m ∈ hbWrites i bs) :
    AlwaysAnswers m := by
  induction bs generalizing i with
  | nil => cases h
  | cons b bs ih =>
    rcases List.mem_cons.1 h with rfl | h
    · exact execHbWr_answers _ b
    · exact ih h

theorem parseFrame_answers (bytes : List Byte) : AlwaysAnswers (parseFrame bytes) := by
  refine seqOk_alwaysAnswers (by simp [loadFrame]) fun m hm => ?_
  rcases List.mem_append.1 hm with hload | hparse
  · rcases List.mem_cons.1 hload with rfl | hpush
    · exact execFbClr_answers
    · exact mem_map_execFbPush_answers hpush
  · obtain rfl := List.mem_singleton.1 hparse
    exact execRxParse_answers

theorem buildResponse_answers (slave func : Byte) (data : List Byte) :
    AlwaysAnswers (buildResponse slave func data) := by
  refine seqOk_alwaysAnswers (List.cons_ne_nil _ _) fun m hm => ?_
  rcases List.mem_cons.1 hm with rfl | hrest
  · exact execTxBegin_answers slave func
  · rcases List.mem_append.1 hrest with hpush | hseal
    · exact mem_map_execFbPush_answers hpush
    · obtain rfl := List.mem_singleton.1 hseal
      exact execTxSeal_answers

theorem execHeaderImage_answers (size off time : Word32) (crc : Word16) :
    AlwaysAnswers (execHeaderImage size off time crc) :=
  seqOk_alwaysAnswers (List.cons_ne_nil _ _) fun _ => mem_hbWrites_answers

/-! ### Every instruction, every step, every run -/

/-- Every instruction answers from a state whose frame fits the buffer, and leaves such a state. -/
theorem exec_answers (i : Instr) : AlwaysAnswers (exec i) :=
  match i with
  | .regRd r => execRegRd_answers r
  | .regWr r v => execRegWr_answers r v
  | .crcInit alg => execCrcInit_answers alg
  | .crcUpd b => execCrcUpd_answers b
  | .fbClr => execFbClr_answers
  | .fbPush b => execFbPush_answers b
  | .fbRd k => execFbRd_answers k
  | .rxParse => execRxParse_answers
  | .txBegin slave func => execTxBegin_answers slave func
  | .txSeal => execTxSeal_answers
  | .txExc slave func code => execTxExc_answers slave func code
  | .hbWr k b => execHbWr_answers k b
  | .hbRd k => execHbRd_answers k
  | .hdrLoad => execHdrLoad_answers
  | .hdrSeal => execHdrSeal_answers
  | .hdrReset => execHdrReset_answers
  | .hdrStart t => execHdrStart_answers t
  | .hdrAdv => execHdrAdv_answers
  | .hdrRet => execHdrRet_answers
  | .hdrTfirst => execHdrTfirst_answers
  | .hdrTlast => execHdrTlast_answers
  | .hdrFind t => execHdrFind_answers t
  | .sysReset => execSysReset_answers
  | .reqReadHolding _ _ _ _ _ => parseFrame_answers _
  | .reqReadInput _ _ _ _ _ => parseFrame_answers _
  | .reqWriteSingle _ _ _ _ _ => parseFrame_answers _
  | .reqWriteMultiple _ _ _ _ _ _ _ => parseFrame_answers _
  | .respNormal slave func data _ _ => buildResponse_answers slave func data
  | .respException slave func code _ _ => execTxExc_answers slave (0#1 ++ func) code
  | .headerImage size off time crc => execHeaderImage_answers size off time crc

/-- An input that is no instruction does not stop the block either; a power cycle leaves no response. -/
theorem answerReserved_fits (x : Input) (hs : s.FrameFits) : ∃ t, answerReserved x s = .next t ∧ t.FrameFits := by
  cases x with
  | command _ _ | normalResponse _ | exceptionResponse _ | image _ =>
    exact (raise_answers .badCommand hs).ends_fitting
  | request bytes => exact (parseFrame_answers bytes s hs).ends_fitting
  | powerCycle => exact ⟨_, rfl, powerOn_fits s⟩

/-- A step from a state whose frame fits the buffer ends, and leaves such a state. -/
theorem step_fits (hs : s.FrameFits) : ∃ t, step s = .next t ∧ t.FrameFits := by
  unfold step
  split
  next => exact ⟨s, rfl, hs⟩
  next x rest _ =>
    have htaken : ({ s with pending := rest } : State).FrameFits := hs
    split
    next i _ => exact (exec_answers i _ htaken).ends_fitting
    next => exact answerReserved_fits x htaken

theorem run_succ (M : Host.Core) {a b : M.State} (n : Nat) (h : M.step a = .next b) :
    M.run (n + 1) a = M.run n b := by
  rw [Host.Core.run, h]

theorem safeFrom_of_frameFits (hs : s.FrameFits) : SafeFrom s := by
  intro n
  induction n generalizing s with
  | zero => exact ⟨s, rfl⟩
  | succ n ih =>
    obtain ⟨t, hstep, ht⟩ := step_fits hs
    obtain ⟨u, hrun⟩ := ih ht
    exact ⟨u, (run_succ Sys2Proof.core n hstep).trans hrun⟩

end

/-- Settles O43: `FB_LEN ≤ 256` is the part of the invariant that every instruction needs to answer and every step
keeps. -/
theorem nothingEverStopsTheBlock : Obligations.NothingEverStopsTheBlock := by
  unfold Obligations.NothingEverStopsTheBlock
  refine fun s hinv => ⟨fun i => ?_, safeFrom_of_frameFits hinv.frameFits⟩
  obtain ⟨t, hexec, ⟨_, r, hr⟩⟩ := exec_answers i s hinv.frameFits
  exact ⟨t, r, hexec, hr⟩

end Sys2Proof.Machine
end

section
/-! The state's own statements that need no invariant: the reset values (O1, R40), and the two stops of the model
with `FB_LEN` above the buffer (O17, log entry 20). -/

namespace Sys2Proof.Machine

/-- The reset table speaks of the block's own fields only: whatever the model's fields hold, it is satisfied. -/
theorem reset_with_hasResetValues (r : Option Response) (xs : List Input) (m : Memory) (e : List IoEvent)
    (p : Config.Params) :
    ({ State.reset with resp := r, pending := xs, storage := m, io := e, params := p } : State).HasResetValues where
  crc := rfl
  crc_alg := rfl
  slave_addr := rfl
  fb_len := rfl
  kind := rfl
  slave := rfl
  func := rfl
  addr := rfl
  qty := rfl
  count := rfl
  capacity := rfl
  element_size := rfl
  size := rfl
  off := rfl
  time := rfl
  header_crc := rfl
  flags := show State.reset.hFlags = 0 by decide
  frame_bytes _ := rfl
  image_bytes _ := rfl

/-- A power cycle is no instruction: the step that takes it restores the block's reset state. -/
theorem step_powerCycle {s : State} {rest : List Input} (h : s.pending = .powerCycle :: rest) :
    step s = .next { s with pending := rest }.powerOn := by
  rw [step, h]
  rfl

/-- Settles O1: `SYS.RESET` and a power cycle both leave `State.reset` but for the model's own fields. -/
theorem resetRestoresEveryValue : Obligations.ResetRestoresEveryValue := by
  unfold Obligations.ResetRestoresEveryValue
  refine ⟨reset_with_hasResetValues _ _ _ _ _, rfl, fun s => ?_, fun s rest hpending => ?_⟩
  · exact ⟨s.resetBlock.answer .ok 0, rfl, reset_with_hasResetValues _ _ _ _ _, rfl, rfl, rfl, rfl, rfl⟩
  · exact ⟨_, step_powerCycle hpending, reset_with_hasResetValues _ _ _ _ _, rfl, rfl, rfl, rfl⟩

theorem execFbPush_beyond {s : State} (b : Byte) (h : 256 < s.fbLen.toNat) :
    execFbPush b s = .fault (.noSuchFrameByte s.fbLen.toNat) := by
  rw [execFbPush, Config.fbCap_eq, if_neg (by omega), if_pos h]

theorem execRxParse_beyond {s : State} (h : 256 < s.fbLen.toNat) :
    execRxParse s = .fault (.noSuchFrameByte 256) := by
  simp only [execRxParse, Config.minFrame_eq, Config.fbCap_eq]
  rw [if_neg (by omega), if_pos h]

/-- Settles O17: above 256 the check of the length is the only one that either command reaches. -/
theorem framesBeyondTheBufferStop : Obligations.FramesBeyondTheBufferStop := by
  unfold Obligations.FramesBeyondTheBufferStop
  exact fun s h => ⟨execRxParse_beyond h, fun b => execFbPush_beyond b h⟩

end Sys2Proof.Machine
end

section
/-! O46 (R21, R24, R32, R37). A command's footprint: the parts of the state that it may change. `writes` gives it for
each instruction, `exec_unchanged` shows that nothing else changes, and `Listed` reads the same table the other way,
from a part to its writers, as R21 does. -/

namespace Sys2Proof.Machine

/-! ### Statements about where an outcome ends -/

/-- If the outcome is a next state, `Q` holds of it. -/
def Ends (Q : State → Prop) (o : Out) : Prop := ∀ t, o = .next t → Q t

/-- A meaning that leads from states with `P` to states with `P`. -/
def Keeps (P : State → Prop) (m : State → Out) : Prop := ∀ s, P s → Ends P (m s)

section

variable {P Q : State → Prop} {s : State}

theorem ends_next {t : State} (h : Q t) : Ends Q (.next t) := by
  rintro _ ⟨⟩
  exact h

theorem ends_fault (f : Fault) : Ends Q (.fault f) := by
  intro t ht
  cases ht

theorem Ends.mono {o : Out} (h : Ends P o) (hPQ : ∀ t, P t → Q t) : Ends Q o := fun t ht => hPQ t (h t ht)

/-- A check either raises its status, or the command goes on. -/
theorem ends_check {c : Prop} [Decidable c] {st : Status} {o : Out} (hraise : Q (s.answer st 0))
    (hgo : ¬ c → Ends Q o) : Ends Q (if c then raise st s else o) := by
  split
  next => exact ends_next hraise
  next h => exact hgo h

theorem ends_requireConfigured {k : State → Out} (hraise : Q (s.answer .uninitialized 0)) (hgo : Ends Q (k s)) :
    Ends Q (requireConfigured k s) := by
  obtain ⟨_, h⟩ | ⟨_, h⟩ := requireConfigured_cases k s <;> rw [h]
  · exact hgo
  · exact ends_next hraise

theorem ends_requireLoaded {k : State → Out} (hraise : Q (s.answer .uninitialized 0)) (hgo : Ends Q (k s)) :
    Ends Q (requireLoaded k s) := by
  obtain ⟨_, _, h⟩ | ⟨_, h⟩ := requireLoaded_cases k s <;> rw [h]
  · exact hgo
  · exact ends_next hraise

/-- What an accepted write to a register stored, or `BadCommand`. -/
theorem ends_execRegWr {r : Byte} {v : Word32} (hraise : Q (s.answer .badCommand 0))
    (hgo : ∀ reg t, regOfNumber r = some reg → s.writeReg reg v = some t → Q (t.answer .ok 0)) :
    Ends Q (execRegWr r v s) := by
  unfold execRegWr
  split
  next t h =>
    obtain ⟨reg, hreg, hwrite⟩ := Option.bind_eq_some_iff.1 h
    exact ends_next (hgo reg t hreg hwrite)
  next => exact ends_next hraise

theorem ends_loadHeader
    (hmatch : ∀ c size off time, Q ((({ s with hCrc := c }.setHeader size off time).setFlags true true).answer .ok 0))
    (hmismatch : ∀ c, Q ((({ s with hCrc := c }.setHeader 0 0 0).setFlags true false).answer .ok 0)) :
    Ends Q (loadHeader s) := by
  unfold loadHeader
  dsimp only
  split
  · exact ends_next (hmatch _ _ _ _)
  · exact ends_next (hmismatch _)

theorem seqOk_keeps_all {ms : List (State → Out)} (h : ∀ m ∈ ms, Keeps P m) : Keeps P (seqOk ms) :=
  fun _ hs _ => seqOk_keeps (fun m hm s t hs => h m hm s hs t) hs

theorem pushes_keep (hpush : ∀ b, Keeps P (execFbPush b)) (bytes : List Byte) :
    ∀ m ∈ bytes.map execFbPush, Keeps P m := by
  intro m hm
  obtain ⟨b, _, rfl⟩ := List.mem_map.1 hm
  exact hpush b

theorem hbWrites_keep (hwrite : ∀ i b, Keeps P (execHbWr i b)) (i : Nat) (bytes : List Byte) :
    ∀ m ∈ hbWrites i bytes, Keeps P m := by
  induction bytes generalizing i with
  | nil => nofun
  | cons b bs ih => exact List.forall_mem_cons.2 ⟨hwrite _ b, ih (i + 1)⟩

/-- `PARSE` keeps what its three commands keep. -/
theorem parseFrame_keeps (hclr : Keeps P execFbClr) (hpush : ∀ b, Keeps P (execFbPush b))
    (hparse : Keeps P execRxParse) (bytes : List Byte) : Keeps P (parseFrame bytes) :=
  seqOk_keeps_all (List.forall_mem_append.2
    ⟨List.forall_mem_cons.2 ⟨hclr, pushes_keep hpush bytes⟩, List.forall_mem_singleton.2 hparse⟩)

/-- `RESP` keeps what its three commands keep. -/
theorem buildResponse_keeps {slave func : Byte} (hbegin : Keeps P (execTxBegin slave func))
    (hpush : ∀ b, Keeps P (execFbPush b)) (hseal : Keeps P execTxSeal) (data : List Byte) :
    Keeps P (buildResponse slave func data) :=
  seqOk_keeps_all (List.forall_mem_cons.2 ⟨hbegin, List.forall_mem_append.2
    ⟨pushes_keep hpush data, List.forall_mem_singleton.2 hseal⟩⟩)

/-- `HB.LOAD` keeps what `HB.WR` keeps. -/
theorem loadImage_keeps (hwrite : ∀ i b, Keeps P (execHbWr i b)) (bytes : List Byte) : Keeps P (loadImage bytes) :=
  seqOk_keeps_all (hbWrites_keep hwrite 0 bytes)

end

/-! ### Footprints -/

/-- The parts of the state that the register table lists writers for (R21, R24, R32, R37), and the storage, which has
none. The five request registers have one writer, and so have the three header fields: each is one part. -/
inductive Part where
  | crc | crcAlg | slaveAddr | fbLen | fb | rKind | request | capacity | elementSize | header | hCrc | loaded | crcOk
  | hb | storage

/-- The type of a part's value. -/
abbrev Part.Value : Part → Type
  | .crc => Word16
  | .crcAlg => BitVec 1
  | .slaveAddr => Byte
  | .fbLen => BitVec 9
  | .fb => Memory
  | .rKind => BitVec 3
  | .request => Byte × Byte × Word16 × Word16 × Byte
  | .capacity => Word32
  | .elementSize => Word32
  | .header => Word32 × Word32 × Word32
  | .hCrc => Word16
  | .loaded => Bool
  | .crcOk => Bool
  | .hb => Memory
  | .storage => Memory

/-- The value of a part in a state. -/
@[simp] def State.part (s : State) : (p : Part) → p.Value
  | .crc => s.crc
  | .crcAlg => s.crcAlg
  | .slaveAddr => s.slaveAddr
  | .fbLen => s.fbLen
  | .fb => s.fb
  | .rKind => s.rKind
  | .request => (s.rSlave, s.rFunc, s.rAddr, s.rQty, s.rBc)
  | .capacity => s.capacity
  | .elementSize => s.elementSize
  | .header => (s.hSize, s.hOff, s.hTime)
  | .hCrc => s.hCrc
  | .loaded => s.loaded
  | .crcOk => s.crcOk
  | .hb => s.hb
  | .storage => s.storage

/-- Every part outside a footprint has the same value in both states. -/
def Unchanged (ps : List Part) (s t : State) : Prop := ∀ p ∉ ps, t.part p = s.part p

/-- What a host write to a register may change (R232). -/
def Reg.hostWrites : Reg → List Part
  | .slaveAddr => [.slaveAddr]
  | .capacity => [.capacity, .loaded, .crcOk]
  | .elementSize => [.elementSize, .loaded, .crcOk]
  | _ => []

/-- What a received frame may change. -/
def parseWrites : List Part := [.fbLen, .fb, .rKind, .request]

/-- The footprint of an instruction. -/
def writes : Instr → List Part
  | .regRd _ => []
  | .regWr r _ => (regOfNumber r).elim [] Reg.hostWrites
  | .crcInit _ => [.crc, .crcAlg]
  | .crcUpd _ => [.crc]
  | .fbClr => [.fbLen, .rKind]
  | .fbPush _ => [.fbLen, .fb, .rKind]
  | .fbRd _ => []
  | .rxParse => [.rKind, .request]
  | .txBegin _ _ => [.fbLen, .fb, .rKind]
  | .txSeal => [.fbLen, .fb, .rKind]
  | .txExc _ _ _ => [.fbLen, .fb, .rKind]
  | .hbWr _ _ => [.hb]
  | .hbRd _ => []
  | .hdrLoad => [.header, .hCrc, .loaded, .crcOk]
  | .hdrSeal => [.hCrc, .hb]
  | .hdrReset => [.header, .loaded]
  | .hdrStart _ => [.header]
  | .hdrAdv => [.header]
  | .hdrRet => [.header]
  | .hdrTfirst => []
  | .hdrTlast => []
  | .hdrFind _ => []
  | .sysReset =>
    [.crc, .crcAlg, .slaveAddr, .fbLen, .fb, .rKind, .request, .capacity, .elementSize, .header, .hCrc, .loaded,
      .crcOk, .hb]
  | .reqReadHolding _ _ _ _ _ => parseWrites
  | .reqReadInput _ _ _ _ _ => parseWrites
  | .reqWriteSingle _ _ _ _ _ => parseWrites
  | .reqWriteMultiple _ _ _ _ _ _ _ => parseWrites
  | .respNormal _ _ _ _ _ => [.fbLen, .fb, .rKind]
  | .respException _ _ _ _ _ => [.fbLen, .fb, .rKind]
  | .headerImage _ _ _ _ => [.hb]

section

variable {ps qs : List Part} {s t u : State}

@[simp] theorem Part.forall_iff {C : Part → Prop} :
    (∀ p, C p) ↔ C .crc ∧ C .crcAlg ∧ C .slaveAddr ∧ C .fbLen ∧ C .fb ∧ C .rKind ∧ C .request ∧ C .capacity ∧
      C .elementSize ∧ C .header ∧ C .hCrc ∧ C .loaded ∧ C .crcOk ∧ C .hb ∧ C .storage := by
  refine ⟨fun h => ⟨h _, h _, h _, h _, h _, h _, h _, h _, h _, h _, h _, h _, h _, h _, h _⟩, fun h p => ?_⟩
  cases p <;> simp only [h]

theorem Unchanged.mono (h : Unchanged ps s t) (hsub : ps ⊆ qs) : Unchanged qs s t :=
  fun p hp => h p (mt (@hsub p) hp)

theorem Unchanged.refl (ps : List Part) (s : State) : Unchanged ps s s := fun _ _ => rfl

theorem Unchanged.trans (h : Unchanged ps s t) (h' : Unchanged ps t u) : Unchanged ps s u :=
  fun p hp => (h' p hp).trans (h p hp)

/-- A meaning with a footprint keeps what is unchanged so far outside a wider one. -/
theorem keeps_unchanged {m : State → Out} (h : ∀ s, Ends (Unchanged ps s) (m s)) (hsub : ps ⊆ qs) (s₀ : State) :
    Keeps (Unchanged qs s₀) m :=
  fun s hs => (h s).mono fun _ ht => hs.trans (ht.mono hsub)

/-- An answer is written to the response port, which is no part of the block (R24). -/
theorem unchanged_answer (ps : List Part) (s : State) (st : Status) (v : Word32) : Unchanged ps s (s.answer st v) := by
  intro p _
  cases p <;> rfl

/-! ### The footprint of each command -/

theorem execRegRd_unchanged (r : Byte) (s : State) : Ends (Unchanged [] s) (execRegRd r s) := by
  unfold execRegRd
  split
  · exact ends_next (unchanged_answer _ _ _ _)
  · exact ends_next (unchanged_answer _ _ _ _)

theorem writeReg_unchanged {reg : Reg} {v : Word32} (h : s.writeReg reg v = some t) :
    Unchanged reg.hostWrites s t := by
  cases reg with
  | slaveAddr =>
    rw [State.writeReg] at h
    split at h
    · cases h
    · cases h
      simp [Unchanged, Reg.hostWrites]
  | capacity | elementSize =>
    cases h
    simp [Unchanged, Reg.hostWrites]
  | _ => cases h

theorem execRegWr_unchanged (r : Byte) (v : Word32) (s : State) :
    Ends (Unchanged (writes (.regWr r v)) s) (execRegWr r v s) := by
  refine ends_execRegWr (unchanged_answer _ _ _ _) fun reg t hreg hwrite => ?_
  rw [writes, hreg]
  exact (writeReg_unchanged hwrite).trans (unchanged_answer _ _ _ _)

theorem execSysReset_unchanged (s : State) : Ends (Unchanged (writes .sysReset) s) (execSysReset s) :=
  ends_next (by simp [Unchanged, writes])

theorem execCrcInit_unchanged (alg : Byte) (s : State) : Ends (Unchanged [.crc, .crcAlg] s) (execCrcInit alg s) :=
  ends_check (unchanged_answer _ _ _ _) fun _ => ends_next (by simp [Unchanged])

theorem execCrcUpd_unchanged (b : Byte) (s : State) : Ends (Unchanged [.crc] s) (execCrcUpd b s) :=
  ends_next (by simp [Unchanged])

/-- A new frame clears `R_KIND` (R29). -/
theorem respond_setFrame_unchanged (m : Memory) (n : BitVec 9) (s : State) :
    Ends (Unchanged [.fbLen, .fb, .rKind] s) (respond 0 (s.setFrame m n)) :=
  ends_next (by simp [Unchanged])

theorem execFbClr_unchanged (s : State) : Ends (Unchanged [.fbLen, .rKind] s) (execFbClr s) :=
  ends_next (by simp [Unchanged])

theorem execFbPush_unchanged (b : Byte) (s : State) :
    Ends (Unchanged [.fbLen, .fb, .rKind] s) (execFbPush b s) := by
  refine ends_check (unchanged_answer _ _ _ _) fun _ => ?_
  split
  · exact ends_fault _
  · exact respond_setFrame_unchanged _ _ s

theorem execFbRd_unchanged (i : Byte) (s : State) : Ends (Unchanged [] s) (execFbRd i s) :=
  ends_check (unchanged_answer _ _ _ _) fun _ => ends_next (unchanged_answer _ _ _ _)

theorem acceptRequest_unchanged (kind : BitVec 3) (count : Byte) (s : State) :
    Ends (Unchanged [.rKind, .request] s) (acceptRequest kind count s) :=
  ends_next (by simp [Unchanged])

theorem dispatchFunction_unchanged (len : Nat) (s : State) :
    Ends (Unchanged [.rKind, .request] s) (dispatchFunction len s) := by
  unfold dispatchFunction
  split
  · exact acceptRequest_unchanged _ _ s
  · exact acceptRequest_unchanged _ _ s
  · exact acceptRequest_unchanged _ _ s
  · exact ends_check (unchanged_answer _ _ _ _) fun _ => ends_check (unchanged_answer _ _ _ _) fun _ =>
      acceptRequest_unchanged _ _ s
  · exact ends_next (unchanged_answer _ _ _ _)

/-- What `RX.PARSE` has written when it reads the function code. -/
theorem clearedRequest_unchanged (slave func : Byte) (s : State) :
    Unchanged [.rKind, .request] s { s with rKind := 0, rSlave := slave, rFunc := func } := by
  simp [Unchanged]

theorem execRxParse_unchanged (s : State) : Ends (Unchanged [.rKind, .request] s) (execRxParse s) := by
  have hcleared (st : Status) : Unchanged [.rKind, .request] s (({ s with rKind := 0 } : State).answer st 0) :=
    (clearedRequest_unchanged s.rSlave s.rFunc s).trans (unchanged_answer _ _ _ _)
  refine ends_check (hcleared _) fun _ => ?_
  split
  · exact ends_fault _
  refine ends_check (hcleared _) fun _ => ?_
  split
  · exact (dispatchFunction_unchanged _ _).mono fun _ => (clearedRequest_unchanged _ _ s).trans
  · exact ends_next (hcleared _)

theorem execTxBegin_unchanged (slave func : Byte) (s : State) :
    Ends (Unchanged [.fbLen, .fb, .rKind] s) (execTxBegin slave func s) := respond_setFrame_unchanged _ _ s

theorem execTxSeal_unchanged (s : State) : Ends (Unchanged [.fbLen, .fb, .rKind] s) (execTxSeal s) :=
  ends_check (unchanged_answer _ _ _ _) fun _ => respond_setFrame_unchanged _ _ s

theorem execTxExc_unchanged (slave func code : Byte) (s : State) :
    Ends (Unchanged [.fbLen, .fb, .rKind] s) (execTxExc slave func code s) := respond_setFrame_unchanged _ _ s

theorem execHbWr_unchanged (i b : Byte) (s : State) : Ends (Unchanged [.hb] s) (execHbWr i b s) :=
  ends_check (unchanged_answer _ _ _ _) fun _ => ends_next (by simp [Unchanged])

theorem execHbRd_unchanged (i : Byte) (s : State) : Ends (Unchanged [] s) (execHbRd i s) :=
  ends_check (unchanged_answer _ _ _ _) fun _ => ends_next (unchanged_answer _ _ _ _)

theorem execHdrLoad_unchanged (s : State) :
    Ends (Unchanged [.header, .hCrc, .loaded, .crcOk] s) (execHdrLoad s) :=
  ends_requireConfigured (unchanged_answer _ _ _ _) (ends_loadHeader
    (fun _ _ _ _ => by simp [Unchanged])
    (fun _ => by simp [Unchanged]))

theorem execHdrSeal_unchanged (s : State) : Ends (Unchanged [.hCrc, .hb] s) (execHdrSeal s) :=
  ends_requireLoaded (unchanged_answer _ _ _ _) (ends_next (by simp [Unchanged]))

/-- The verdict on the stored image outlasts `HDR.RESET` (R174). -/
theorem execHdrReset_unchanged (s : State) : Ends (Unchanged [.header, .loaded] s) (execHdrReset s) :=
  ends_requireConfigured (unchanged_answer _ _ _ _) (ends_next (by simp [Unchanged]))

theorem respond_setHeader_unchanged (size off time : Word32) (s : State) :
    Ends (Unchanged [.header] s) (respond 0 (s.setHeader size off time)) :=
  ends_next (by simp [Unchanged])

theorem execHdrStart_unchanged (time : Word32) (s : State) : Ends (Unchanged [.header] s) (execHdrStart time s) :=
  ends_requireLoaded (unchanged_answer _ _ _ _) (ends_check (unchanged_answer _ _ _ _) fun _ =>
    respond_setHeader_unchanged _ _ _ s)

theorem execHdrAdv_unchanged (s : State) : Ends (Unchanged [.header] s) (execHdrAdv s) :=
  ends_requireLoaded (unchanged_answer _ _ _ _) (ends_check (unchanged_answer _ _ _ _) fun _ =>
    respond_setHeader_unchanged _ _ _ s)

theorem execHdrRet_unchanged (s : State) : Ends (Unchanged [.header] s) (execHdrRet s) :=
  ends_requireLoaded (unchanged_answer _ _ _ _) (ends_check (unchanged_answer _ _ _ _) fun _ =>
    ends_check (unchanged_answer _ _ _ _) fun _ => respond_setHeader_unchanged _ _ _ s)

theorem execHdrTfirst_unchanged (s : State) : Ends (Unchanged [] s) (execHdrTfirst s) :=
  ends_requireLoaded (unchanged_answer _ _ _ _) (ends_check (unchanged_answer _ _ _ _) fun _ =>
    ends_check (unchanged_answer _ _ _ _) fun _ => ends_next (unchanged_answer _ _ _ _))

theorem execHdrTlast_unchanged (s : State) : Ends (Unchanged [] s) (execHdrTlast s) :=
  ends_requireLoaded (unchanged_answer _ _ _ _) (ends_check (unchanged_answer _ _ _ _) fun _ =>
    ends_next (unchanged_answer _ _ _ _))

theorem execHdrFind_unchanged (time : Word32) (s : State) : Ends (Unchanged [] s) (execHdrFind time s) := by
  refine ends_requireLoaded (unchanged_answer _ _ _ _) ?_
  unfold findBucket
  split
  · exact ends_next (unchanged_answer _ _ _ _)
  · exact ends_next (unchanged_answer _ _ _ _)

/-! ### The footprint of each byte format, from those of the commands it runs -/

theorem parseFrame_unchanged (bytes : List Byte) (s : State) : Ends (Unchanged parseWrites s) (parseFrame bytes s) :=
  parseFrame_keeps (keeps_unchanged execFbClr_unchanged (by simp [parseWrites]) s)
    (fun b => keeps_unchanged (execFbPush_unchanged b) (by simp [parseWrites]) s)
    (keeps_unchanged execRxParse_unchanged (by simp [parseWrites]) s) bytes s (Unchanged.refl _ s)

theorem buildResponse_unchanged (slave func : Byte) (data : List Byte) (s : State) :
    Ends (Unchanged [.fbLen, .fb, .rKind] s) (buildResponse slave func data s) :=
  buildResponse_keeps (keeps_unchanged (execTxBegin_unchanged slave func) (List.Subset.refl _) s)
    (fun b => keeps_unchanged (execFbPush_unchanged b) (List.Subset.refl _) s)
    (keeps_unchanged execTxSeal_unchanged (List.Subset.refl _) s) data s (Unchanged.refl _ s)

theorem loadImage_unchanged (bytes : List Byte) (s : State) : Ends (Unchanged [.hb] s) (loadImage bytes s) :=
  loadImage_keeps (fun i b => keeps_unchanged (execHbWr_unchanged i b) (List.Subset.refl _) s) bytes s
    (Unchanged.refl _ s)

/-! ### The table -/

/-- No instruction changes anything outside its footprint. -/
theorem exec_unchanged (i : Instr) (s : State) : Ends (Unchanged (writes i) s) (exec i s) :=
  match i with
  | .regRd r => execRegRd_unchanged r s
  | .regWr r v => execRegWr_unchanged r v s
  | .crcInit alg => execCrcInit_unchanged alg s
  | .crcUpd b => execCrcUpd_unchanged b s
  | .fbClr => execFbClr_unchanged s
  | .fbPush b => execFbPush_unchanged b s
  | .fbRd k => execFbRd_unchanged k s
  | .rxParse => execRxParse_unchanged s
  | .txBegin slave func => execTxBegin_unchanged slave func s
  | .txSeal => execTxSeal_unchanged s
  | .txExc slave func code => execTxExc_unchanged slave func code s
  | .hbWr k b => execHbWr_unchanged k b s
  | .hbRd k => execHbRd_unchanged k s
  | .hdrLoad => execHdrLoad_unchanged s
  | .hdrSeal => execHdrSeal_unchanged s
  | .hdrReset => execHdrReset_unchanged s
  | .hdrStart time => execHdrStart_unchanged time s
  | .hdrAdv => execHdrAdv_unchanged s
  | .hdrRet => execHdrRet_unchanged s
  | .hdrTfirst => execHdrTfirst_unchanged s
  | .hdrTlast => execHdrTlast_unchanged s
  | .hdrFind time => execHdrFind_unchanged time s
  | .sysReset => execSysReset_unchanged s
  | .reqReadHolding _ _ _ _ _ => parseFrame_unchanged _ s
  | .reqReadInput _ _ _ _ _ => parseFrame_unchanged _ s
  | .reqWriteSingle _ _ _ _ _ => parseFrame_unchanged _ s
  | .reqWriteMultiple _ _ _ _ _ _ _ => parseFrame_unchanged _ s
  | .respNormal slave func data _ _ => buildResponse_unchanged slave func data s
  | .respException slave func code _ _ => execTxExc_unchanged slave (0#1 ++ func) code s
  | .headerImage _ _ _ _ => loadImage_unchanged _ s

/-- The writers of a part other than `SYS.RESET`, as the register table lists them (R21, R24, R32, R37). -/
def Listed : Part → Instr → Prop
  | .crc, i => (∃ alg, i = .crcInit alg) ∨ ∃ b, i = .crcUpd b
  | .crcAlg, i => ∃ alg, i = .crcInit alg
  | .slaveAddr, i => ∃ v, i = .regWr 0x02 v
  | .fbLen, i =>
    i = .fbClr ∨ (∃ b, i = .fbPush b) ∨ (∃ a f, i = .txBegin a f) ∨ i = .txSeal ∨ ∃ a f c, i = .txExc a f c
  | .fb, i => (∃ b, i = .fbPush b) ∨ (∃ a f, i = .txBegin a f) ∨ i = .txSeal ∨ ∃ a f c, i = .txExc a f c
  | .rKind, i =>
    i = .rxParse ∨ i = .fbClr ∨ (∃ b, i = .fbPush b) ∨ (∃ a f, i = .txBegin a f) ∨ i = .txSeal ∨
      ∃ a f c, i = .txExc a f c
  | .request, i => i = .rxParse
  | .capacity, i => ∃ v, i = .regWr 0x0A v
  | .elementSize, i => ∃ v, i = .regWr 0x0B v
  | .header, i => i = .hdrLoad ∨ i = .hdrReset ∨ (∃ time, i = .hdrStart time) ∨ i = .hdrAdv ∨ i = .hdrRet
  | .hCrc, i => i = .hdrLoad ∨ i = .hdrSeal
  | .loaded, i => i = .hdrLoad ∨ i = .hdrReset ∨ (∃ v, i = .regWr 0x0A v) ∨ ∃ v, i = .regWr 0x0B v
  | .crcOk, i => i = .hdrLoad ∨ (∃ v, i = .regWr 0x0A v) ∨ ∃ v, i = .regWr 0x0B v
  | .hb, i => (∃ k b, i = .hbWr k b) ∨ i = .hdrSeal
  | .storage, _ => False

/-- A register's number is the one that names it (R21). -/
theorem number_of_regOfNumber {r : Byte} {reg : Reg} (h : regOfNumber r = some reg) : r = reg.number := by
  unfold regOfNumber at h
  split at h <;> cases h <;> exact BitVec.eq_of_toNat_eq ‹_›

theorem listed_of_mem_hostWrites {r : Byte} {reg : Reg} (v : Word32) (hreg : regOfNumber r = some reg) :
    ∀ p ∈ reg.hostWrites, Listed p (.regWr r v) := by
  rw [number_of_regOfNumber hreg]
  cases reg <;> simp [Reg.hostWrites, Reg.number, Listed]

/-- A command has only parts in its footprint that list it as a writer. -/
theorem listed_of_mem_writes {i : Instr} (hcommand : isCommand i = true) (hreset : i ≠ .sysReset) :
    ∀ p ∈ writes i, Listed p i := by
  cases i with
  | regWr r v =>
    cases hreg : regOfNumber r with
    | none => simp [writes, hreg]
    | some reg => simpa [writes, hreg] using listed_of_mem_hostWrites v hreg
  | sysReset => exact absurd rfl hreset
  | reqReadHolding | reqReadInput | reqWriteSingle | reqWriteMultiple | respNormal | respException | headerImage =>
    cases hcommand
  | _ => simp [writes, Listed]

end

/-- Settles O46: a part that changed is in the command's footprint, and the parts of a footprint list its command. -/
theorem onlyTheListedCommandsWrite : Obligations.OnlyTheListedCommandsWrite := by
  unfold Obligations.OnlyTheListedCommandsWrite
  intro i s t hcommand hexec hreset
  have hlisted (p : Part) (hchanged : t.part p ≠ s.part p) : Listed p i :=
    listed_of_mem_writes hcommand hreset p (not_imp_comm.1 (exec_unchanged i s t hexec p) hchanged)
  refine ⟨hlisted .crc, hlisted .crcAlg, hlisted .slaveAddr, hlisted .fbLen, hlisted .fb, hlisted .rKind, ?_,
    hlisted .capacity, hlisted .elementSize, ?_, hlisted .hCrc, hlisted .loaded, hlisted .crcOk, hlisted .hb⟩
  · exact fun h => hlisted .request (by simpa [imp_iff_not_or] using h)
  · exact fun h => hlisted .header (by simpa [imp_iff_not_or] using h)

end Sys2Proof.Machine
end

section
/-! O41, O42 (R28, R29, R41). The invariant speaks of `fb`, `FB_LEN`, `R_KIND` and the request registers, of the form of
`hb` and the storage, and of the two flags. A command whose footprint has none of these keeps it; the others
are taken one by one. Every new frame clears `R_KIND`, so the clauses on a parsed frame have to be shown only where
`RX.PARSE` accepts. -/

namespace Sys2Proof.Machine

/-- The parts of the state that the invariant speaks of. -/
def invariantParts : List Part := [.fb, .fbLen, .rKind, .request, .hb, .storage, .loaded, .crcOk]

/-- The frame and what `RX.PARSE` found in it: the clauses of the invariant on a parsed frame read nothing else. -/
def State.frameUnit (s : State) : Memory × BitVec 9 × BitVec 3 × Byte × Byte × Word16 × Word16 × Byte :=
  (s.fb, s.fbLen, s.rKind, s.rSlave, s.rFunc, s.rAddr, s.rQty, s.rBc)

theorem wf_iff (s : State) : s.wf = true ↔
    Memory.wf 256 s.fb = true ∧ Memory.wf 14 s.hb = true ∧ Memory.wf Config.stCap s.storage = true := by
  simp [State.wf, and_assoc]

theorem frameCrcOk_iff (s : State) (n : Nat) : s.frameCrcOk n = true ↔
    Memory.read s.fb (n - 2) = lo8 (crc16 .modbus (s.frame (n - 2))) ∧
      Memory.read s.fb (n - 1) = hi8 (crc16 .modbus (s.frame (n - 2))) := by
  simp [State.frameCrcOk]

section

variable {s t : State}

/-! ### States that have the invariant -/

theorem State.Inv.fb_wf (hs : s.Inv) : Memory.wf 256 s.fb = true := ((wf_iff s).1 hs.spaces).1

theorem State.Inv.hb_wf (hs : s.Inv) : Memory.wf 14 s.hb = true := ((wf_iff s).1 hs.spaces).2.1

theorem State.Inv.storage_wf (hs : s.Inv) : Memory.wf Config.stCap s.storage = true := ((wf_iff s).1 hs.spaces).2.2

/-- With `R_KIND` 0 the clauses on a parsed frame say nothing. -/
theorem inv_of_rKind_eq_zero (hwf : t.wf = true) (hlen : t.fbLen.toNat ≤ 256) (hkind : t.rKind = 0)
    (hflags : t.crcOk = true → t.loaded = true) : t.Inv where
  spaces := hwf
  len_le := hlen
  kind_le := by simp [hkind]
  parsed_len h := absurd hkind h
  parsed_slave h := absurd hkind h
  parsed_func h := absurd hkind h
  parsed_kind h := absurd hkind h
  parsed_fields h := absurd hkind h
  parsed_crc h := absurd hkind h
  parsed_count h := by simp [hkind] at h
  crc_loaded := hflags

/-- With the frame unit as it was, only the other spaces and the flags are left to check. -/
theorem State.Inv.of_frameUnit (hs : s.Inv) (hframe : t.frameUnit = s.frameUnit) (hst : t.storage = s.storage)
    (hhb : Memory.wf 14 t.hb = true) (hflags : t.crcOk = true → t.loaded = true) : t.Inv := by
  simp only [State.frameUnit, Prod.mk.injEq] at hframe
  obtain ⟨hfb, hlen, hkind, hslave, hfunc, haddr, hqty, hbc⟩ := hframe
  have hfield (i : Nat) : t.frameField i = s.frameField i := by simp only [State.frameField, hfb]
  have hcrc (n : Nat) : t.frameCrcOk n = true ↔ s.frameCrcOk n = true := by
    simp only [frameCrcOk_iff, State.frame, hfb]
  constructor
  case spaces => exact (wf_iff t).2 ⟨hfb ▸ hs.fb_wf, hhb, hst ▸ hs.storage_wf⟩
  case len_le => exact hlen ▸ hs.len_le
  case kind_le => exact hkind ▸ hs.kind_le
  case parsed_len => simpa only [hkind, hlen] using hs.parsed_len
  case parsed_slave => simpa only [hkind, hfb, hslave] using hs.parsed_slave
  case parsed_func => simpa only [hkind, hfb, hfunc] using hs.parsed_func
  case parsed_kind => simpa only [hkind, hfunc] using hs.parsed_kind
  case parsed_fields => simpa only [hkind, haddr, hqty, hfield] using hs.parsed_fields
  case parsed_crc => simpa only [hkind, hlen, hcrc] using hs.parsed_crc
  case parsed_count => simpa only [hkind, hlen, hbc] using hs.parsed_count
  case crc_loaded => exact hflags

theorem State.Inv.of_unchanged {ps : List Part} (hs : s.Inv) (h : Unchanged ps s t)
    (hps : ∀ p ∈ invariantParts, p ∉ ps) : t.Inv := by
  have hsame (p : Part) (hp : p ∈ invariantParts) : t.part p = s.part p := h p (hps p hp)
  simp only [invariantParts, List.forall_mem_cons, State.part, Prod.mk.injEq] at hsame
  obtain ⟨hfb, hlen, hkind, hrequest, hhb, hst, hloaded, hok, -⟩ := hsame
  exact hs.of_frameUnit (by simp only [State.frameUnit, hfb, hlen, hkind, hrequest]) hst (hhb ▸ hs.hb_wf)
    (hok ▸ hloaded ▸ hs.crc_loaded)

theorem State.Inv.answer (hs : s.Inv) (st : Status) (v : Word32) : (s.answer st v).Inv :=
  hs.of_frameUnit rfl rfl hs.hb_wf hs.crc_loaded

/-- A new frame in canonical form, inside the buffer. -/
theorem State.Inv.setFrame (hs : s.Inv) {m : Memory} {n : BitVec 9} (hm : Memory.wf 256 m = true)
    (hn : n.toNat ≤ 256) : (s.setFrame m n).Inv :=
  inv_of_rKind_eq_zero ((wf_iff _).2 ⟨hm, hs.hb_wf, hs.storage_wf⟩) hn rfl hs.crc_loaded

/-- A string written to the frame buffer, with `FB_LEN` inside it. -/
theorem State.Inv.setFrame_writeAll (hs : s.Inv) {a : Nat} {bytes : List Byte} {n : BitVec 9}
    (hbytes : a + bytes.length ≤ 256) (hn : n.toNat ≤ 256) :
    (s.setFrame (Memory.writeAll s.fb a bytes) n).Inv :=
  hs.setFrame (writeAll_wf hs.fb_wf hbytes) hn

/-- What `RX.PARSE` has written when it reads the function code. -/
theorem State.Inv.clearRequest (hs : s.Inv) (slave func : Byte) :
    ({ s with rKind := 0, rSlave := slave, rFunc := func } : State).Inv :=
  inv_of_rKind_eq_zero hs.spaces hs.len_le rfl hs.crc_loaded

/-- The block's reset state, beside any storage in canonical form. -/
theorem resetBlock_inv (hst : Memory.wf Config.stCap s.storage = true) : s.resetBlock.Inv :=
  inv_of_rKind_eq_zero ((wf_iff _).2 ⟨rfl, rfl, hst⟩) (Nat.zero_le _) rfl nofun

theorem powerOn_inv (hst : Memory.wf Config.stCap s.storage = true) : s.powerOn.Inv :=
  inv_of_rKind_eq_zero ((wf_iff _).2 ⟨rfl, rfl, hst⟩) (Nat.zero_le _) rfl nofun

/-! ### System and header unit -/

theorem writeReg_inv (hs : s.Inv) {reg : Reg} {v : Word32} (h : s.writeReg reg v = some t) : t.Inv := by
  cases reg with
  | slaveAddr =>
    rw [State.writeReg] at h
    split at h
    · cases h
    · cases h
      exact hs.of_frameUnit rfl rfl hs.hb_wf hs.crc_loaded
  | capacity | elementSize =>
    cases h
    exact hs.of_frameUnit rfl rfl hs.hb_wf nofun
  | _ => cases h

theorem execRegWr_keeps_inv (r : Byte) (v : Word32) : Keeps State.Inv (execRegWr r v) := fun _ hs =>
  ends_execRegWr (hs.answer _ _) fun _ _ _ hwrite => (writeReg_inv hs hwrite).answer _ _

theorem execSysReset_keeps_inv : Keeps State.Inv execSysReset := fun _ hs =>
  ends_next ((resetBlock_inv hs.storage_wf).answer _ _)

theorem execHbWr_keeps_inv (i b : Byte) : Keeps State.Inv (execHbWr i b) := fun _ hs =>
  ends_check (hs.answer _ _) fun hi =>
    ends_next (hs.of_frameUnit rfl rfl (write_wf hs.hb_wf (Nat.not_le.1 hi)) hs.crc_loaded)

theorem execHdrLoad_keeps_inv : Keeps State.Inv execHdrLoad := fun _ hs =>
  ends_requireConfigured (hs.answer _ _) (ends_loadHeader
    (fun _ _ _ _ => hs.of_frameUnit rfl rfl hs.hb_wf fun _ => rfl)
    (fun _ => hs.of_frameUnit rfl rfl hs.hb_wf nofun))

theorem hdrEncode_length (p : Config.Params) (size off time : Word32) : (hdrEncode p size off time).length = 14 := by
  simp [hdrEncode, hdrBody]

theorem execHdrSeal_keeps_inv : Keeps State.Inv execHdrSeal := fun _ hs =>
  ends_requireLoaded (hs.answer _ _) (ends_next
    (hs.of_frameUnit rfl rfl (writeAll_wf hs.hb_wf (by rw [hdrEncode_length])) hs.crc_loaded))

theorem execHdrReset_keeps_inv : Keeps State.Inv execHdrReset := fun _ hs =>
  ends_requireConfigured (hs.answer _ _) (ends_next (hs.of_frameUnit rfl rfl hs.hb_wf fun _ => rfl))

/-! ### Frame unit -/

theorem execFbClr_keeps_inv : Keeps State.Inv execFbClr := fun _ hs =>
  ends_next ((hs.setFrame hs.fb_wf (Nat.zero_le _)).answer _ _)

/-- A push that is not refused stands below the end of the buffer. -/
theorem execFbPush_keeps_inv (b : Byte) : Keeps State.Inv (execFbPush b) := by
  intro s hs
  refine ends_check (hs.answer _ _) fun hfull => ?_
  split
  · exact ends_fault _
  next hle =>
    have hroom : s.fbLen.toNat < 256 := by
      rw [Config.fbCap_eq] at hfull hle
      omega
    have hgrow : (s.fbLen + 1).toNat ≤ 256 := by bv_omega
    exact ends_next ((hs.setFrame (write_wf hs.fb_wf hroom) hgrow).answer _ _)

theorem execTxBegin_keeps_inv (slave func : Byte) : Keeps State.Inv (execTxBegin slave func) := fun _ hs =>
  ends_next ((hs.setFrame_writeAll (by simp) (by decide)).answer _ _)

theorem execTxSeal_keeps_inv : Keeps State.Inv execTxSeal := by
  intro s hs
  refine ends_check (hs.answer _ _) fun hroom => ?_
  rw [Config.fbCap_eq] at hroom
  exact ends_next ((hs.setFrame_writeAll (by simp [crcBytes]; omega) (by bv_omega)).answer _ _)

theorem execTxExc_keeps_inv (slave func code : Byte) : Keeps State.Inv (execTxExc slave func code) := fun _ hs =>
  ends_next ((hs.setFrame_writeAll (by simp [exceptionFrame, crcBytes]) (by decide)).answer _ _)

/-! ### The parser -/

/-- What holds of the frame when `RX.PARSE` reads its function code: all that the invariant says of a parsed frame but
the clauses that depend on the code. -/
structure State.CheckedFrame (s : State) : Prop where
  inv : s.Inv
  len_ge : 8 ≤ s.fbLen.toNat
  slave : Memory.read s.fb 0 = s.rSlave
  func : Memory.read s.fb 1 = s.rFunc
  crc : s.frameCrcOk s.fbLen.toNat = true

/-- An accepted request, of the kind that its function code stands for. -/
theorem acceptRequest_inv (hs : s.CheckedFrame) {kind : BitVec 3} {count : Byte} (hkind : kind.toNat ≤ 4)
    (hfunc : Memory.read s.fb 1 = kindFunction kind) (hcount : kind = 4 → s.fbLen.toNat = 9 + count.toNat) :
    Ends State.Inv (acceptRequest kind count s) := ends_next {
  spaces := hs.inv.spaces
  len_le := hs.inv.len_le
  kind_le := hkind
  parsed_len _ := hs.len_ge
  parsed_slave _ := hs.slave
  parsed_func _ := hs.func
  parsed_kind _ := hs.func.symm.trans hfunc
  parsed_fields _ := ⟨rfl, rfl⟩
  parsed_crc _ := hs.crc
  parsed_count := hcount
  crc_loaded := hs.inv.crc_loaded }

theorem dispatchFunction_inv (hs : s.CheckedFrame) {len : Nat} (hlength : s.fbLen.toNat = len) :
    Ends State.Inv (dispatchFunction len s) := by
  subst hlength
  unfold dispatchFunction
  split
  next h => exact acceptRequest_inv hs (by decide) (BitVec.eq_of_toNat_eq h) (absurd · (by decide))
  next h => exact acceptRequest_inv hs (by decide) (BitVec.eq_of_toNat_eq h) (absurd · (by decide))
  next h => exact acceptRequest_inv hs (by decide) (BitVec.eq_of_toNat_eq h) (absurd · (by decide))
  next h =>
    exact ends_check (hs.inv.answer _ _) fun _ => ends_check (hs.inv.answer _ _) fun hlen =>
      acceptRequest_inv hs (by decide) (BitVec.eq_of_toNat_eq h) fun _ => Decidable.not_not.1 hlen
  next => exact ends_next (hs.inv.answer _ _)

/-- An error found before the function code leaves `R_KIND` 0; what passes the checks is a checked frame. -/
theorem execRxParse_keeps_inv : Keeps State.Inv execRxParse := by
  intro s hs
  have hcleared (st : Status) : (({ s with rKind := 0 } : State).answer st 0).Inv :=
    (hs.clearRequest s.rSlave s.rFunc).answer _ _
  refine ends_check (hcleared _) fun hlen => ?_
  split
  · exact ends_fault _
  refine ends_check (hcleared _) fun _ => ?_
  split
  next hcrc =>
    have hchecked : State.CheckedFrame
        { s with rKind := 0, rSlave := Memory.read s.fb 0, rFunc := Memory.read s.fb 1 } :=
      ⟨hs.clearRequest _ _, Nat.not_lt.1 hlen, rfl, rfl, hcrc⟩
    exact dispatchFunction_inv hchecked rfl
  next => exact ends_next (hcleared _)

/-! ### Byte formats -/

theorem parseFrame_keeps_inv (bytes : List Byte) : Keeps State.Inv (parseFrame bytes) :=
  parseFrame_keeps execFbClr_keeps_inv execFbPush_keeps_inv execRxParse_keeps_inv bytes

theorem buildResponse_keeps_inv (slave func : Byte) (data : List Byte) :
    Keeps State.Inv (buildResponse slave func data) :=
  buildResponse_keeps (execTxBegin_keeps_inv slave func) execFbPush_keeps_inv execTxSeal_keeps_inv data

theorem loadImage_keeps_inv (bytes : List Byte) : Keeps State.Inv (loadImage bytes) :=
  loadImage_keeps execHbWr_keeps_inv bytes

/-! ### Every instruction, every step -/

/-- An instruction whose footprint misses the parts that the invariant speaks of keeps it. -/
theorem exec_keeps_inv_of_writes {i : Instr} (h : ∀ p ∈ invariantParts, p ∉ writes i) : Keeps State.Inv (exec i) :=
  fun s hs => (exec_unchanged i s).mono fun _ ht => hs.of_unchanged ht h

theorem exec_keeps_inv (i : Instr) : Keeps State.Inv (exec i) := by
  cases i with
  | regWr r v => exact execRegWr_keeps_inv r v
  | fbClr => exact execFbClr_keeps_inv
  | fbPush b => exact execFbPush_keeps_inv b
  | rxParse => exact execRxParse_keeps_inv
  | txBegin slave func => exact execTxBegin_keeps_inv slave func
  | txSeal => exact execTxSeal_keeps_inv
  | txExc slave func code => exact execTxExc_keeps_inv slave func code
  | hbWr k b => exact execHbWr_keeps_inv k b
  | hdrLoad => exact execHdrLoad_keeps_inv
  | hdrSeal => exact execHdrSeal_keeps_inv
  | hdrReset => exact execHdrReset_keeps_inv
  | sysReset => exact execSysReset_keeps_inv
  | reqReadHolding | reqReadInput | reqWriteSingle | reqWriteMultiple => exact parseFrame_keeps_inv _
  | respNormal slave func data => exact buildResponse_keeps_inv slave func data
  | respException slave func code => exact execTxExc_keeps_inv slave (0#1 ++ func) code
  | headerImage => exact loadImage_keeps_inv _
  | regRd | crcInit | crcUpd | fbRd | hbRd | hdrStart | hdrAdv | hdrRet | hdrTfirst | hdrTlast | hdrFind =>
    exact exec_keeps_inv_of_writes (by simp [invariantParts, writes])

theorem answerReserved_keeps_inv (x : Input) : Keeps State.Inv (answerReserved x) := by
  intro s hs
  cases x with
  | command | normalResponse | exceptionResponse | image => exact ends_next (hs.answer _ _)
  | request bytes => exact parseFrame_keeps_inv bytes s hs
  | powerCycle => exact ends_next (powerOn_inv hs.storage_wf)

theorem step_keeps_inv : Keeps State.Inv step := by
  intro s hs
  unfold step
  split
  next => exact ends_next hs
  next x rest _ =>
    have htaken : ({ s with pending := rest } : State).Inv := hs.of_frameUnit rfl rfl hs.hb_wf hs.crc_loaded
    split
    next i _ => exact exec_keeps_inv i _ htaken
    next => exact answerReserved_keeps_inv x _ htaken

end

/-- Settles O41: the invariant is kept by every instruction and by every input that is none. -/
theorem stepKeepsTheInvariant : Obligations.StepKeepsTheInvariant := by
  unfold Obligations.StepKeepsTheInvariant
  exact fun s t hs hstep => step_keeps_inv s hs t hstep

/-- Settles O42: the reset state has `R_KIND` 0, empty spaces and both flags clear. -/
theorem resetHasTheInvariant : Obligations.ResetHasTheInvariant := by
  unfold Obligations.ResetHasTheInvariant
  exact resetBlock_inv (s := State.reset) rfl

end Sys2Proof.Machine
end

section
/-! O48 (R69). One access of the Byte Storage, by the event that decides it: what it returns and the state it leaves. -/

namespace Sys2Proof.Machine

section

variable {s : State}

/-- With no event listed every access succeeds. -/
theorem nextIo_of_nil (h : s.io = []) : s.nextIo = .ok := by
  rw [State.nextIo, h]
  rfl

/-- With no event listed an access uses none up. -/
theorem ioTaken_of_nil (h : s.io = []) : s.ioTaken = s := by
  rw [State.ioTaken, h, List.tail_nil, ← h]

theorem nextIo_of_cons {event : IoEvent} {rest : List IoEvent} (h : s.io = event :: rest) : s.nextIo = event := by
  rw [State.nextIo, h]
  rfl

theorem ioTaken_of_cons {event : IoEvent} {rest : List IoEvent} (h : s.io = event :: rest) :
    s.ioTaken = { s with io := rest } := by
  rw [State.ioTaken, h, List.tail_cons]

theorem storageRead_succeeds {a n : Nat} (hio : s.nextIo = .ok) (hrange : a + n ≤ 2 ^ 32) :
    storageRead a n s = .done (.ok (Memory.slice s.storage a n)) s.ioTaken := by
  simp [storageRead, hio, (inStorage_iff a n).2 hrange]

theorem storageRead_fails {torn : List Byte} (a n : Nat) (hio : s.nextIo = .failed torn) :
    storageRead a n s = .done (.error .storage) s.ioTaken := by
  simp [storageRead, hio]

theorem storageWrite_succeeds {a : Nat} {bytes : List Byte} (hio : s.nextIo = .ok)
    (hrange : a + bytes.length ≤ 2 ^ 32) :
    storageWrite a bytes s = .done (.ok ()) { s.ioTaken with storage := Memory.writeAll s.storage a bytes } := by
  simp [storageWrite, hio, (inStorage_iff a _).2 hrange]

theorem storageWrite_fails {torn : List Byte} (a : Nat) (bytes : List Byte) (hio : s.nextIo = .failed torn) :
    storageWrite a bytes s =
      .done (.error .storage) { s.ioTaken with storage := tornWrite s.storage a bytes.length torn } := by
  simp [storageWrite, hio]

/-- A write leaves every byte outside its range. -/
theorem read_writeAll_outside {m : Memory} {size a x : Nat} {bytes : List Byte} (hm : Memory.wf size m = true)
    (hrange : a + bytes.length ≤ size) (hx : x < a ∨ a + bytes.length ≤ x) :
    Memory.read (Memory.writeAll m a bytes) x = Memory.read m x := by
  rw [read_writeAll hm hrange, if_neg (by omega)]

/-- A write with no event listed, and the read of its range after it. -/
theorem storageWrite_then_read {a : Nat} {bytes : List Byte} (hst : Memory.wf Config.stCap s.storage = true)
    (hio : s.io = []) (hrange : a + bytes.length ≤ 2 ^ 32) :
    let t := { s with storage := Memory.writeAll s.storage a bytes }
    storageWrite a bytes s = .done (.ok ()) t ∧ storageRead a bytes.length t = .done (.ok bytes) t := by
  intro t
  have htio : t.io = [] := hio
  constructor
  · rw [storageWrite_succeeds (nextIo_of_nil hio) hrange, ioTaken_of_nil hio]
  · have hback : Memory.slice t.storage a bytes.length = bytes := slice_writeAll hst hrange
    rw [storageRead_succeeds (nextIo_of_nil htio) hrange, ioTaken_of_nil htio, hback]

end

/-- Settles O48: a successful write is `Memory.writeAll` and a failed one `tornWrite`, both inside the range. -/
theorem storageReturnsWhatWasWritten : Obligations.StorageReturnsWhatWasWritten := by
  unfold Obligations.StorageReturnsWhatWasWritten
  intro s a bytes hwf hrange
  obtain ⟨_, _, hst⟩ := (wf_iff s).1 hwf
  constructor
  · intro hio
    obtain ⟨hwrite, hread⟩ := storageWrite_then_read hst hio hrange
    exact ⟨_, hwrite, hread, rfl, fun x hx => read_writeAll_outside hst hrange hx⟩
  · intro torn rest hio
    have hfailed := nextIo_of_cons hio
    have hwrite := storageWrite_fails a bytes hfailed
    have hread := storageRead_fails a bytes.length hfailed
    rw [ioTaken_of_cons hio] at hwrite hread
    exact ⟨_, hwrite, hread, rfl, fun x hx => read_tornWrite_outside hst hx⟩

end Sys2Proof.Machine
end

section
/-! O47 (R68, R38). A command is isolated from what the block does not own: put other items at its port, another storage
and other coming outcomes around it, and it does the same, around them. Read with the surroundings that the state has,
this says that they stay; read with others, that nothing depends on them. The parameters, which commands do read, are
shown to stay beside it. -/

namespace Sys2Proof.Machine

/-! ### The surroundings of the block -/

/-- What stands in the state and is neither the block's nor read by a command (R38, R68). -/
structure Surroundings where
  pending : List Input
  storage : Memory
  io : List IoEvent

/-- The surroundings in a state. -/
def State.surroundings (s : State) : Surroundings := ⟨s.pending, s.storage, s.io⟩

/-- The state with other surroundings. -/
def State.beside (s : State) (x : Surroundings) : State :=
  { s with pending := x.pending, storage := x.storage, io := x.io }

/-- Two outcomes of which the second is the first with surroundings `x`; the parameters are `p`. -/
inductive Alike (p : Config.Params) (x : Surroundings) : Out → Out → Prop where
  | next {t : State} (hparams : t.params = p) : Alike p x (.next t) (.next (t.beside x))
  | fault (f : Fault) : Alike p x (.fault f) (.fault f)

/-- A meaning that does the same whatever surrounds the block, and keeps the parameters. -/
def Isolated (m : State → Out) : Prop := ∀ (s : State) (x : Surroundings), Alike s.params x (m s) (m (s.beside x))

section

variable {s t : State} {x : Surroundings} {p : Config.Params}

@[simp] theorem beside_surroundings : (s.beside x).surroundings = x := rfl
@[simp] theorem beside_self : s.beside s.surroundings = s := rfl
@[simp] theorem beside_fb : (s.beside x).fb = s.fb := rfl
@[simp] theorem beside_stepsBack (q : Nat) : (s.beside x).stepsBack q = s.stepsBack q := rfl

theorem Alike.of_next {o : Out} (h : Alike p x (.next t) o) : t.params = p ∧ o = .next (t.beside x) := by
  cases h with
  | next hparams => exact ⟨hparams, rfl⟩

/-- What it means to be isolated, for a meaning that answers. -/
theorem Isolated.of_next {m : State → Out} (hm : Isolated m) (h : m s = .next t) :
    t.surroundings = s.surroundings ∧ t.params = s.params ∧ m (s.beside x) = .next (t.beside x) := by
  have hself := hm s s.surroundings
  have hother := hm s x
  rw [beside_self, h] at hself
  rw [h] at hother
  have ht : t = t.beside s.surroundings := Host.Outcome.next.inj hself.of_next.2
  exact ⟨(congrArg State.surroundings ht).trans beside_surroundings, hother.of_next⟩

theorem Isolated.alike {m : State → Out} (hm : Isolated m) (hparams : s.params = p) :
    Alike p x (m s) (m (s.beside x)) := hparams ▸ hm s x

/-! ### The shared operations -/

/-- A check that both sides take alike. -/
theorem alike_ite {c : Prop} [Decidable c] {o₁ o₁' o₂ o₂' : Out} (h₁ : Alike p x o₁ o₁') (h₂ : Alike p x o₂ o₂') :
    Alike p x (if c then o₁ else o₂) (if c then o₁' else o₂') := by
  split
  · exact h₁
  · exact h₂

/-- A command ends with an answer, which is the block's own port: the surroundings are beside it. -/
theorem alike_answer (st : Status) (v : Word32) (hparams : s.params = p) :
    Alike p x (.next (s.answer st v)) (.next ((s.beside x).answer st v)) := .next hparams

theorem requireConfigured_isolated {k : State → Out} (hk : Isolated k) : Isolated (requireConfigured k) :=
  fun s x => alike_ite (hk s x) (.next rfl)

theorem requireLoaded_isolated {k : State → Out} (hk : Isolated k) : Isolated (requireLoaded k) :=
  requireConfigured_isolated fun s x => alike_ite (hk s x) (.next rfl)

theorem seqOk_isolated {ms : List (State → Out)} (hms : ∀ m ∈ ms, Isolated m) : Isolated (seqOk ms) := by
  intro s x
  induction ms generalizing s with
  | nil => exact .next rfl
  | cons m ms ih =>
    obtain ⟨hm, hrest⟩ := List.forall_mem_cons.1 hms
    have h := hm s x
    rw [seqOk, seqOk]
    generalize m s = o, m (s.beside x) = o' at h ⊢
    cases h with
    | next hparams => exact alike_ite (hparams ▸ ih hrest _) (.next hparams)
    | fault f => exact .fault f

/-! ### System and CRC unit -/

theorem execRegRd_isolated (r : Byte) : Isolated (execRegRd r) := by
  intro s x
  unfold execRegRd
  split
  · exact .next rfl
  · exact .next rfl

theorem beside_writeReg (reg : Reg) (v : Word32) :
    (s.beside x).writeReg reg v = (s.writeReg reg v).map (·.beside x) := by
  cases reg with
  | slaveAddr =>
    rw [State.writeReg, State.writeReg]
    split
    · rfl
    · rfl
  | _ => rfl

theorem writeReg_params {reg : Reg} {v : Word32} (h : s.writeReg reg v = some t) : t.params = s.params := by
  cases reg with
  | slaveAddr =>
    rw [State.writeReg] at h
    split at h
    · cases h
    · cases h
      rfl
  | capacity | elementSize =>
    cases h
    rfl
  | _ => cases h

theorem execRegWr_isolated (r : Byte) (v : Word32) : Isolated (execRegWr r v) := by
  intro s x
  rw [execRegWr, execRegWr]
  cases regOfNumber r with
  | none => exact .next rfl
  | some reg =>
    rw [Option.bind_some, Option.bind_some, beside_writeReg]
    cases hwrite : s.writeReg reg v with
    | none => exact .next rfl
    | some t => exact alike_answer _ _ (writeReg_params hwrite)

theorem execSysReset_isolated : Isolated execSysReset := fun _ _ => .next rfl

theorem execCrcInit_isolated (alg : Byte) : Isolated (execCrcInit alg) :=
  fun _ _ => alike_ite (.next rfl) (.next rfl)

theorem execCrcUpd_isolated (b : Byte) : Isolated (execCrcUpd b) := fun _ _ => .next rfl

/-! ### Frame unit -/

theorem execFbClr_isolated : Isolated execFbClr := fun _ _ => .next rfl

theorem execFbPush_isolated (b : Byte) : Isolated (execFbPush b) :=
  fun _ _ => alike_ite (.next rfl) (alike_ite (.fault _) (.next rfl))

theorem execFbRd_isolated (i : Byte) : Isolated (execFbRd i) := fun _ _ => alike_ite (.next rfl) (.next rfl)

theorem dispatchFunction_isolated (len : Nat) : Isolated (dispatchFunction len) := by
  intro s x
  unfold dispatchFunction
  rw [beside_fb]
  split
  · exact .next rfl
  · exact .next rfl
  · exact .next rfl
  · exact alike_ite (.next rfl) (alike_ite (.next rfl) (.next rfl))
  · exact .next rfl

theorem execRxParse_isolated : Isolated execRxParse :=
  fun _ _ => alike_ite (.next rfl) (alike_ite (.fault _) (alike_ite (.next rfl)
    (alike_ite ((dispatchFunction_isolated _).alike rfl) (.next rfl))))

theorem execTxBegin_isolated (slave func : Byte) : Isolated (execTxBegin slave func) := fun _ _ => .next rfl

theorem execTxSeal_isolated : Isolated execTxSeal := fun _ _ => alike_ite (.next rfl) (.next rfl)

theorem execTxExc_isolated (slave func code : Byte) : Isolated (execTxExc slave func code) := fun _ _ => .next rfl

/-! ### Header unit -/

theorem execHbWr_isolated (i b : Byte) : Isolated (execHbWr i b) := fun _ _ => alike_ite (.next rfl) (.next rfl)

theorem execHbRd_isolated (i : Byte) : Isolated (execHbRd i) := fun _ _ => alike_ite (.next rfl) (.next rfl)

theorem execHdrLoad_isolated : Isolated execHdrLoad :=
  requireConfigured_isolated fun _ _ => alike_ite (.next rfl) (.next rfl)

theorem execHdrSeal_isolated : Isolated execHdrSeal := requireLoaded_isolated fun _ _ => .next rfl

theorem execHdrReset_isolated : Isolated execHdrReset := requireConfigured_isolated fun _ _ => .next rfl

theorem execHdrStart_isolated (t : Word32) : Isolated (execHdrStart t) :=
  requireLoaded_isolated fun _ _ => alike_ite (.next rfl) (.next rfl)

theorem execHdrAdv_isolated : Isolated execHdrAdv :=
  requireLoaded_isolated fun _ _ => alike_ite (.next rfl) (.next rfl)

theorem execHdrRet_isolated : Isolated execHdrRet :=
  requireLoaded_isolated fun _ _ => alike_ite (.next rfl) (alike_ite (.next rfl) (.next rfl))

theorem execHdrTfirst_isolated : Isolated execHdrTfirst :=
  requireLoaded_isolated fun _ _ => alike_ite (.next rfl) (alike_ite (.next rfl) (.next rfl))

theorem execHdrTlast_isolated : Isolated execHdrTlast :=
  requireLoaded_isolated fun _ _ => alike_ite (.next rfl) (.next rfl)

theorem execHdrFind_isolated (t : Word32) : Isolated (execHdrFind t) := by
  refine requireLoaded_isolated fun s x => ?_
  unfold findBucket
  rw [beside_stepsBack]
  split
  · exact .next rfl
  · exact .next rfl

/-! ### Byte formats, from the commands they run -/

theorem pushes_isolated (bytes : List Byte) : ∀ m ∈ bytes.map execFbPush, Isolated m :=
  List.forall_mem_map.2 fun b _ => execFbPush_isolated b

theorem hbWrites_isolated (i : Nat) (bytes : List Byte) : ∀ m ∈ hbWrites i bytes, Isolated m := by
  induction bytes generalizing i with
  | nil => nofun
  | cons b bs ih => exact List.forall_mem_cons.2 ⟨execHbWr_isolated _ b, ih (i + 1)⟩

theorem parseFrame_isolated (bytes : List Byte) : Isolated (parseFrame bytes) :=
  seqOk_isolated (List.forall_mem_append.2 ⟨List.forall_mem_cons.2 ⟨execFbClr_isolated, pushes_isolated bytes⟩,
    List.forall_mem_singleton.2 execRxParse_isolated⟩)

theorem buildResponse_isolated (slave func : Byte) (data : List Byte) : Isolated (buildResponse slave func data) :=
  seqOk_isolated (List.forall_mem_cons.2 ⟨execTxBegin_isolated slave func,
    List.forall_mem_append.2 ⟨pushes_isolated data, List.forall_mem_singleton.2 execTxSeal_isolated⟩⟩)

theorem loadImage_isolated (bytes : List Byte) : Isolated (loadImage bytes) :=
  seqOk_isolated (hbWrites_isolated 0 bytes)

/-! ### Every instruction, every step -/

theorem exec_isolated (i : Instr) : Isolated (exec i) :=
  match i with
  | .regRd r => execRegRd_isolated r
  | .regWr r v => execRegWr_isolated r v
  | .crcInit alg => execCrcInit_isolated alg
  | .crcUpd b => execCrcUpd_isolated b
  | .fbClr => execFbClr_isolated
  | .fbPush b => execFbPush_isolated b
  | .fbRd k => execFbRd_isolated k
  | .rxParse => execRxParse_isolated
  | .txBegin slave func => execTxBegin_isolated slave func
  | .txSeal => execTxSeal_isolated
  | .txExc slave func code => execTxExc_isolated slave func code
  | .hbWr k b => execHbWr_isolated k b
  | .hbRd k => execHbRd_isolated k
  | .hdrLoad => execHdrLoad_isolated
  | .hdrSeal => execHdrSeal_isolated
  | .hdrReset => execHdrReset_isolated
  | .hdrStart t => execHdrStart_isolated t
  | .hdrAdv => execHdrAdv_isolated
  | .hdrRet => execHdrRet_isolated
  | .hdrTfirst => execHdrTfirst_isolated
  | .hdrTlast => execHdrTlast_isolated
  | .hdrFind t => execHdrFind_isolated t
  | .sysReset => execSysReset_isolated
  | .reqReadHolding _ _ _ _ _ => parseFrame_isolated _
  | .reqReadInput _ _ _ _ _ => parseFrame_isolated _
  | .reqWriteSingle _ _ _ _ _ => parseFrame_isolated _
  | .reqWriteMultiple _ _ _ _ _ _ _ => parseFrame_isolated _
  | .respNormal slave func data _ _ => buildResponse_isolated slave func data
  | .respException slave func code _ _ => execTxExc_isolated slave (0#1 ++ func) code
  | .headerImage _ _ _ _ => loadImage_isolated _

/-- An input that is no instruction, and a power cycle too. -/
theorem answerReserved_isolated (y : Input) : Isolated (answerReserved y) := by
  cases y with
  | request bytes => exact parseFrame_isolated bytes
  | command | normalResponse | exceptionResponse | image | powerCycle => exact fun _ _ => .next rfl

/-- What the block does with the first presented item, if there is one. -/
def performPresented : Option Input → State → Out
  | none, s => .next s
  | some y, s =>
    match decode y with
    | .ok i => exec i s
    | .error _ => answerReserved y s

theorem performPresented_isolated (y : Option Input) : Isolated (performPresented y) := by
  intro s x
  cases y with
  | none => exact .next rfl
  | some y =>
    rw [performPresented, performPresented]
    split
    · exact exec_isolated _ s x
    · exact answerReserved_isolated y s x

/-- A step takes the first presented item and performs it. -/
theorem step_eq (s : State) : step s = performPresented s.pending.head? { s with pending := s.pending.tail } := by
  cases hpending : s.pending with
  | nil =>
    rw [step, hpending]
    show Host.Outcome.next s = .next { s with pending := [] }
    rw [← hpending]
  | cons y rest =>
    rw [step, hpending]
    rfl

end

/-- Settles O47: a step performs the first item in the state without it, and that is isolated. -/
theorem stepsNeverReachTheStorage : Obligations.StepsNeverReachTheStorage := by
  unfold Obligations.StepsNeverReachTheStorage
  intro s m e t hstep
  rw [step_eq] at hstep
  obtain ⟨hsame, hparams, hother⟩ := (performPresented_isolated _).of_next (x := ⟨s.pending.tail, m, e⟩) hstep
  have htaken : t.pending = s.pending.tail := congrArg Surroundings.pending hsame
  have ht : t.beside ⟨s.pending.tail, m, e⟩ = { t with storage := m, io := e } := by
    rw [← htaken]
    rfl
  refine ⟨congrArg Surroundings.storage hsame, congrArg Surroundings.io hsame, hparams, htaken, ?_⟩
  rw [step_eq, ← ht]
  exact hother

end Sys2Proof.Machine
end

section
/-! O4, O5 (R82, R84, R91 to R96, R100). Decoder and encoder are inverse: on the commands format by format, on the byte
formats row by row. The laws of the fields of a word (`packCw_fields`, `join16_halves` and their converses) are what
each case turns on. -/

namespace Sys2Proof

open Sys2Proof.Machine

/-! ### A field of the table's pattern and its bytes -/

/-- A word16 on the wire, read back (R63). -/
theorem be16Bytes_join16 (hi lo : Byte) : be16Bytes (join16 hi lo) = [hi, lo] := by
  rw [be16Bytes, hi8_join16, lo8_join16]

theorem fieldBytes_packCw (b3 b2 b1 b0 : Byte) : fieldBytes (packCw b3 b2 b1 b0) = [b3, b2, b1, b0] := by
  rw [fieldBytes, cwOp_packCw, cwA_packCw, cwB_packCw, cwC_packCw]

/-- A list less its last two elements. -/
theorem take_append_pair {α : Type} (xs : List α) (k kk : α) :
    (xs ++ [k, kk]).take ((xs ++ [k, kk]).length - 2) = xs := by
  rw [List.length_append, List.length_cons, List.length_singleton, Nat.add_sub_cancel, List.take_left]

/-- The last two elements of a list. -/
theorem drop_append_pair {α : Type} (xs : List α) (k kk : α) :
    (xs ++ [k, kk]).drop ((xs ++ [k, kk]).length - 2) = [k, kk] := by
  rw [List.length_append, List.length_cons, List.length_singleton, Nat.add_sub_cancel, List.drop_left]

/-- Bit 7 of an exception response's function code is fixed, the other seven are the operand (R96). -/
theorem exceptionCode_fields (func : BitVec 7) :
    (1#1 ++ func).getLsbD 7 = true ∧ (1#1 ++ func).extractLsb' 0 7 = func := by
  revert func
  decide

theorem exceptionCode_of_bit (func : Byte) (h : func.getLsbD 7 = true) : 1#1 ++ func.extractLsb' 0 7 = func := by
  revert func
  decide

/-! ### Decoding what was encoded -/

theorem decodeRequest_writeMultiple (slave : Byte) (addr qty : Word16) {count : Byte} {payload : List Byte}
    (k kk : Byte) (h : payload.length = count.toNat) :
    decodeRequest (requestBytes slave 0x10 addr qty (count :: (payload ++ [k, kk]))) =
      .ok (.reqWriteMultiple slave addr qty count payload k kk) := by
  have htail : (payload ++ [k, kk]).drop count.toNat = [k, kk] := by rw [← h, List.drop_left]
  have hpayload : (payload ++ [k, kk]).take count.toNat = payload := by rw [← h, List.take_left]
  simp [decodeRequest, requestBytes, be16Bytes, join16_halves, htail, hpayload]

theorem decodeNormalResponse_bytes (slave func : Byte) (data : List Byte) (k kk : Byte) :
    decodeNormalResponse (slave :: func :: (data ++ [k, kk])) = .ok (.respNormal slave func data k kk) := by
  rw [decodeNormalResponse, drop_append_pair, take_append_pair]

theorem decodeExceptionResponse_bytes (slave : Byte) (func : BitVec 7) (code k kk : Byte) :
    decodeExceptionResponse [slave, 1#1 ++ func, code, k, kk] = .ok (.respException slave func code k kk) := by
  obtain ⟨hbit, hcode⟩ := exceptionCode_fields func
  rw [decodeExceptionResponse, if_pos hbit, hcode]

theorem decodeImage_imageBytes (size off time : Word32) (crc : Word16) :
    decodeImage (imageBytes size off time crc) = .ok (.headerImage size off time crc) := by
  simp only [imageBytes, fieldBytes, be16Bytes, List.cons_append, List.nil_append, decodeImage, packCw_fields,
    join16_halves]

/-- Every row decodes what it encodes; a 0x10 request needs its byte count to be that of its payload. -/
theorem decode_encode {i : Instr} (h : i.wellFormed = true) : decode (encode i) = .ok i := by
  cases i with
  | regRd | crcInit | crcUpd | fbPush | fbRd | hbRd => simp [encode, decode, decodeCommand, formatC, acceptIf]
  | regWr => simp [encode, decode, decodeCommand, formatRW, acceptIf]
  | fbClr | rxParse | txSeal | hdrLoad | hdrSeal | hdrReset | hdrAdv | hdrRet | hdrTfirst | hdrTlast | sysReset =>
    rfl
  | txBegin => simp [encode, decode, decodeCommand, formatAB, acceptIf]
  | txExc => simp [encode, decode, decodeCommand, formatABC, acceptIf]
  | hbWr => simp [encode, decode, decodeCommand, formatIC, acceptIf]
  | hdrStart | hdrFind => simp [encode, decode, decodeCommand, formatT, acceptIf]
  | reqReadHolding | reqReadInput | reqWriteSingle =>
    simp [encode, decode, decodeRequest, requestBytes, be16Bytes, join16_halves]
  | reqWriteMultiple slave addr qty count payload k kk =>
    exact decodeRequest_writeMultiple slave addr qty k kk (of_decide_eq_true h)
  | respNormal slave func data k kk => exact decodeNormalResponse_bytes slave func data k kk
  | respException slave func code k kk => exact decodeExceptionResponse_bytes slave func code k kk
  | headerImage size off time crc => exact decodeImage_imageBytes size off time crc

/-! ### Encoding what was decoded: commands

For each format (R82) and each opcode of it: an accepted word has the opcode, zeros in the unused fields, and its
operands where the encoder writes them. -/

section

variable {cw arg : Word32} {op : Byte} {i : Instr}

theorem acceptIf_eq_ok {unusedZero : Bool} {j : Instr} :
    acceptIf unusedZero op j = .ok i ↔ unusedZero = true ∧ j = i := by
  cases unusedZero <;> simp [acceptIf]

/-- A word with its fields named. -/
theorem eq_packCw_of_fields {a b c : Byte} (hop : (cwOp cw).toNat = op.toNat) (ha : cwA cw = a) (hb : cwB cw = b)
    (hc : cwC cw = c) : packCw op a b c = cw := by
  rw [← BitVec.eq_of_toNat_eq hop, ← ha, ← hb, ← hc, packCw_fields]

theorem encode_of_formatZ {j : Instr} (henc : encode i = .command (packCw op 0 0 0) 0)
    (hop : (cwOp cw).toNat = op.toNat) (h : formatZ cw arg i = .ok j) : encode j = .command cw arg := by
  simp only [formatZ, acceptIf_eq_ok, Bool.and_eq_true, beq_iff_eq] at h
  obtain ⟨⟨⟨⟨ha, hb⟩, hc⟩, rfl⟩, rfl⟩ := h
  rw [henc, eq_packCw_of_fields hop ha hb hc]

theorem encode_of_formatC {f : Byte → Instr} (henc : ∀ c, encode (f c) = .command (packCw op 0 0 c) 0)
    (hop : (cwOp cw).toNat = op.toNat) (h : formatC cw arg f = .ok i) : encode i = .command cw arg := by
  simp only [formatC, acceptIf_eq_ok, Bool.and_eq_true, beq_iff_eq] at h
  obtain ⟨⟨⟨ha, hb⟩, rfl⟩, rfl⟩ := h
  rw [henc, eq_packCw_of_fields hop ha hb rfl]

theorem encode_of_formatIC {f : Byte → Byte → Instr} (henc : ∀ b c, encode (f b c) = .command (packCw op 0 b c) 0)
    (hop : (cwOp cw).toNat = op.toNat) (h : formatIC cw arg f = .ok i) : encode i = .command cw arg := by
  simp only [formatIC, acceptIf_eq_ok, Bool.and_eq_true, beq_iff_eq] at h
  obtain ⟨⟨ha, rfl⟩, rfl⟩ := h
  rw [henc, eq_packCw_of_fields hop ha rfl rfl]

theorem encode_of_formatAB {f : Byte → Byte → Instr} (henc : ∀ a b, encode (f a b) = .command (packCw op a b 0) 0)
    (hop : (cwOp cw).toNat = op.toNat) (h : formatAB cw arg f = .ok i) : encode i = .command cw arg := by
  simp only [formatAB, acceptIf_eq_ok, Bool.and_eq_true, beq_iff_eq] at h
  obtain ⟨⟨hc, rfl⟩, rfl⟩ := h
  rw [henc, eq_packCw_of_fields hop rfl rfl hc]

theorem encode_of_formatABC {f : Byte → Byte → Byte → Instr}
    (henc : ∀ a b c, encode (f a b c) = .command (packCw op a b c) 0)
    (hop : (cwOp cw).toNat = op.toNat) (h : formatABC cw arg f = .ok i) : encode i = .command cw arg := by
  simp only [formatABC, acceptIf_eq_ok, beq_iff_eq] at h
  obtain ⟨rfl, rfl⟩ := h
  rw [henc, eq_packCw_of_fields hop rfl rfl rfl]

theorem encode_of_formatRW {f : Byte → Word32 → Instr} (henc : ∀ c v, encode (f c v) = .command (packCw op 0 0 c) v)
    (hop : (cwOp cw).toNat = op.toNat) (h : formatRW cw arg f = .ok i) : encode i = .command cw arg := by
  simp only [formatRW, acceptIf_eq_ok, Bool.and_eq_true, beq_iff_eq] at h
  obtain ⟨⟨ha, hb⟩, rfl⟩ := h
  rw [henc, eq_packCw_of_fields hop ha hb rfl]

theorem encode_of_formatT {f : Word32 → Instr} (henc : ∀ v, encode (f v) = .command (packCw op 0 0 0) v)
    (hop : (cwOp cw).toNat = op.toNat) (h : formatT cw arg f = .ok i) : encode i = .command cw arg := by
  simp only [formatT, acceptIf_eq_ok, Bool.and_eq_true, beq_iff_eq] at h
  obtain ⟨⟨⟨ha, hb⟩, hc⟩, rfl⟩ := h
  rw [henc, eq_packCw_of_fields hop ha hb hc]

/-- The opcode table of R84, row by row in its order. -/
theorem encode_of_decodeCommand (h : decodeCommand cw arg = .ok i) : encode i = .command cw arg := by
  unfold decodeCommand at h
  split at h
  next hop => exact encode_of_formatC (op := 0x01) (fun _ => rfl) hop h
  next hop => exact encode_of_formatRW (op := 0x02) (fun _ _ => rfl) hop h
  next hop => exact encode_of_formatC (op := 0x10) (fun _ => rfl) hop h
  next hop => exact encode_of_formatC (op := 0x11) (fun _ => rfl) hop h
  next hop => exact encode_of_formatZ (op := 0x20) rfl hop h
  next hop => exact encode_of_formatC (op := 0x21) (fun _ => rfl) hop h
  next hop => exact encode_of_formatC (op := 0x22) (fun _ => rfl) hop h
  next hop => exact encode_of_formatZ (op := 0x23) rfl hop h
  next hop => exact encode_of_formatAB (op := 0x28) (fun _ _ => rfl) hop h
  next hop => exact encode_of_formatZ (op := 0x29) rfl hop h
  next hop => exact encode_of_formatABC (op := 0x2A) (fun _ _ _ => rfl) hop h
  next hop => exact encode_of_formatIC (op := 0x30) (fun _ _ => rfl) hop h
  next hop => exact encode_of_formatC (op := 0x31) (fun _ => rfl) hop h
  next hop => exact encode_of_formatZ (op := 0x32) rfl hop h
  next hop => exact encode_of_formatZ (op := 0x33) rfl hop h
  next hop => exact encode_of_formatZ (op := 0x34) rfl hop h
  next hop => exact encode_of_formatT (op := 0x35) (fun _ => rfl) hop h
  next hop => exact encode_of_formatZ (op := 0x36) rfl hop h
  next hop => exact encode_of_formatZ (op := 0x37) rfl hop h
  next hop => exact encode_of_formatZ (op := 0x38) rfl hop h
  next hop => exact encode_of_formatZ (op := 0x39) rfl hop h
  next hop => exact encode_of_formatT (op := 0x3A) (fun _ => rfl) hop h
  next hop => exact encode_of_formatZ (op := 0xFF) rfl hop h
  next => cases h

/-! ### Encoding what was decoded: byte formats -/

/-- The bytes of a request with joined fields. -/
theorem requestBytes_join16 (slave func a1 a0 q1 q0 : Byte) (tail : List Byte) :
    requestBytes slave func (join16 a1 a0) (join16 q1 q0) tail = slave :: func :: a1 :: a0 :: q1 :: q0 :: tail := by
  rw [requestBytes, be16Bytes_join16, be16Bytes_join16]
  rfl

theorem encode_of_decodeRequest {bytes : List Byte} (h : decodeRequest bytes = .ok i) : encode i = .request bytes := by
  unfold decodeRequest at h
  split at h
  next slave func a1 a0 q1 q0 rest =>
    split at h
    next k kk hfunc =>
      cases h
      rw [encode, requestBytes_join16, BitVec.eq_of_toNat_eq (y := 0x03) hfunc]
    next k kk hfunc =>
      cases h
      rw [encode, requestBytes_join16, BitVec.eq_of_toNat_eq (y := 0x04) hfunc]
    next k kk hfunc =>
      cases h
      rw [encode, requestBytes_join16, BitVec.eq_of_toNat_eq (y := 0x06) hfunc]
    next n tail hfunc =>
      split at h
      next k kk htail =>
        cases h
        rw [encode, ← htail, List.take_append_drop, requestBytes_join16, BitVec.eq_of_toNat_eq (y := 0x10) hfunc]
      next => cases h
    next => cases h
  next => cases h

theorem encode_of_decodeNormalResponse {bytes : List Byte} (h : decodeNormalResponse bytes = .ok i) :
    encode i = .normalResponse bytes := by
  unfold decodeNormalResponse at h
  split at h
  next slave func rest =>
    split at h
    next k kk hcrc =>
      cases h
      rw [encode, ← hcrc, List.take_append_drop]
    next => cases h
  next => cases h

theorem encode_of_decodeExceptionResponse {bytes : List Byte} (h : decodeExceptionResponse bytes = .ok i) :
    encode i = .exceptionResponse bytes := by
  unfold decodeExceptionResponse at h
  split at h
  next slave func code k kk =>
    split at h
    next hbit =>
      cases h
      rw [encode, exceptionCode_of_bit func hbit]
    next => cases h
  next => cases h

theorem encode_of_decodeImage {bytes : List Byte} (h : decodeImage bytes = .ok i) : encode i = .image bytes := by
  unfold decodeImage at h
  split at h
  next =>
    cases h
    simp only [encode, imageBytes, fieldBytes_packCw, be16Bytes_join16, List.cons_append, List.nil_append]
  next => cases h

/-- An accepted input is the encoding of what it decodes to. -/
theorem encode_of_decode {x : Input} (h : decode x = .ok i) : encode i = x := by
  cases x with
  | command => exact encode_of_decodeCommand h
  | request => exact encode_of_decodeRequest h
  | normalResponse => exact encode_of_decodeNormalResponse h
  | exceptionResponse => exact encode_of_decodeExceptionResponse h
  | image => exact encode_of_decodeImage h
  | powerCycle => cases h

end

/-- Settles O4, by cases on the thirty rows. -/
theorem decodeOfEncodeGivesTheInstruction : Obligations.DecodeOfEncodeGivesTheInstruction := by
  unfold Obligations.DecodeOfEncodeGivesTheInstruction
  exact fun _ => decode_encode

/-- Settles O5, by cases on what the host presents and on the row that accepted it. -/
theorem encodeOfDecodeGivesTheInput : Obligations.EncodeOfDecodeGivesTheInput := by
  unfold Obligations.EncodeOfDecodeGivesTheInput
  exact fun _ _ => encode_of_decode

end Sys2Proof
end

section
/-! O3, O2 (R80, R84, R105). The words that fit a row of the opcode table are those that the encoder writes, so the
inverse laws of the codec say which words decode. That a command's own `BadCommand` leaves no trace is shown for the
shared operations, then command by command. -/

namespace Sys2Proof.Machine

/-! ### The rows of the opcode table -/

theorem byte_and_ff (b : Byte) : b &&& 0xFF#8 = b := BitVec.and_allOnes

theorem word32_and_ffffffff (v : Word32) : v &&& 0xFFFFFFFF#32 = v := BitVec.and_allOnes

/-- A word that fits a row fits it in each of its fields. -/
theorem fields_of_fits {r : TableRow} {cw arg : Word32} (h : r.fits cw arg = true) :
    cwOp cw &&& cwOp (r.mask.extractLsb' 32 32) = cwOp (r.pattern.extractLsb' 32 32) ∧
      cwA cw &&& cwA (r.mask.extractLsb' 32 32) = cwA (r.pattern.extractLsb' 32 32) ∧
      cwB cw &&& cwB (r.mask.extractLsb' 32 32) = cwB (r.pattern.extractLsb' 32 32) ∧
      cwC cw &&& cwC (r.mask.extractLsb' 32 32) = cwC (r.pattern.extractLsb' 32 32) ∧
      arg &&& r.mask.extractLsb' 0 32 = r.pattern.extractLsb' 0 32 := by
  have hfits : (cw ++ arg) &&& r.mask = r.pattern := of_decide_eq_true h
  have hcw : cw &&& r.mask.extractLsb' 32 32 = r.pattern.extractLsb' 32 32 := by
    rw [← hfits, BitVec.extractLsb'_and, BitVec.extractLsb'_append_eq_left]
  have harg : arg &&& r.mask.extractLsb' 0 32 = r.pattern.extractLsb' 0 32 := by
    rw [← hfits, BitVec.extractLsb'_and, BitVec.extractLsb'_append_eq_right]
  simp only [← hcw, cwOp, cwA, cwB, cwC, BitVec.extractLsb'_and, harg, and_self]

/-- A word that fits a row is one that the encoder writes: its fields outside the mask are the operands. -/
theorem exists_encode_of_fits {r : TableRow} {cw arg : Word32} (hr : r ∈ commandTable) (h : r.fits cw arg = true) :
    ∃ i, encode i = .command cw arg := by
  have hfields := fields_of_fits h
  rw [← packCw_fields cw]
  generalize cwOp cw = op, cwA cw = a, cwB cw = b, cwC cw = c at hfields
  simp only [commandTable, List.mem_cons, List.not_mem_nil, or_false] at hr
  rcases hr with rfl | rfl | rfl | rfl | rfl | rfl | rfl | rfl | rfl | rfl | rfl | rfl | rfl | rfl | rfl | rfl |
    rfl | rfl | rfl | rfl | rfl | rfl | rfl
  all_goals simp only [cwOp, cwA, cwB, cwC, BitVec.reduceExtractLsb', byte_and_ff, word32_and_ffffffff,
    BitVec.and_zero, true_and, and_true] at hfields
  · obtain ⟨rfl, rfl, rfl, rfl⟩ := hfields; exact ⟨.regRd c, rfl⟩
  · obtain ⟨rfl, rfl, rfl⟩ := hfields; exact ⟨.regWr c arg, rfl⟩
  · obtain ⟨rfl, rfl, rfl, rfl⟩ := hfields; exact ⟨.crcInit c, rfl⟩
  · obtain ⟨rfl, rfl, rfl, rfl⟩ := hfields; exact ⟨.crcUpd c, rfl⟩
  · obtain ⟨rfl, rfl, rfl, rfl, rfl⟩ := hfields; exact ⟨.fbClr, rfl⟩
  · obtain ⟨rfl, rfl, rfl, rfl⟩ := hfields; exact ⟨.fbPush c, rfl⟩
  · obtain ⟨rfl, rfl, rfl, rfl⟩ := hfields; exact ⟨.fbRd c, rfl⟩
  · obtain ⟨rfl, rfl, rfl, rfl, rfl⟩ := hfields; exact ⟨.rxParse, rfl⟩
  · obtain ⟨rfl, rfl, rfl⟩ := hfields; exact ⟨.txBegin a b, rfl⟩
  · obtain ⟨rfl, rfl, rfl, rfl, rfl⟩ := hfields; exact ⟨.txSeal, rfl⟩
  · obtain ⟨rfl, rfl⟩ := hfields; exact ⟨.txExc a b c, rfl⟩
  · obtain ⟨rfl, rfl, rfl⟩ := hfields; exact ⟨.hbWr b c, rfl⟩
  · obtain ⟨rfl, rfl, rfl, rfl⟩ := hfields; exact ⟨.hbRd c, rfl⟩
  · obtain ⟨rfl, rfl, rfl, rfl, rfl⟩ := hfields; exact ⟨.hdrLoad, rfl⟩
  · obtain ⟨rfl, rfl, rfl, rfl, rfl⟩ := hfields; exact ⟨.hdrSeal, rfl⟩
  · obtain ⟨rfl, rfl, rfl, rfl, rfl⟩ := hfields; exact ⟨.hdrReset, rfl⟩
  · obtain ⟨rfl, rfl, rfl, rfl⟩ := hfields; exact ⟨.hdrStart arg, rfl⟩
  · obtain ⟨rfl, rfl, rfl, rfl, rfl⟩ := hfields; exact ⟨.hdrAdv, rfl⟩
  · obtain ⟨rfl, rfl, rfl, rfl, rfl⟩ := hfields; exact ⟨.hdrRet, rfl⟩
  · obtain ⟨rfl, rfl, rfl, rfl, rfl⟩ := hfields; exact ⟨.hdrTfirst, rfl⟩
  · obtain ⟨rfl, rfl, rfl, rfl, rfl⟩ := hfields; exact ⟨.hdrTlast, rfl⟩
  · obtain ⟨rfl, rfl, rfl, rfl⟩ := hfields; exact ⟨.hdrFind arg, rfl⟩
  · obtain ⟨rfl, rfl, rfl, rfl, rfl⟩ := hfields; exact ⟨.sysReset, rfl⟩

theorem wellFormed_of_isCommand {i : Instr} (h : isCommand i = true) : i.wellFormed = true := by
  cases i with
  | reqReadHolding | reqReadInput | reqWriteSingle | reqWriteMultiple | respNormal | respException | headerImage =>
    cases h
  | _ => rfl

/-- Every well-formed instruction is encoded by an input of its row's shape. -/
theorem fitsRow_encode (i : Instr) : Laws.WritesItsRow.Statement i :=
  match i with
  | .regRd c => Laws.WritesItsRow.regRd c
  | .regWr c v => Laws.WritesItsRow.regWr c v
  | .crcInit c => Laws.WritesItsRow.crcInit c
  | .crcUpd c => Laws.WritesItsRow.crcUpd c
  | .fbClr => Laws.WritesItsRow.fbClr
  | .fbPush c => Laws.WritesItsRow.fbPush c
  | .fbRd c => Laws.WritesItsRow.fbRd c
  | .rxParse => Laws.WritesItsRow.rxParse
  | .txBegin a b => Laws.WritesItsRow.txBegin a b
  | .txSeal => Laws.WritesItsRow.txSeal
  | .txExc a b c => Laws.WritesItsRow.txExc a b c
  | .hbWr b c => Laws.WritesItsRow.hbWr b c
  | .hbRd c => Laws.WritesItsRow.hbRd c
  | .hdrLoad => Laws.WritesItsRow.hdrLoad
  | .hdrSeal => Laws.WritesItsRow.hdrSeal
  | .hdrReset => Laws.WritesItsRow.hdrReset
  | .hdrStart v => Laws.WritesItsRow.hdrStart v
  | .hdrAdv => Laws.WritesItsRow.hdrAdv
  | .hdrRet => Laws.WritesItsRow.hdrRet
  | .hdrTfirst => Laws.WritesItsRow.hdrTfirst
  | .hdrTlast => Laws.WritesItsRow.hdrTlast
  | .hdrFind v => Laws.WritesItsRow.hdrFind v
  | .sysReset => Laws.WritesItsRow.sysReset
  | .reqReadHolding slave addr x k kk => Laws.WritesItsRow.reqReadHolding slave addr x k kk
  | .reqReadInput slave addr x k kk => Laws.WritesItsRow.reqReadInput slave addr x k kk
  | .reqWriteSingle slave addr x k kk => Laws.WritesItsRow.reqWriteSingle slave addr x k kk
  | .reqWriteMultiple slave addr qty n pay k kk => Laws.WritesItsRow.reqWriteMultiple slave addr qty n pay k kk
  | .respNormal slave func data k kk => Laws.WritesItsRow.respNormal slave func data k kk
  | .respException slave func code k kk => Laws.WritesItsRow.respException slave func code k kk
  | .headerImage size off time crc => Laws.WritesItsRow.headerImage size off time crc

/-- The words that the encoder writes are those that fit a row. -/
theorem exists_encode_iff_fits {cw arg : Word32} :
    (∃ i, encode i = .command cw arg) ↔ ∃ r ∈ commandTable, r.fits cw arg = true := by
  constructor
  · rintro ⟨i, henc⟩
    have hcommand : isCommand i = true := by rw [isCommand, henc]
    have hrow := fitsRow_encode i (wellFormed_of_isCommand hcommand)
    rw [henc] at hrow
    obtain ⟨r, hr, -, hfits⟩ := hrow
    exact ⟨r, hr, hfits⟩
  · rintro ⟨r, hr, hfits⟩
    exact exists_encode_of_fits hr hfits

/-- A word decodes exactly when it fits a row (R84, R105). -/
theorem exists_decode_iff_fits {cw arg : Word32} :
    (∃ i, decode (.command cw arg) = .ok i) ↔ ∃ r ∈ commandTable, r.fits cw arg = true := by
  rw [← exists_encode_iff_fits]
  constructor
  · rintro ⟨i, hdec⟩
    exact ⟨i, encode_of_decode hdec⟩
  · rintro ⟨i, henc⟩
    have hcommand : isCommand i = true := by rw [isCommand, henc]
    exact ⟨i, henc ▸ decode_encode (wellFormed_of_isCommand hcommand)⟩

/-! ### One step -/

theorem step_of_decode {s : State} {x : Input} {rest : List Input} {i : Instr} (hpending : s.pending = x :: rest)
    (hdec : decode x = .ok i) : step s = exec i { s with pending := rest } := by
  simp only [step, hpending, hdec]

theorem step_of_pending_nil {s : State} (hpending : s.pending = []) : step s = .next s := by
  simp only [step, hpending]

/-- A word that decodes to nothing is refused (R105). -/
theorem step_of_not_decoded {s : State} {cw arg : Word32} {rest : List Input}
    (hpending : s.pending = .command cw arg :: rest) (hdec : ¬ ∃ i, decode (.command cw arg) = .ok i) :
    step s = .next ({ s with pending := rest }.answer .badCommand 0) := by
  cases h : decode (.command cw arg) with
  | ok i => exact absurd ⟨i, h⟩ hdec
  | error e => simp only [step, hpending, h, answerReserved, raise_eq]

/-! ### `BadCommand` leaves no trace -/

/-- If `t` answers `BadCommand`, it is `s` with that answer and nothing else changed. -/
def RefusedClean (s t : State) : Prop := ∀ v, t.resp = some ⟨.badCommand, v⟩ → t = s.answer .badCommand 0

/-- A meaning whose `BadCommand` changes nothing. -/
def RefusesCleanly (m : State → Out) : Prop := ∀ s, Ends (RefusedClean s) (m s)

section

variable {s t : State}

/-- A check of the command raises its status in the state that the command found. -/
theorem refusedClean_raise (st : Status) : RefusedClean s (s.answer st 0) := by
  rintro v ⟨⟩
  rfl

theorem refusedClean_of_ne {st : Status} {v : Word32} (h : st ≠ .badCommand) : RefusedClean s (t.answer st v) := by
  rintro v' ⟨⟩
  exact absurd rfl h

theorem respond_refusedClean (v : Word32) : Ends (RefusedClean s) (respond v t) := ends_next (refusedClean_of_ne nofun)

/-- A check that raises something else than `BadCommand` may come after a write. -/
theorem check_of_ne_refusedClean {c : Prop} [Decidable c] {st : Status} {o : Out} (hst : st ≠ .badCommand)
    (hgo : ¬ c → Ends (RefusedClean s) o) : Ends (RefusedClean s) (if c then raise st t else o) :=
  ends_check (refusedClean_of_ne hst) hgo

theorem requireConfigured_refusesCleanly {k : State → Out} (hk : RefusesCleanly k) :
    RefusesCleanly (requireConfigured k) := fun s => ends_requireConfigured (refusedClean_raise _) (hk s)

theorem requireLoaded_refusesCleanly {k : State → Out} (hk : RefusesCleanly k) : RefusesCleanly (requireLoaded k) :=
  fun s => ends_requireLoaded (refusedClean_raise _) (hk s)

theorem execRegRd_refusesCleanly (r : Byte) : RefusesCleanly (execRegRd r) := by
  intro s
  unfold execRegRd
  split
  · exact respond_refusedClean _
  · exact ends_next (refusedClean_raise _)

theorem execRegWr_refusesCleanly (r : Byte) (v : Word32) : RefusesCleanly (execRegWr r v) := fun _ =>
  ends_execRegWr (refusedClean_raise _) fun _ _ _ _ => refusedClean_of_ne nofun

theorem execFbPush_refusesCleanly (b : Byte) : RefusesCleanly (execFbPush b) := by
  refine fun s => ends_check (refusedClean_raise _) fun _ => ?_
  split
  · exact ends_fault _
  · exact respond_refusedClean 0

theorem dispatchFunction_refusedClean (len : Nat) : Ends (RefusedClean s) (dispatchFunction len t) := by
  unfold dispatchFunction
  split
  · exact respond_refusedClean 0
  · exact respond_refusedClean 0
  · exact respond_refusedClean 0
  · exact check_of_ne_refusedClean nofun fun _ => check_of_ne_refusedClean nofun fun _ => respond_refusedClean 0
  · exact ends_next (refusedClean_of_ne nofun)

/-- `RX.PARSE` clears `R_KIND` before its checks, but none of them raises `BadCommand`. -/
theorem execRxParse_refusesCleanly : RefusesCleanly execRxParse := by
  refine fun s => check_of_ne_refusedClean nofun fun _ => ?_
  split
  · exact ends_fault _
  refine check_of_ne_refusedClean nofun fun _ => ?_
  split
  · exact dispatchFunction_refusedClean _
  · exact ends_next (refusedClean_of_ne nofun)

theorem execHdrLoad_refusesCleanly : RefusesCleanly execHdrLoad := requireConfigured_refusesCleanly fun _ =>
  ends_loadHeader (fun _ _ _ _ => refusedClean_of_ne nofun) fun _ => refusedClean_of_ne nofun

theorem execHdrFind_refusesCleanly (time : Word32) : RefusesCleanly (execHdrFind time) := by
  refine requireLoaded_refusesCleanly fun s => ?_
  unfold findBucket
  split
  · exact respond_refusedClean _
  · exact ends_next (refusedClean_raise _)

theorem exec_refusesCleanly {i : Instr} (hcommand : isCommand i = true) : RefusesCleanly (exec i) := by
  cases i with
  | regRd r => exact execRegRd_refusesCleanly r
  | regWr r v => exact execRegWr_refusesCleanly r v
  | fbPush b => exact execFbPush_refusesCleanly b
  | rxParse => exact execRxParse_refusesCleanly
  | crcUpd | fbClr | txBegin | txExc | sysReset => exact fun _ => respond_refusedClean 0
  | crcInit | txSeal | hbWr => exact fun _ => ends_check (refusedClean_raise _) fun _ => respond_refusedClean 0
  | fbRd | hbRd => exact fun _ => ends_check (refusedClean_raise _) fun _ => respond_refusedClean _
  | hdrLoad => exact execHdrLoad_refusesCleanly
  | hdrReset => exact requireConfigured_refusesCleanly fun _ => respond_refusedClean 0
  | hdrSeal => exact requireLoaded_refusesCleanly fun _ => respond_refusedClean 0
  | hdrStart | hdrAdv | hdrTlast =>
    exact requireLoaded_refusesCleanly fun _ => ends_check (refusedClean_raise _) fun _ => respond_refusedClean _
  | hdrRet | hdrTfirst =>
    exact requireLoaded_refusesCleanly fun _ => ends_check (refusedClean_raise _) fun _ =>
      ends_check (refusedClean_raise _) fun _ => respond_refusedClean _
  | hdrFind time => exact execHdrFind_refusesCleanly time
  | reqReadHolding | reqReadInput | reqWriteSingle | reqWriteMultiple | respNormal | respException | headerImage =>
    cases hcommand

end

/-- Settles O3: the codec's inverse laws give the words that decode, and no command writes before it raises
`BadCommand`. -/
theorem reservedCommandsAreRefused : Obligations.ReservedCommandsAreRefused := by
  unfold Obligations.ReservedCommandsAreRefused
  refine ⟨fun _ _ => exists_decode_iff_fits, fun s cw arg rest hpending hnone => ?_,
    fun i s t v hcommand hexec hresp => ?_⟩
  · refine step_of_not_decoded hpending fun hdec => ?_
    obtain ⟨r, hr, hfits⟩ := exists_decode_iff_fits.1 hdec
    rw [hnone r hr] at hfits
    cases hfits
  · exact exec_refusesCleanly hcommand s t hexec v hresp

/-- Settles O2, by the definition of a step. -/
theorem stepRunsTheDecodedInstruction : Obligations.StepRunsTheDecodedInstruction := by
  unfold Obligations.StepRunsTheDecodedInstruction
  exact ⟨fun _ _ _ _ hpending hdec => step_of_decode hpending hdec, fun _ => step_of_pending_nil⟩

end Sys2Proof.Machine
end

section
/-! O35, O36 (R87, R131, R134). A received frame is loaded into `fb` and parsed. What the parser reads there are the
frame's own bytes, so its outcome is said once in their terms, and once for the frames that the buffer cannot hold. -/

namespace Sys2Proof.Machine

/-! ### Bytes of a word16 and of a written string -/

theorem ofNat_toNat_eq_lo8 (v : Word16) : BitVec.ofNat 8 v.toNat = lo8 v := by
  apply BitVec.eq_of_toNat_eq
  rw [lo8, BitVec.extractLsb'_toNat, BitVec.toNat_ofNat, Nat.shiftRight_zero]

theorem ofNat_toNat_div_eq_hi8 (v : Word16) : BitVec.ofNat 8 (v.toNat / 256) = hi8 v := by
  apply BitVec.eq_of_toNat_eq
  rw [hi8, BitVec.extractLsb'_toNat, BitVec.toNat_ofNat, Nat.shiftRight_eq_div_pow]

section

variable {size a : Nat} {m : Memory} {xs ys : List Byte}

/-- A write after a write, side by side. -/
theorem writeAll_append :
    Memory.writeAll m a (xs ++ ys) = Memory.writeAll (Memory.writeAll m a xs) (a + xs.length) ys := by
  induction xs generalizing m a with
  | nil => rfl
  | cons x xs ih =>
    rw [List.cons_append, Memory.writeAll, Memory.writeAll, ih, List.length_cons, Nat.add_assoc, Nat.add_comm 1]

/-- The bytes read back of the first part of a written string. -/
theorem slice_writeAll_left (hm : Memory.wf size m = true) (ha : a + (xs ++ ys).length ≤ size) :
    Memory.slice (Memory.writeAll m a (xs ++ ys)) a xs.length = xs := by
  have hall := slice_writeAll hm ha
  rw [List.length_append, slice_append] at hall
  exact List.append_inj_left hall (slice_length _ _ _)

/-- A byte of a string written at the start. -/
theorem read_writeAll_zero {i : Nat} (hm : Memory.wf size m = true) (hsize : xs.length ≤ size) (hi : i < xs.length) :
    Memory.read (Memory.writeAll m 0 xs) i = xs.getD i 0#8 := by
  rw [read_writeAll hm (by omega), if_pos (by omega), Nat.sub_zero]

end

section

variable {s : State}

/-! ### The parser on a loaded frame -/

theorem seqOk_singleton (m : State → Out) (s : State) : seqOk [m] s = m s := by
  rw [seqOk]
  cases m s with
  | next t => exact ite_self _
  | fault | refused => rfl

/-- `RX.PARSE` after its two checks of the length (R134). -/
theorem execRxParse_of_len (h8 : 8 ≤ s.fbLen.toNat) (h256 : s.fbLen.toNat ≤ 256) :
    execRxParse s =
      if Memory.read s.fb 0 ≠ s.slaveAddr ∧ Memory.read s.fb 0 ≠ 0 then raise .invalidSlaveAddress { s with rKind := 0 }
      else if s.frameCrcOk s.fbLen.toNat then
        dispatchFunction s.fbLen.toNat
          { s with rKind := 0, rSlave := Memory.read s.fb 0, rFunc := Memory.read s.fb 1 }
      else raise .invalidCrc { s with rKind := 0 } := by
  simp only [execRxParse, Config.minFrame_eq, Config.fbCap_eq, Config.broadcast_eq]
  rw [if_neg (by omega), if_neg (by omega)]
  rfl

/-- The state with a frame loaded, as `FB.LOAD` leaves it but for the response port (R87). -/
def State.loadedFrame (s : State) (bytes : List Byte) : State :=
  s.setFrame (Memory.writeAll s.fb 0 bytes) (BitVec.ofNat 9 bytes.length)

theorem loadedFrame_len {bytes : List Byte} (h : bytes.length ≤ 256) :
    (s.loadedFrame bytes).fbLen.toNat = bytes.length := by
  rw [State.loadedFrame, setFrame_fbLen, BitVec.toNat_ofNat]
  omega

/-- The CRC check of a loaded frame is about its own bytes (R137). -/
theorem loadedFrame_crcOk {body : List Byte} {crcLo crcHi : Byte} (hfb : Memory.wf 256 s.fb = true)
    (h : body.length + 2 ≤ 256) :
    (s.loadedFrame (body ++ [crcLo, crcHi])).frameCrcOk (body.length + 2) = true ↔
      crcLo = lo8 (crc16 .modbus body) ∧ crcHi = hi8 (crc16 .modbus body) := by
  have hlen : (body ++ [crcLo, crcHi]).length = body.length + 2 := List.length_append
  have hbody : (s.loadedFrame (body ++ [crcLo, crcHi])).frame body.length = body :=
    slice_writeAll_left hfb (by omega)
  have hlo : Memory.read (s.loadedFrame (body ++ [crcLo, crcHi])).fb body.length = crcLo := by
    rw [State.loadedFrame, setFrame_fb, read_writeAll_zero hfb (by omega) (by omega)]
    simp
  have hhi : Memory.read (s.loadedFrame (body ++ [crcLo, crcHi])).fb (body.length + 1) = crcHi := by
    rw [State.loadedFrame, setFrame_fb, read_writeAll_zero hfb (by omega) (by omega)]
    simp
  rw [frameCrcOk_iff, Nat.add_sub_cancel, hbody, hlo, show body.length + 2 - 1 = body.length + 1 by omega, hhi]

/-- `PARSE` of a frame that fits: it is loaded, then parsed. -/
theorem parseFrame_of_length {bytes : List Byte} (hne : bytes ≠ []) (h256 : bytes.length ≤ 256) :
    parseFrame bytes s = execRxParse ((s.loadedFrame bytes).answer .ok 0) := by
  rw [parseFrame, loadFrame_then h256 hne, seqOk_singleton]
  rfl

@[simp] theorem answer_frameCrcOk (st : Status) (v : Word32) (n : Nat) :
    (s.answer st v).frameCrcOk n = s.frameCrcOk n := rfl

/-- The checks of slave address and CRC on a frame that fits, then the function code (R134). -/
theorem parseFrame_of_fits {slave func : Byte} {rest : List Byte} {crcLo crcHi : Byte}
    (hfb : Memory.wf 256 s.fb = true) (h8 : 4 ≤ rest.length) (h256 : rest.length ≤ 252) :
    let body := slave :: func :: rest
    let t := s.loadedFrame (body ++ [crcLo, crcHi])
    parseFrame (body ++ [crcLo, crcHi]) s =
      if slave ≠ s.slaveAddr ∧ slave ≠ 0 then .next (t.answer .invalidSlaveAddress 0)
      else if crcLo ≠ lo8 (crc16 .modbus body) ∨ crcHi ≠ hi8 (crc16 .modbus body) then .next (t.answer .invalidCrc 0)
      else dispatchFunction (body.length + 2) ({ t with rSlave := slave, rFunc := func }.answer .ok 0) := by
  intro body t
  have hlen : (body ++ [crcLo, crcHi]).length = body.length + 2 := List.length_append
  have hbody : body.length = rest.length + 2 := rfl
  have hfits : (body ++ [crcLo, crcHi]).length ≤ 256 := by omega
  have htlen : t.fbLen.toNat = body.length + 2 := (loadedFrame_len hfits).trans hlen
  have hslave : Memory.read t.fb 0 = slave := read_writeAll_zero hfb hfits (by omega)
  have hfunc : Memory.read t.fb 1 = func := read_writeAll_zero hfb hfits (by omega)
  have hcrc : t.frameCrcOk (body.length + 2) = true ↔ _ := loadedFrame_crcOk hfb (by omega)
  rw [parseFrame_of_length (List.append_ne_nil_of_left_ne_nil (List.cons_ne_nil _ _) _) hfits,
    execRxParse_of_len (s := t.answer .ok 0) (by rw [answer_fbLen]; omega) (by rw [answer_fbLen]; omega)]
  simp only [answer_fb, answer_fbLen, answer_frameCrcOk, htlen, hslave, hfunc]
  refine ite_congr rfl (fun _ => rfl) fun _ => ?_
  by_cases h : crcLo = lo8 (crc16 .modbus body) ∧ crcHi = hi8 (crc16 .modbus body)
  · rw [if_pos (hcrc.2 h), if_neg (by tauto)]
    rfl
  · rw [if_neg (mt hcrc.1 h), if_pos (by tauto)]
    rfl

/-! ### The function code -/

/-- The three eight-byte rows (R91 to R93). -/
theorem dispatchFunction_eightBytes {func : Byte} {kind : BitVec 3} (len : Nat) (hfunc : Memory.read s.fb 1 = func)
    (h : (func, kind) ∈ [(0x03#8, 1#3), (0x04#8, 2#3), (0x06#8, 3#3)]) :
    dispatchFunction len s = acceptRequest kind 0 s := by
  simp only [List.mem_cons, List.not_mem_nil, or_false, Prod.mk.injEq] at h
  rw [dispatchFunction, hfunc]
  obtain ⟨rfl, rfl⟩ | ⟨rfl, rfl⟩ | ⟨rfl, rfl⟩ := h
  · rfl
  · rfl
  · rfl

/-- The 0x10 row, its byte count being that of the payload (R94, R138). -/
theorem dispatchFunction_writeMultiple {count : Byte} {len : Nat} (hfunc : Memory.read s.fb 1 = 0x10)
    (hcount : Memory.read s.fb 6 = count) (hlen : len = 9 + count.toNat) :
    dispatchFunction len s = acceptRequest 4 count s := by
  rw [dispatchFunction, hfunc, hcount]
  change (if len < 9 then _ else if len ≠ 9 + count.toNat then _ else _) = _
  rw [if_neg (by omega), if_neg (by omega)]

/-! ### Requests -/

theorem requestBytes_length (slave func : Byte) (addr qty : Word16) (tail : List Byte) :
    (requestBytes slave func addr qty tail).length = tail.length + 6 := by
  simp [requestBytes, be16Bytes]

/-- A loaded request, read back. -/
theorem read_request {slave func : Byte} {addr qty : Word16} {tail : List Byte} {i : Nat}
    (hfb : Memory.wf 256 s.fb = true) (htail : tail.length ≤ 250) (hi : i < tail.length + 6) :
    Memory.read (Memory.writeAll s.fb 0 (requestBytes slave func addr qty tail)) i =
      (requestBytes slave func addr qty tail).getD i 0#8 := by
  have hlen := requestBytes_length slave func addr qty tail
  exact read_writeAll_zero hfb (by omega) (by omega)

theorem frameField_request {slave func : Byte} {addr qty : Word16} {tail : List Byte} {t : State}
    (hfb : Memory.wf 256 s.fb = true) (htail : tail.length ≤ 250)
    (ht : t.fb = Memory.writeAll s.fb 0 (requestBytes slave func addr qty tail)) :
    t.frameField 2 = addr ∧ t.frameField 4 = qty := by
  have hread {i : Nat} (hi : i < 6) : Memory.read t.fb i = (requestBytes slave func addr qty tail).getD i 0#8 := by
    rw [ht, read_request hfb htail (by omega)]
  constructor
  · rw [State.frameField, hread (by decide), hread (by decide)]
    exact join16_halves addr
  · rw [State.frameField, hread (by decide), hread (by decide)]
    exact join16_halves qty

/-- `PARSE` of a request that fits, whose function code accepts it: the first failing check's error, or the fields
that its bytes spell. -/
theorem parseFrame_request {slave func : Byte} {addr qty : Word16} {mid : List Byte} {crcLo crcHi : Byte}
    {kind : BitVec 3} {count : Byte} (hfb : Memory.wf 256 s.fb = true) (hmid : mid.length ≤ 248)
    (hfunc : ∀ t : State, t.fb = Memory.writeAll s.fb 0 (requestBytes slave func addr qty (mid ++ [crcLo, crcHi])) →
      dispatchFunction (mid.length + 8) t = acceptRequest kind count t) :
    let t := s.loadedFrame (requestBytes slave func addr qty (mid ++ [crcLo, crcHi]))
    let k := crc16 .modbus (requestBytes slave func addr qty mid)
    parseFrame (requestBytes slave func addr qty (mid ++ [crcLo, crcHi])) s = .next (
      if slave ≠ s.slaveAddr ∧ slave ≠ 0 then t.answer .invalidSlaveAddress 0
      else if crcLo ≠ lo8 k ∨ crcHi ≠ hi8 k then t.answer .invalidCrc 0
      else
        { t with rSlave := slave, rFunc := func, rAddr := addr, rQty := qty, rBc := count, rKind := kind }.answer
          .ok 0) := by
  intro t k
  have hparse := parseFrame_of_fits (s := s) (slave := slave) (func := func)
    (rest := be16Bytes addr ++ be16Bytes qty ++ mid) (crcLo := crcLo) (crcHi := crcHi) hfb
    (by simp [be16Bytes]) (by simp [be16Bytes]; omega)
  refine hparse.trans ?_
  rw [apply_ite Host.Outcome.next, apply_ite Host.Outcome.next]
  refine ite_congr rfl (fun _ => rfl) fun _ => ite_congr rfl (fun _ => rfl) fun _ => ?_
  have htail : (mid ++ [crcLo, crcHi]).length ≤ 250 := by
    rw [List.length_append]
    exact Nat.add_le_add_right hmid 2
  let u := { t with rSlave := slave, rFunc := func }.answer .ok 0
  obtain ⟨haddr, hqty⟩ := frameField_request (t := u) hfb htail rfl
  calc dispatchFunction (mid.length + 8) u
    _ = acceptRequest kind count u := hfunc u rfl
    _ = _ := by rw [acceptRequest, haddr, hqty]; rfl

/-! ### Frames that do not fit -/

theorem execFbPush_full (b : Byte) (h : s.fbLen.toNat = 256) :
    execFbPush b s = .next (s.answer .bufferTooSmall 0) := by
  rw [execFbPush, Config.fbCap_eq, if_pos h, raise_eq]

/-- Pushes that do not all fit: `n` of them fill the buffer, and the next one is refused (R131). -/
theorem pushes_overflow {bs : List Byte} {ms : List (State → Out)} {n : Nat} (hn : s.fbLen.toNat + n = 256)
    (hpos : 0 < n) (h : n < bs.length) :
    seqOk (bs.map execFbPush ++ ms) s =
      .next ((s.setFrame (Memory.writeAll s.fb s.fbLen.toNat (bs.take n)) 256).answer .bufferTooSmall 0) := by
  have hsplit : bs.take n ++ bs[n] :: bs.drop (n + 1) = bs := by
    rw [← List.drop_eq_getElem_cons h, List.take_append_drop]
  have hfull : s.fbLen.toNat + (bs.take n).length = 256 := by rw [List.length_take_of_le h.le, hn]
  have hne : bs.take n ≠ [] := List.ne_nil_of_length_pos (by omega)
  calc seqOk (bs.map execFbPush ++ ms) s
    _ = seqOk ((bs.take n).map execFbPush ++ (execFbPush bs[n] :: ((bs.drop (n + 1)).map execFbPush ++ ms))) s := by
      rw [← List.cons_append, ← List.map_cons, ← List.append_assoc, ← List.map_append, hsplit]
    _ = _ := by
      rw [pushes_append hfull.le hne, hfull, seqOk_cons (execFbPush_full bs[n] rfl)]
      rfl

/-- `FB.LOAD` of a frame that does not fit. -/
theorem loadFrame_overflow {bytes : List Byte} {ms : List (State → Out)} (h : 256 < bytes.length) :
    seqOk (loadFrame bytes ++ ms) s =
      .next ((s.setFrame (Memory.writeAll s.fb 0 (bytes.take 256)) 256).answer .bufferTooSmall 0) := by
  have hclr : execFbClr s = .next ((s.setFrame s.fb 0).answer .ok 0) := rfl
  have hlen : ((s.setFrame s.fb 0).answer .ok 0).fbLen.toNat = 0 := rfl
  rw [loadFrame, List.cons_append, seqOk_cons hclr, answer_lastOk, decide_eq_true rfl, if_pos rfl,
    pushes_overflow (n := 256) (by omega) (by omega) h, hlen]
  rfl

/-! ### The frame that the obligations show in `fb` -/

/-- A string written to the start of `fb` stands there, and later bytes are as before. -/
theorem writeAll_fb {bytes : List Byte} {n : Nat} (hfb : Memory.wf 256 s.fb = true) (hn : bytes.length = n)
    (h : n ≤ 256) :
    Memory.slice (Memory.writeAll s.fb 0 bytes) 0 n = bytes ∧
      ∀ a, n ≤ a → Memory.read (Memory.writeAll s.fb 0 bytes) a = Memory.read s.fb a := by
  subst hn
  exact ⟨slice_writeAll hfb (by omega), fun a ha => read_writeAll_outside hfb (by omega) (.inr (by omega))⟩

/-- `PARSE` of an eight-byte request. -/
theorem parseFrame_eightBytes {slave func : Byte} {addr qty : Word16} {crcLo crcHi : Byte} {kind : BitVec 3}
    (hfb : Memory.wf 256 s.fb = true) (hkind : (func, kind) ∈ [(0x03#8, 1#3), (0x04#8, 2#3), (0x06#8, 3#3)]) :
    let t := s.setFrame (Memory.writeAll s.fb 0 (requestBytes slave func addr qty [crcLo, crcHi])) 8
    let k := crc16 .modbus (requestBytes slave func addr qty [])
    parseFrame (requestBytes slave func addr qty [crcLo, crcHi]) s = .next (
      if slave ≠ s.slaveAddr ∧ slave ≠ 0 then t.answer .invalidSlaveAddress 0
      else if crcLo ≠ lo8 k ∨ crcHi ≠ hi8 k then t.answer .invalidCrc 0
      else
        { t with rSlave := slave, rFunc := func, rAddr := addr, rQty := qty, rBc := 0, rKind := kind }.answer
          .ok 0) := by
  refine parseFrame_request (mid := []) hfb (Nat.zero_le _) fun t ht => dispatchFunction_eightBytes _ ?_ hkind
  rw [ht, read_request hfb (by simp) (by simp)]
  rfl

end

/-- Settles O35: the three rows run `PARSE` of the bytes that encode them, and their function codes are accepted. -/
theorem eightByteRequestsAreParsed : Obligations.EightByteRequestsAreParsed := by
  unfold Obligations.EightByteRequestsAreParsed
  intro s slave addr qty crcLo crcHi hwf i func kind hrow
  obtain ⟨hfb, -, -⟩ := (wf_iff s).1 hwf
  have hi : i.wellFormed = true ∧ encode i = .request (requestBytes slave func addr qty [crcLo, crcHi]) ∧
      exec i s = parseFrame (requestBytes slave func addr qty [crcLo, crcHi]) s ∧
      (func, kind) ∈ [(0x03#8, 1#3), (0x04#8, 2#3), (0x06#8, 3#3)] := by
    simp only [List.mem_cons, List.not_mem_nil, or_false, Prod.mk.injEq] at hrow
    obtain ⟨rfl, rfl, rfl⟩ | ⟨rfl, rfl, rfl⟩ | ⟨rfl, rfl, rfl⟩ := hrow
    · exact ⟨rfl, rfl, rfl, by decide⟩
    · exact ⟨rfl, rfl, rfl, by decide⟩
    · exact ⟨rfl, rfl, rfl, by decide⟩
  obtain ⟨hwell, hencode, hexec, hkind⟩ := hi
  have hlen : (requestBytes slave func addr qty [crcLo, crcHi]).length = 8 := requestBytes_length ..
  obtain ⟨hslice, hrest⟩ := writeAll_fb hfb hlen (by decide)
  simp only [ofNat_toNat_div_eq_hi8, ofNat_toNat_eq_lo8]
  exact ⟨hencode ▸ decode_encode hwell, _, hslice, hrest, hexec.trans (parseFrame_eightBytes hfb hkind)⟩

section

variable {s : State} {slave : Byte} {addr qty : Word16} {count : Byte} {payload : List Byte} {crcLo crcHi : Byte}

/-- `PARSE` of a 0x10 request that fits. -/
theorem parseFrame_writeMultiple (hfb : Memory.wf 256 s.fb = true) (hpayload : payload.length = count.toNat)
    (hcount : count.toNat ≤ 247) :
    let bytes := requestBytes slave 0x10 addr qty (count :: payload ++ [crcLo, crcHi])
    let t := s.setFrame (Memory.writeAll s.fb 0 bytes) (BitVec.ofNat 9 (9 + count.toNat))
    let k := crc16 .modbus (requestBytes slave 0x10 addr qty (count :: payload))
    parseFrame bytes s = .next (
      if slave ≠ s.slaveAddr ∧ slave ≠ 0 then t.answer .invalidSlaveAddress 0
      else if crcLo ≠ lo8 k ∨ crcHi ≠ hi8 k then t.answer .invalidCrc 0
      else
        { t with rSlave := slave, rFunc := 0x10, rAddr := addr, rQty := qty, rBc := count, rKind := 4 }.answer
          .ok 0) := by
  have hmid : (count :: payload).length = count.toNat + 1 := by rw [List.length_cons, hpayload]
  have htail : (count :: payload ++ [crcLo, crcHi]).length = count.toNat + 3 := by rw [List.length_append, hmid]; rfl
  have hlen : (requestBytes slave 0x10 addr qty (count :: payload ++ [crcLo, crcHi])).length = 9 + count.toNat := by
    rw [requestBytes_length, htail]
    omega
  rw [← hlen]
  refine parseFrame_request (mid := count :: payload) hfb (by omega) fun t ht => ?_
  refine dispatchFunction_writeMultiple ?_ ?_ (by omega)
  · rw [ht, read_request hfb (by omega) (by omega)]
    rfl
  · rw [ht, read_request hfb (by omega) (by omega)]
    rfl

end

/-- Settles O36: a frame that fits is parsed, and the 257th byte of one that does not is refused. -/
theorem writeMultipleRequestsAreParsed : Obligations.WriteMultipleRequestsAreParsed := by
  unfold Obligations.WriteMultipleRequestsAreParsed
  intro s slave addr qty count payload crcLo crcHi hwf hpayload
  obtain ⟨hfb, -, -⟩ := (wf_iff s).1 hwf
  let bytes := requestBytes slave 0x10 addr qty (count :: payload ++ [crcLo, crcHi])
  have hlen : bytes.length = 9 + count.toNat := by
    simp only [bytes, requestBytes_length, List.length_append, List.length_cons, List.length_nil, hpayload]
    omega
  have hbody : [slave, 0x10, hi8 addr, lo8 addr, hi8 qty, lo8 qty, count] ++ payload =
    requestBytes slave 0x10 addr qty (count :: payload) := rfl
  have hbytes : requestBytes slave 0x10 addr qty (count :: payload) ++ [crcLo, crcHi] = bytes := rfl
  have hexec : exec (.reqWriteMultiple slave addr qty count payload crcLo crcHi) s = parseFrame bytes s := rfl
  simp only [ofNat_toNat_div_eq_hi8, ofNat_toNat_eq_lo8, hbody, hbytes, hexec]
  refine ⟨decodeRequest_writeMultiple slave addr qty crcLo crcHi hpayload, fun hcount => ?_, fun hcount => ?_⟩
  · obtain ⟨hslice, hrest⟩ := writeAll_fb hfb hlen (by omega)
    exact ⟨_, hslice, hrest, parseFrame_writeMultiple hfb hpayload hcount⟩
  · have hfull : (bytes.take 256).length = 256 := List.length_take_of_le (by omega)
    exact ⟨_, (writeAll_fb hfb hfull le_rfl).1, loadFrame_overflow (by omega)⟩

end Sys2Proof.Machine
end

section
/-! O37, O38, O39 (R87, R96, R100, R152, R153). What the block builds in `fb` and stores in `hb`. A response is a frame
of which each command appends a part; the state after each is again a loaded frame. -/

namespace Sys2Proof.Machine

section

variable {s : State}

/-! ### Normal responses -/

/-- `TX.SEAL` on a frame with room for its CRC. -/
theorem execTxSeal_room {head : List Byte} (hfb : Memory.wf 256 s.fb = true) (h : head.length ≤ 254) :
    execTxSeal ((s.loadedFrame head).answer .ok 0) =
      .next ((s.loadedFrame (head ++ crcBytes (crc16 .modbus head))).answer .ok 0) := by
  have hlen : ((s.loadedFrame head).answer .ok 0).fbLen.toNat = head.length :=
    loadedFrame_len (s := s) (by omega)
  have hframe : ((s.loadedFrame head).answer .ok 0).frame head.length = head := slice_writeAll hfb (by omega)
  have hnext : (s.loadedFrame head).fbLen + 2 =
      BitVec.ofNat 9 (head ++ crcBytes (crc16 .modbus head)).length := by
    rw [List.length_append]
    exact (BitVec.ofNat_add head.length 2).symm
  simp only [execTxSeal, hlen, hframe, Config.fbCap_eq]
  rw [if_neg (by omega), respond_eq, answer_fbLen, hnext, State.loadedFrame, State.loadedFrame, writeAll_append,
    Nat.zero_add]
  rfl

/-- `TX.SEAL` on a frame with no room for its CRC. -/
theorem execTxSeal_full {head : List Byte} (h : 255 ≤ head.length) (h256 : head.length ≤ 256) :
    execTxSeal ((s.loadedFrame head).answer .ok 0) = .next ((s.loadedFrame head).answer .bufferTooSmall 0) := by
  have hlen : ((s.loadedFrame head).answer .ok 0).fbLen.toNat = head.length := loadedFrame_len (s := s) h256
  simp only [execTxSeal, hlen, Config.fbCap_eq]
  rw [if_pos (by omega)]
  rfl

/-- `TX.BEGIN` loads the two head bytes; the pushes of the data and the seal follow (R153). -/
theorem buildResponse_eq (slave func : Byte) (data : List Byte) :
    buildResponse slave func data s =
      seqOk (data.map execFbPush ++ [execTxSeal]) ((s.loadedFrame [slave, func]).answer .ok 0) := by
  have hbegin : execTxBegin slave func s = .next ((s.loadedFrame [slave, func]).answer .ok 0) := rfl
  rw [buildResponse, seqOk_cons hbegin, answer_lastOk, decide_eq_true rfl, if_pos rfl]

/-- `RESP` up to `TX.SEAL`, if head and data fit. -/
theorem buildResponse_of_fits (slave func : Byte) {data : List Byte} (h : data.length ≤ 254) :
    buildResponse slave func data s = execTxSeal ((s.loadedFrame (slave :: func :: data)).answer .ok 0) := by
  rw [buildResponse_eq]
  by_cases hne : data = []
  · subst hne
    exact seqOk_singleton _ _
  · have hlen : ((s.loadedFrame [slave, func]).answer .ok 0).fbLen.toNat = 2 := rfl
    rw [pushes_append (by omega) hne, seqOk_singleton, hlen, Nat.add_comm 2]
    rfl

/-- `RESP` with data that leave room for the CRC (R153). -/
theorem buildResponse_sealed (slave func : Byte) {data : List Byte} (hfb : Memory.wf 256 s.fb = true)
    (h : data.length ≤ 252) :
    let head := slave :: func :: data
    buildResponse slave func data s =
      .next ((s.loadedFrame (head ++ crcBytes (crc16 .modbus head))).answer .ok 0) := by
  intro head
  have hhead : head.length = data.length + 2 := rfl
  rw [buildResponse_of_fits slave func (by omega), execTxSeal_room (head := head) hfb (by omega)]

/-- `RESP` with more data: a push is refused, or with 253 or 254 of them the seal (R131, R151). -/
theorem buildResponse_overflow (slave func : Byte) {data : List Byte} (h : 253 ≤ data.length) :
    buildResponse slave func data s =
      .next ((s.loadedFrame ((slave :: func :: data).take 256)).answer .bufferTooSmall 0) := by
  have hhead : (slave :: func :: data).length = data.length + 2 := rfl
  by_cases hmore : 255 ≤ data.length
  · have hlen : ((s.loadedFrame [slave, func]).answer .ok 0).fbLen.toNat = 2 := rfl
    have hfull : ((slave :: func :: data).take 256).length = 256 := List.length_take_of_le (by omega)
    have hload : s.loadedFrame ((slave :: func :: data).take 256) =
        s.setFrame (Memory.writeAll s.fb 0 ((slave :: func :: data).take 256)) 256#9 := by rw [State.loadedFrame, hfull]
    rw [buildResponse_eq, pushes_overflow (n := 254) (by omega) (by omega) (by omega), hload]
    rfl
  · have hall : (slave :: func :: data).take 256 = slave :: func :: data := List.take_of_length_le (by omega)
    rw [buildResponse_of_fits slave func (by omega), execTxSeal_full (by omega) (by omega), hall]

end

/-- Settles O37: head and data are loaded, and what is left of the buffer decides how the frame ends. -/
theorem normalResponseIsBuilt : Obligations.NormalResponseIsBuilt := by
  unfold Obligations.NormalResponseIsBuilt
  intro s slave func data crcLo crcHi hwf i head k
  obtain ⟨hfb, -, -⟩ := (wf_iff s).1 hwf
  have hexec : exec i s = buildResponse slave func data s := rfl
  have hcrc : [BitVec.ofNat 8 k, BitVec.ofNat 8 (k / 256)] = crcBytes (crc16 .modbus head) := by
    rw [ofNat_toNat_div_eq_hi8, ofNat_toNat_eq_lo8]
    rfl
  rw [hexec, hcrc]
  refine ⟨decodeNormalResponse_bytes slave func data crcLo crcHi, fun hfits => ?_, fun hlong => ?_⟩
  · have hlen : (head ++ crcBytes (crc16 .modbus head)).length = data.length + 4 := List.length_append
    obtain ⟨hslice, hrest⟩ := writeAll_fb hfb hlen (by omega)
    refine ⟨_, hslice, fun hwell => ?_, hrest, ?_⟩
    · have hown : [crcLo, crcHi] = crcBytes (crc16 .modbus head) := of_decide_eq_true (Bool.and_eq_true_iff.1 hwell).2
      rw [hown, hslice]
    · rw [buildResponse_sealed slave func hfb hfits, State.loadedFrame, hlen]
      rfl
  · have hlen : (head.take 256).length = min (data.length + 2) 256 := List.length_take.trans (Nat.min_comm _ _)
    obtain ⟨hslice, hrest⟩ := writeAll_fb hfb hlen (by omega)
    refine ⟨_, hslice, fun a ha => hrest a (by omega), ?_⟩
    rw [buildResponse_overflow slave func hlong, State.loadedFrame, hlen]
    rfl

/-! ### Exception responses -/

/-- The function code of an exception response: bit 7 set by the builder, by the layout and by addition (R96, R152). -/
theorem exceptionCode_eq (func : BitVec 7) :
    (0#1 ++ func) ||| 0x80#8 = 1#1 ++ func ∧ BitVec.ofNat 8 (128 + func.toNat) = 1#1 ++ func := by
  revert func
  decide

/-- Settles O38: `TX.EXC` writes the three bytes of the layout and their CRC. -/
theorem exceptionResponseIsBuilt : Obligations.ExceptionResponseIsBuilt := by
  unfold Obligations.ExceptionResponseIsBuilt
  intro s slave func code crcLo crcHi hwf
  obtain ⟨hfb, -, -⟩ := (wf_iff s).1 hwf
  obtain ⟨hbuilt, hspelt⟩ := exceptionCode_eq func
  simp only [ofNat_toNat_div_eq_hi8, ofNat_toNat_eq_lo8, hspelt]
  let head := [slave, 1#1 ++ func, code]
  have hframe : exceptionFrame slave (0#1 ++ func) code = head ++ crcBytes (crc16 .modbus head) := by
    rw [exceptionFrame, Config.excFlag_eq, hbuilt]
  have hlen : (head ++ crcBytes (crc16 .modbus head)).length = 5 := rfl
  obtain ⟨hslice, hrest⟩ := writeAll_fb hfb hlen (by decide)
  refine ⟨decodeExceptionResponse_bytes slave func code crcLo crcHi, _, hslice, fun hwell => ?_, hrest, ?_⟩
  · have hown : [crcLo, crcHi] = crcBytes (crc16 .modbus head) := of_decide_eq_true hwell
    rw [hown]
    exact hslice
  · rw [← hframe]
    rfl

/-! ### Header images -/

/-- Any fourteen bytes are a header image (R100). -/
theorem exists_decodeImage {bytes : List Byte} (h : bytes.length = 14) :
    ∃ size off time crc, decodeImage bytes = .ok (.headerImage size off time crc) := by
  match bytes, h with
  | [_, _, _, _, _, _, _, _, _, _, _, _, _, _], _ => exact ⟨_, _, _, _, rfl⟩

/-- Settles O39: by the codec's inverse law the fourteen `HB.WR` write the bytes that were presented. -/
theorem headerImageIsStored : Obligations.HeaderImageIsStored := by
  unfold Obligations.HeaderImageIsStored
  intro s b hwf
  obtain ⟨-, hhb, -⟩ := (wf_iff s).1 hwf
  have hlen : ((List.finRange 14).map b).length = 14 := by rw [List.length_map, List.length_finRange]
  obtain ⟨size, off, time, crc, hdecode⟩ := exists_decodeImage hlen
  have hbytes : imageBytes size off time crc = (List.finRange 14).map b :=
    Input.image.inj (encode_of_decodeImage hdecode)
  generalize (List.finRange 14).map b = bytes at *
  have hexec : exec (.headerImage size off time crc) s = loadImage (imageBytes size off time crc) s := rfl
  have hne : bytes ≠ [] := List.ne_nil_of_length_pos (by omega)
  refine ⟨_, hdecode, ⟨size, off, time, crc, rfl⟩, Memory.writeAll s.hb 0 bytes, ?_, ?_, fun a ha => ?_⟩
  · rw [hexec, hbytes, loadImage, hbWrites_then (by omega) hne]
    rfl
  · rw [← hlen]
    exact slice_writeAll hhb (by omega)
  · exact read_writeAll_outside hhb (by omega) (.inr (by omega))

end Sys2Proof.Machine
end

section
/-! O9, O10, O11, O12 (R114 to R119). The checksum as a function: a byte with which one half of the register is zeroed
turns a step into a plain shift, from which the residue follows. The CRC unit: its two commands, and why no other
command disturbs it, read off the footprints. -/

namespace Sys2Proof.Machine

/-! ### Checksums of concatenations -/

theorem crcFrom_append (alg : CrcAlg) (r : Word16) (bs cs : List Byte) :
    crcFrom alg r (bs ++ cs) = crcFrom alg (crcFrom alg r bs) cs :=
  List.foldl_append

theorem crc16_append_pair (alg : CrcAlg) (bs : List Byte) (b c : Byte) :
    crc16 alg (bs ++ [b, c]) = crcStep alg (crcStep alg (crc16 alg bs) b) c :=
  crcFrom_append alg _ bs [b, c]

/-! ### Rounds that shift out zeros only -/

/-- With the low `n` bits zero, no round xors the constant in. -/
theorem modbusShift_eq_ushiftRight {n : Nat} {r : Word16} (h : ∀ i < n, r.getLsbD i = false) :
    modbusShift n r = r >>> n := by
  induction n generalizing r with
  | zero => simp [modbusShift]
  | succ n ih =>
    have hrest : ∀ i < n, (r >>> 1).getLsbD i = false := fun i hi => by
      rw [BitVec.getLsbD_ushiftRight]
      exact h (1 + i) (by omega)
    rw [modbusShift, h 0 (by omega), if_neg Bool.false_ne_true, ih hrest, ← BitVec.shiftRight_add, Nat.add_comm]

/-- With the high `n` bits zero, no round xors the constant in. -/
theorem ccittShift_eq_shiftLeft {n : Nat} {r : Word16} (hn : n ≤ 16) (h : ∀ i < n, r.getLsbD (15 - i) = false) :
    ccittShift n r = r <<< n := by
  induction n generalizing r with
  | zero => simp [ccittShift]
  | succ n ih =>
    have hrest : ∀ i < n, (r <<< 1).getLsbD (15 - i) = false := fun i hi => by
      rw [BitVec.getLsbD_shiftLeft, show 15 - i - 1 = 15 - (i + 1) by omega, h (i + 1) (by omega), Bool.and_false]
    rw [ccittShift, h 0 (by omega), if_neg Bool.false_ne_true, ih (by omega) hrest, ← BitVec.shiftLeft_add,
      Nat.add_comm]

/-! ### The residue (R119) -/

/-- A step with the register's own low byte clears it, so that the high byte moves down. -/
theorem modbusStep_lo8 (r : Word16) : modbusStep r (lo8 r) = (hi8 r).setWidth 16 := by
  have hlow : ∀ i < 8, (r ^^^ (lo8 r).setWidth 16).getLsbD i = false := fun i hi => by
    simp [lo8, hi, show i < 16 by omega]
  rw [modbusStep, modbusShift_eq_ushiftRight hlow]
  apply BitVec.eq_of_getLsbD_eq
  intro i hi
  by_cases h8 : i < 8
  · simp [hi8, hi, h8]
  · simp [hi8, hi, h8, show 16 ≤ 8 + i by omega]

theorem modbusStep_self (b : Byte) : modbusStep (b.setWidth 16) b = 0 := by
  rw [modbusStep, BitVec.xor_self]
  rfl

/-- A step with the register's own high byte clears it, so that the low byte moves up. -/
theorem ccittStep_hi8 (r : Word16) : ccittStep r (hi8 r) = (lo8 r).setWidth 16 <<< 8 := by
  have hhigh : ∀ i < 8, (r ^^^ (hi8 r).setWidth 16 <<< 8).getLsbD (15 - i) = false := fun i hi => by
    simp [hi8, show ¬ 15 - i < 8 by omega, show 15 - i - 8 < 8 by omega, show 8 + (15 - i - 8) = 15 - i by omega,
      show 15 - i < 16 by omega]
  rw [ccittStep, ccittShift_eq_shiftLeft (by omega) hhigh]
  apply BitVec.eq_of_getLsbD_eq
  intro i hi
  by_cases h8 : i < 8
  · simp [h8]
  · simp [lo8, hi8, hi, h8, show i - 8 < 8 by omega, show i - 8 < 16 by omega]

theorem ccittStep_self (b : Byte) : ccittStep (b.setWidth 16 <<< 8) b = 0 := by
  rw [ccittStep, BitVec.xor_self]
  rfl

/-- Settles O12: the first checksum byte clears its half of the register and moves the other half there, where the
second byte clears it. -/
theorem messageWithItsChecksumChecksToZero : Obligations.MessageWithItsChecksumChecksToZero := by
  unfold Obligations.MessageWithItsChecksumChecksToZero
  refine ⟨fun bs => ?_, fun bs => ?_⟩ <;>
    rw [ofNat_toNat_eq_lo8, ofNat_toNat_div_eq_hi8, crc16_append_pair, crcStep, crcStep]
  · rw [modbusStep_lo8, modbusStep_self]
  · rw [ccittStep_hi8, ccittStep_self]

/-! ### The two commands (R116, R117) -/

/-- The word of a command whose one operand is `c` (formats C and I, R82), as the spec writes it. -/
theorem or_setWidth_eq_packCw (op c : Byte) : op.setWidth 32 <<< 24 ||| c.setWidth 32 = packCw op 0 0 c := by
  apply BitVec.eq_of_getLsbD_eq
  intro i hi
  rw [packCw_getLsbD, BitVec.getLsbD_or, BitVec.getLsbD_shiftLeft, BitVec.getLsbD_setWidth, BitVec.getLsbD_setWidth]
  by_cases h8 : i < 8
  · simp [h8, hi, show i < 24 by omega]
  · rw [BitVec.getLsbD_of_ge c i (by omega)]
    by_cases h24 : i < 24
    · simp [h8, h24]
    · simp [h8, h24, hi, show ¬ i < 16 by omega, show i - 24 < 32 by omega]

theorem ofNat_toNat_eq_bit (b : Byte) : BitVec.ofNat 1 b.toNat = b.extractLsb' 0 1 := by
  apply BitVec.eq_of_toNat_eq
  rw [BitVec.extractLsb'_toNat, BitVec.toNat_ofNat, Nat.shiftRight_zero]

theorem crcStep_algOfBit (a : BitVec 1) (r : Word16) (b : Byte) :
    crcStep (algOfBit a) r b = if a = 0 then ccittStep r b else modbusStep r b :=
  apply_ite (crcStep · r b) (a = 0#1) .ccittFalse .modbus

theorem exec_crcInit_of_le {alg : Byte} (h : alg.toNat ≤ 1) (s : State) : exec (.crcInit alg) s =
    .next ({ s with crcAlg := BitVec.ofNat 1 alg.toNat, crc := 0xFFFF }.answer .ok 0) := by
  rw [ofNat_toNat_eq_bit]
  exact if_neg (by omega)

theorem exec_crcInit_of_gt {alg : Byte} (h : 1 < alg.toNat) (s : State) :
    exec (.crcInit alg) s = .next (s.answer .badCommand 0) :=
  if_pos h

theorem exec_crcUpd (b : Byte) (s : State) :
    exec (.crcUpd b) s = .next ({ s with crc := crcStep (algOfBit s.crcAlg) s.crc b }.answer .ok 0) := rfl

/-- Settles O9: the two branches of `CRC.INIT`, and its word as the encoder writes it. -/
theorem crcInitRestartsTheChecksum : Obligations.CrcInitRestartsTheChecksum := by
  unfold Obligations.CrcInitRestartsTheChecksum
  refine ⟨fun alg => ?_, fun s alg => ⟨fun h => exec_crcInit_of_le h s, fun h => exec_crcInit_of_gt h s⟩⟩
  rw [show 0x10000000#32 = (0x10#8).setWidth 32 <<< 24 from rfl, or_setWidth_eq_packCw]
  exact decode_encode (i := .crcInit alg) rfl

/-- Settles O10: one step of the selected algorithm, and the rule's own values of the two steps. -/
theorem crcUpdStepsTheChecksum : Obligations.CrcUpdStepsTheChecksum := by
  unfold Obligations.CrcUpdStepsTheChecksum
  refine ⟨fun b => ?_, fun s b => ?_, by decide, by decide, by decide⟩
  · rw [show 0x11000000#32 = (0x11#8).setWidth 32 <<< 24 from rfl, or_setWidth_eq_packCw]
    exact decode_encode (i := .crcUpd b) rfl
  · rw [exec_crcUpd, crcStep_algOfBit]
    rfl

/-! ### Runs without `CRC.INIT` and `SYS.RESET` (R118) -/

section

variable {i : Instr} {is : List Instr} {s t : State}

theorem updBytes_cons_of_ne (h : ∀ b, i ≠ .crcUpd b) : updBytes (i :: is) = updBytes is := by
  rw [updBytes]
  exact h

theorem exists_exec_of_execAll (h : execAll (i :: is) s = .next t) :
    ∃ u, exec i s = .next u ∧ execAll is u = .next t := by
  rw [execAll] at h
  split at h
  next u hexec => exact ⟨u, hexec, h⟩
  next => cases h
  next => cases h

/-- The byte formats write the frame, the request and the image only (R87). -/
theorem writes_subset_of_format (h : isCommand i = false) : writes i ⊆ [.fbLen, .fb, .rKind, .request, .hb] := by
  cases i with
  | reqReadHolding | reqReadInput | reqWriteSingle | reqWriteMultiple | respNormal | respException | headerImage =>
    simp [writes, parseWrites]
  | _ => cases h

/-- The two registers of the CRC unit are written by the commands that the register table lists (R25, R26), and by no
byte format. -/
theorem listed_of_mem_writes_crcUnit {p : Part} (hp : p = .crc ∨ p = .crcAlg) (hreset : i ≠ .sysReset)
    (h : p ∈ writes i) : Listed p i := by
  cases hcommand : isCommand i with
  | true => exact listed_of_mem_writes hcommand hreset p h
  | false =>
    have hformat := writes_subset_of_format hcommand h
    rcases hp with rfl | rfl <;> simp at hformat

theorem exec_keeps_crcAlg (hreset : i ≠ .sysReset) (hinit : ∀ alg, i ≠ .crcInit alg) (h : exec i s = .next t) :
    t.crcAlg = s.crcAlg :=
  exec_unchanged i s t h .crcAlg fun hmem =>
    have ⟨alg, he⟩ := listed_of_mem_writes_crcUnit (.inr rfl) hreset hmem
    hinit alg he

theorem exec_keeps_crc (hreset : i ≠ .sysReset) (hinit : ∀ alg, i ≠ .crcInit alg) (hupd : ∀ b, i ≠ .crcUpd b)
    (h : exec i s = .next t) : t.crc = s.crc :=
  exec_unchanged i s t h .crc fun hmem =>
    match listed_of_mem_writes_crcUnit (.inl rfl) hreset hmem with
    | .inl ⟨alg, he⟩ => hinit alg he
    | .inr ⟨b, he⟩ => hupd b he

/-- One command adds its `CRC.UPD` byte, if it has one, to the checksum. -/
theorem crcFrom_updBytes_cons (hreset : i ≠ .sysReset) (hinit : ∀ alg, i ≠ .crcInit alg) (h : exec i s = .next t) :
    crcFrom (algOfBit s.crcAlg) t.crc (updBytes is) = crcFrom (algOfBit s.crcAlg) s.crc (updBytes (i :: is)) := by
  by_cases hupd : ∃ b, i = .crcUpd b
  · obtain ⟨b, rfl⟩ := hupd
    rw [exec_crcUpd] at h
    cases h
    rfl
  · have hne : ∀ b, i ≠ .crcUpd b := fun b hb => hupd ⟨b, hb⟩
    rw [exec_keeps_crc hreset hinit hne h, updBytes_cons_of_ne hne]

end

/-- Settles O11, by induction on the commands: each one leaves `CRC_ALG` and adds its byte to the checksum. -/
theorem otherUnitsDoNotDisturbTheChecksum : Obligations.OtherUnitsDoNotDisturbTheChecksum := by
  unfold Obligations.OtherUnitsDoNotDisturbTheChecksum
  intro is
  induction is with
  | nil =>
    intro s t _ h
    cases h
    exact ⟨rfl, rfl⟩
  | cons i is ih =>
    intro s t hallowed h
    obtain ⟨⟨hreset, hinit⟩, hrest⟩ := List.forall_mem_cons.1 hallowed
    obtain ⟨u, hexec, hrun⟩ := exists_exec_of_execAll h
    have halg : u.crcAlg = s.crcAlg := exec_keeps_crcAlg hreset hinit hexec
    obtain ⟨htalg, htcrc⟩ := ih u t hrest hrun
    refine ⟨htalg.trans halg, ?_⟩
    rw [htcrc, halg, crcFrom_updBytes_cons hreset hinit hexec]

end Sys2Proof.Machine
end

section
/-! O13, O14, O15, O16 (R130 to R134). The receive side, one command at a time. `RX.PARSE` is put together from three
equations: the frame too short, the checks of a frame that fits, and the function code. -/

namespace Sys2Proof.Machine

/-- A word written as the spec writes it, its opcode and one operand `c` (formats C and I, R82), decodes to the
instruction whose encoding has these two fields. -/
theorem decode_or_setWidth {i : Instr} {op c : Byte} (hwell : i.wellFormed = true)
    (hencode : encode i = .command (packCw op 0 0 c) 0) :
    decode (.command (op.setWidth 32 <<< 24 ||| c.setWidth 32) 0) = .ok i := by
  rw [or_setWidth_eq_packCw, ← hencode, decode_encode hwell]

section

variable {s : State}

/-! ### The buffer (R130 to R132) -/

theorem exec_fbClr (s : State) : exec .fbClr s = .next ((s.setFrame s.fb 0).answer .ok 0) := rfl

theorem exec_fbPush_of_lt (b : Byte) (h : s.fbLen.toNat < 256) :
    exec (.fbPush b) s =
      .next ((s.setFrame (Memory.write s.fb s.fbLen.toNat b) (BitVec.ofNat 9 (s.fbLen.toNat + 1))).answer .ok 0) := by
  have hlen : BitVec.ofNat 9 (s.fbLen.toNat + 1) = s.fbLen + 1 := by
    rw [BitVec.ofNat_add, BitVec.ofNat_toNat, BitVec.setWidth_eq]
    rfl
  rw [hlen]
  exact execFbPush_room b h

theorem exec_fbRd_of_le {i : Byte} (h : s.fbLen.toNat ≤ i.toNat) :
    exec (.fbRd i) s = .next (s.answer .badCommand 0) :=
  if_pos h

theorem exec_fbRd_of_lt {i : Byte} (h : i.toNat < s.fbLen.toNat) :
    exec (.fbRd i) s = .next (s.answer .ok ((Memory.read s.fb i.toNat).setWidth 32)) :=
  if_neg (Nat.not_le.2 h)

/-! ### The parser (R134) -/

theorem join16_eq_ofNat (hi lo : Byte) : join16 hi lo = BitVec.ofNat 16 (256 * hi.toNat + lo.toNat) := by
  have hhi := hi.isLt
  have hlo := lo.isLt
  apply BitVec.eq_of_toNat_eq
  rw [BitVec.toNat_ofNat, Nat.mod_eq_of_lt (by omega), join16]
  refine (BitVec.toNat_append hi lo).trans ?_
  rw [← Nat.shiftLeft_add_eq_or_of_lt hlo, Nat.shiftLeft_eq, Nat.mul_comm]

theorem execRxParse_of_short (h : s.fbLen.toNat < 8) :
    execRxParse s = .next ({ s with rKind := 0 }.answer .invalidLength 0) :=
  if_pos h

theorem frameCrcOk_not_iff (s : State) (n : Nat) : ¬ s.frameCrcOk n = true ↔
    Memory.read s.fb (n - 2) ≠ lo8 (crc16 .modbus (Memory.slice s.fb 0 (n - 2))) ∨
      Memory.read s.fb (n - 1) ≠ hi8 (crc16 .modbus (Memory.slice s.fb 0 (n - 2))) :=
  (not_congr (frameCrcOk_iff s n)).trans not_and_or

/-- The function code by its value, the two length checks of 0x10 as one. -/
theorem dispatchFunction_eq (len : Nat) (s : State) :
    dispatchFunction len s =
      if Memory.read s.fb 1 = 0x03 then acceptRequest 1 0 s
      else if Memory.read s.fb 1 = 0x04 then acceptRequest 2 0 s
      else if Memory.read s.fb 1 = 0x06 then acceptRequest 3 0 s
      else if Memory.read s.fb 1 = 0x10 then
        if len = 9 + (Memory.read s.fb 6).toNat then acceptRequest 4 (Memory.read s.fb 6) s
        else raise .invalidLength s
      else raiseException 1 s := by
  split_ifs with h3 h4 h6 h16 hcount
  · exact dispatchFunction_eightBytes len h3 (by decide)
  · exact dispatchFunction_eightBytes len h4 (by decide)
  · exact dispatchFunction_eightBytes len h6 (by decide)
  · exact dispatchFunction_writeMultiple h16 rfl hcount
  · rw [dispatchFunction, h16]
    exact (ite_congr rfl (fun _ => rfl) fun _ => if_pos hcount).trans (ite_self _)
  · unfold dispatchFunction
    split
    next h => exact absurd (BitVec.eq_of_toNat_eq h) h3
    next h => exact absurd (BitVec.eq_of_toNat_eq h) h4
    next h => exact absurd (BitVec.eq_of_toNat_eq h) h6
    next h => exact absurd (BitVec.eq_of_toNat_eq h) h16
    next => rfl

end

/-- Settles O13: `FB.CLR` by its equation. -/
theorem fbClrClearsTheLength : Obligations.FbClrClearsTheLength := by
  unfold Obligations.FbClrClearsTheLength
  exact ⟨decode_encode (i := .fbClr) rfl, exec_fbClr⟩

/-- Settles O14: a full buffer refuses the byte, any other takes it at its end. -/
theorem fbPushAppendsOneByte : Obligations.FbPushAppendsOneByte := by
  unfold Obligations.FbPushAppendsOneByte
  refine ⟨fun b => decode_or_setWidth (i := .fbPush b) (op := 0x21) rfl rfl, fun s b hfull => ?_, fun s b hwf h => ?_⟩
  · exact execFbPush_full b (congrArg BitVec.toNat hfull)
  · obtain ⟨hfb, -, -⟩ := (wf_iff s).1 hwf
    exact ⟨_, exec_fbPush_of_lt b h, fun _ => read_write hfb⟩

/-- Settles O15: the two branches of `FB.RD`. -/
theorem fbRdAnswersTheByte : Obligations.FbRdAnswersTheByte := by
  unfold Obligations.FbRdAnswersTheByte
  exact ⟨fun i => decode_or_setWidth (i := .fbRd i) (op := 0x22) rfl rfl,
    fun _ _ => ⟨exec_fbRd_of_le, exec_fbRd_of_lt⟩⟩

/-- Settles O16: a short frame, then the checks of slave address and CRC, then the function code, each outcome's writes
being those of its equation. -/
theorem rxParseDecodesTheRequest : Obligations.RxParseDecodesTheRequest := by
  unfold Obligations.RxParseDecodesTheRequest
  refine ⟨decode_encode (i := .rxParse) rfl, fun s h256 => ?_⟩
  have hexec : exec .rxParse s = execRxParse s := rfl
  simp only [hexec, ofNat_toNat_eq_lo8, ofNat_toNat_div_eq_hi8, ← join16_eq_ofNat]
  by_cases hshort : s.fbLen.toNat < 8
  · rw [if_pos hshort, execRxParse_of_short hshort]
    rfl
  rw [if_neg hshort, execRxParse_of_len (Nat.not_lt.1 hshort) h256, dispatchFunction_eq]
  simp only [apply_ite Host.Outcome.next]
  refine ite_congr rfl (fun _ => rfl) fun _ => ?_
  rw [← ite_not]
  exact ite_congr (propext (frameCrcOk_not_iff s _)) (fun _ => rfl) fun _ => rfl

end Sys2Proof.Machine
end

section
/-! O18, O19, O20, O40 (R150 to R154). The transmit side, one command at a time, and the round trip: a frame that
`RESP` builds is a loaded frame, and so `RX.PARSE` finds in it what `PARSE` of the same bytes does. -/

namespace Sys2Proof.Machine

/-! ### Words with several operands -/

/-- The four fields of a command word, each shifted to its place (R81). -/
theorem or_fields_eq_packCw (op a b c : Byte) :
    op.setWidth 32 <<< 24 ||| a.setWidth 32 <<< 16 ||| b.setWidth 32 <<< 8 ||| c.setWidth 32 = packCw op a b c := by
  apply BitVec.eq_of_getLsbD_eq
  intro i hi
  simp only [packCw_getLsbD, BitVec.getLsbD_or, BitVec.getLsbD_shiftLeft, BitVec.getLsbD_setWidth]
  by_cases h8 : i < 8
  · simp [h8, hi, show i < 16 by omega, show i < 24 by omega]
  rw [BitVec.getLsbD_of_ge c i (by omega)]
  by_cases h16 : i < 16
  · simp [h8, h16, hi, show i < 24 by omega, show i - 8 < 32 by omega]
  rw [BitVec.getLsbD_of_ge b (i - 8) (by omega)]
  by_cases h24 : i < 24
  · simp [h8, h16, h24, hi, show i - 16 < 32 by omega]
  rw [BitVec.getLsbD_of_ge a (i - 16) (by omega)]
  simp [h8, h16, h24, hi, show i - 24 < 32 by omega]

/-- A word written as its opcode and three operands (format ABC, R82) decodes to the instruction whose encoding has
these fields. -/
theorem decode_or_fields {i : Instr} {op a b c : Byte} (hwell : i.wellFormed = true)
    (hencode : encode i = .command (packCw op a b c) 0) :
    decode (.command
      (op.setWidth 32 <<< 24 ||| a.setWidth 32 <<< 16 ||| b.setWidth 32 <<< 8 ||| c.setWidth 32) 0) = .ok i := by
  rw [or_fields_eq_packCw, ← hencode, decode_encode hwell]

/-- What a space reads after two bytes are written side by side. -/
theorem read_writeAll_pair {size a x : Nat} {m : Memory} {b c : Byte} (hm : Memory.wf size m = true) (ha : a < size) :
    Memory.read (Memory.writeAll m a [b, c]) x = if x = a then b else if x = a + 1 then c else Memory.read m x := by
  rw [Memory.writeAll, Memory.writeAll, Memory.writeAll, read_write (write_wf hm ha), read_write hm]
  by_cases hx : x = a
  · rw [if_neg (by omega), if_pos hx, if_pos hx]
  · rw [if_neg hx, if_neg hx]

section

variable {s : State}

/-! ### The three commands (R150 to R152) -/

theorem exec_txBegin (slave func : Byte) (s : State) :
    exec (.txBegin slave func) s = .next ((s.setFrame (Memory.writeAll s.fb 0 [slave, func]) 2).answer .ok 0) := rfl

theorem exec_txSeal_of_ge (h : 255 ≤ s.fbLen.toNat) : exec .txSeal s = .next (s.answer .bufferTooSmall 0) :=
  if_pos (Nat.lt_succ_of_le (Nat.succ_le_succ h))

theorem exec_txSeal_of_le (h : s.fbLen.toNat ≤ 254) :
    exec .txSeal s =
      .next ((s.setFrame (Memory.writeAll s.fb s.fbLen.toNat (crcBytes (crc16 .modbus (s.frame s.fbLen.toNat))))
        (BitVec.ofNat 9 (s.fbLen.toNat + 2))).answer .ok 0) := by
  have hlen : BitVec.ofNat 9 (s.fbLen.toNat + 2) = s.fbLen + 2 := by
    rw [BitVec.ofNat_add, BitVec.ofNat_toNat, BitVec.setWidth_eq]
    rfl
  rw [hlen]
  exact if_neg (Nat.not_lt.2 (Nat.add_le_add_right h 2))

theorem exec_txExc (slave func code : Byte) (s : State) :
    exec (.txExc slave func code) s =
      .next ((s.setFrame (Memory.writeAll s.fb 0 (exceptionFrame slave func code)) 5).answer .ok 0) := rfl

/-! ### A built request, parsed (R154) -/

/-- What function code and data of a response must be for its frame to be a request that the parser accepts: nothing
after the four bytes of address and quantity, or for 0x10 a byte count and that many bytes, as far as the buffer
holds them. -/
def SpellsRequest (func : Byte) (tail : List Byte) : Prop :=
  ((func = 0x03 ∨ func = 0x04 ∨ func = 0x06) ∧ tail = []) ∨
    (func = 0x10 ∧ ∃ n : Byte, ∃ p : List Byte, tail = n :: p ∧ p.length = n.toNat ∧ n.toNat ≤ 247)

/-- `R_KIND` of a request with an accepted function code (R29). -/
def kindOf (func : Byte) : BitVec 3 :=
  if func = 0x03 then 1 else if func = 0x04 then 2 else if func = 0x06 then 3 else 4

theorem SpellsRequest.length_le {func : Byte} {tail : List Byte} (h : SpellsRequest func tail) :
    tail.length ≤ 248 := by
  obtain ⟨-, rfl⟩ | ⟨-, n, p, rfl, hp, hn⟩ := h
  · exact Nat.zero_le _
  · rw [List.length_cons]
    omega

/-- The function code accepts the frame of such a request, with the byte count that its data carry. -/
theorem SpellsRequest.dispatchFunction_eq {slave func : Byte} {addr qty : Word16} {tail : List Byte}
    {crcLo crcHi : Byte} {t : State} (h : SpellsRequest func tail) (hfb : Memory.wf 256 s.fb = true)
    (ht : t.fb = Memory.writeAll s.fb 0 (requestBytes slave func addr qty (tail ++ [crcLo, crcHi]))) :
    dispatchFunction (tail.length + 8) t = acceptRequest (kindOf func) (tail.headD 0) t := by
  have htail : (tail ++ [crcLo, crcHi]).length = tail.length + 2 := List.length_append
  have hle := h.length_le
  have hread {i : Nat} (hi : i < tail.length + 8) :
      Memory.read t.fb i = (requestBytes slave func addr qty (tail ++ [crcLo, crcHi])).getD i 0#8 := by
    rw [ht, read_request hfb (by omega) (by omega)]
  have hfunc : Memory.read t.fb 1 = func := hread (by omega)
  obtain ⟨hcode, rfl⟩ | ⟨rfl, n, p, rfl, hp, -⟩ := h
  · refine dispatchFunction_eightBytes _ hfunc ?_
    obtain rfl | rfl | rfl := hcode
    · decide
    · decide
    · decide
  · refine dispatchFunction_writeMultiple (count := n) hfunc (hread (by omega)) ?_
    rw [List.length_cons]
    omega

/-- The state after a request's bytes and their CRC have been put into `fb` and a command has answered `Ok`. -/
def State.sealedRequest (s : State) (slave func : Byte) (addr qty : Word16) (tail : List Byte) : State :=
  let head := requestBytes slave func addr qty tail
  (s.loadedFrame (head ++ crcBytes (crc16 .modbus head))).answer .ok 0

/-- `RESP` builds it. -/
theorem buildResponse_request (slave func a1 a0 q1 q0 : Byte) {tail : List Byte} (hfb : Memory.wf 256 s.fb = true)
    (h : tail.length ≤ 248) :
    buildResponse slave func (a1 :: a0 :: q1 :: q0 :: tail) s =
      .next (s.sealedRequest slave func (join16 a1 a0) (join16 q1 q0) tail) := by
  have hlen : (a1 :: a0 :: q1 :: q0 :: tail).length = tail.length + 4 := rfl
  rw [State.sealedRequest, requestBytes_join16, buildResponse_sealed slave func hfb (by omega)]

/-- `RX.PARSE` of it answers as `PARSE` of the same bytes: every check passes. -/
theorem execRxParse_sealedRequest {slave func : Byte} {addr qty : Word16} {tail : List Byte}
    (hfb : Memory.wf 256 s.fb = true) (hslave : slave = s.slaveAddr ∨ slave = 0) (h : SpellsRequest func tail) :
    execRxParse (s.sealedRequest slave func addr qty tail) = .next
      ({ s.sealedRequest slave func addr qty tail with
        rSlave := slave, rFunc := func, rAddr := addr, rQty := qty, rBc := tail.headD 0,
        rKind := kindOf func }.answer .ok 0) := by
  let k := crc16 .modbus (requestBytes slave func addr qty tail)
  have hbytes : requestBytes slave func addr qty (tail ++ crcBytes k) =
      requestBytes slave func addr qty tail ++ crcBytes k := by simp [requestBytes]
  have hlen := requestBytes_length slave func addr qty (tail ++ crcBytes k)
  have htail : (tail ++ crcBytes k).length = tail.length + 2 := List.length_append
  have hle := h.length_le
  have hparse := parseFrame_request (s := s) hfb hle fun t ht =>
    h.dispatchFunction_eq (slave := slave) (addr := addr) (qty := qty) (crcLo := lo8 k) (crcHi := hi8 k) hfb ht
  calc execRxParse (s.sealedRequest slave func addr qty tail)
    _ = parseFrame (requestBytes slave func addr qty (tail ++ crcBytes k)) s := by
      rw [parseFrame_of_length (List.ne_nil_of_length_pos (by omega)) (by omega), hbytes]
      rfl
    _ = _ := by
      refine hparse.trans ?_
      rw [if_neg (by tauto), if_neg (by simp [k]), State.sealedRequest, ← hbytes]
      rfl

end

/-- Settles O18: the two head bytes are a pair written at the start. -/
theorem txBeginStartsTheFrame : Obligations.TxBeginStartsTheFrame := by
  unfold Obligations.TxBeginStartsTheFrame
  refine ⟨fun slave func => ?_, fun s slave func hwf => ?_⟩
  · have hword := decode_or_fields (i := .txBegin slave func) (op := 0x28) (a := slave) (b := func) (c := 0#8) rfl rfl
    rwa [BitVec.setWidth_zero, BitVec.or_zero] at hword
  · obtain ⟨hfb, -, -⟩ := (wf_iff s).1 hwf
    exact ⟨_, exec_txBegin slave func s, fun _ => read_writeAll_pair hfb (by decide)⟩

/-- Settles O19: with no room nothing is written, and with room the CRC is a pair written at the frame's end. -/
theorem txSealAppendsTheChecksum : Obligations.TxSealAppendsTheChecksum := by
  unfold Obligations.TxSealAppendsTheChecksum
  refine ⟨decode_encode (i := .txSeal) rfl, fun s hfull => exec_txSeal_of_ge hfull, fun s hwf hroom => ?_⟩
  obtain ⟨hfb, -, -⟩ := (wf_iff s).1 hwf
  simp only [ofNat_toNat_div_eq_hi8, ofNat_toNat_eq_lo8]
  exact ⟨_, exec_txSeal_of_le hroom, fun _ => read_writeAll_pair hfb (by omega)⟩

/-- Settles O20: the frame of R96 is written at the start. -/
theorem txExcBuildsTheExceptionFrame : Obligations.TxExcBuildsTheExceptionFrame := by
  unfold Obligations.TxExcBuildsTheExceptionFrame
  refine ⟨fun slave func code => decode_or_fields (i := .txExc slave func code) (op := 0x2A) rfl rfl,
    fun s slave func code hwf => ?_, by decide⟩
  obtain ⟨hfb, -, -⟩ := (wf_iff s).1 hwf
  have hlen : (exceptionFrame slave func code).length = 5 := rfl
  obtain ⟨hslice, hrest⟩ := writeAll_fb hfb hlen (by decide)
  simp only [ofNat_toNat_div_eq_hi8, ofNat_toNat_eq_lo8]
  exact ⟨_, exec_txExc slave func code s, hslice, hrest⟩

/-- Settles O40: `RESP` leaves a sealed request in `fb`, and the parser takes it apart into the fields it was made
of. -/
theorem builtFramesParse : Obligations.BuiltFramesParse := by
  unfold Obligations.BuiltFramesParse
  intro s slave func a1 a0 q1 q0 tail crcLo crcHi hwf hslave hspells
  obtain ⟨hfb, -, -⟩ := (wf_iff s).1 hwf
  have hbuild : exec (.respNormal slave func (a1 :: a0 :: q1 :: q0 :: tail) crcLo crcHi) s =
      buildResponse slave func (a1 :: a0 :: q1 :: q0 :: tail) s := rfl
  have hparse (t : State) : exec .rxParse t = execRxParse t := rfl
  refine ⟨_, _, hbuild.trans (buildResponse_request slave func a1 a0 q1 q0 hfb (SpellsRequest.length_le hspells)),
    (hparse _).trans (execRxParse_sealedRequest hfb hslave hspells), rfl⟩

end Sys2Proof.Machine
end

section
/-! O21 to O25 (R165 to R173). The image: what `hdr_encode` writes, `hdr_decode` reads back, and the four commands that
touch `hb`. The preconditions of R168 are put in the words of the statements here, for every header command. -/

namespace Sys2Proof.Machine

section

variable {s : State} {k : State → Out}

/-! ### Preconditions (R168) -/

theorem requireConfigured_eq_ite (k : State → Out) (s : State) :
    requireConfigured k s =
      if s.capacity = 0 ∨ s.elementSize = 0 then .next (s.answer .uninitialized 0) else k s := by
  simp only [requireConfigured, configured_iff, raise_eq]
  rw [← ite_not]
  exact ite_congr (propext (by tauto)) (fun _ => rfl) fun _ => rfl

theorem not_notReady_iff (s : State) : ¬ s.notReady ↔ s.configured = true ∧ s.loaded = true := by
  simp [State.notReady, configured_iff, and_assoc]

theorem requireLoaded_of_notReady (h : s.notReady) : requireLoaded k s = .next (s.answer .uninitialized 0) := by
  obtain ⟨hconf, hload, -⟩ | ⟨-, hraise⟩ := requireLoaded_cases k s
  · exact absurd h ((not_notReady_iff s).2 ⟨hconf, hload⟩)
  · exact hraise

theorem requireLoaded_of_ready (h : ¬ s.notReady) : requireLoaded k s = k s := by
  obtain ⟨hconf, hload⟩ := (not_notReady_iff s).1 h
  rw [requireLoaded, requireConfigured, if_pos hconf, if_pos hload]

/-! ### The buffer (R165, R166) -/

theorem exec_hbWr_of_ge {i : Byte} (b : Byte) (h : 14 ≤ i.toNat) :
    exec (.hbWr i b) s = .next (s.answer .badCommand 0) :=
  if_pos h

theorem exec_hbWr_of_lt {i : Byte} (b : Byte) (h : i.toNat < 14) :
    exec (.hbWr i b) s = .next ({ s with hb := Memory.write s.hb i.toNat b }.answer .ok 0) :=
  if_neg (Nat.not_le.2 h)

theorem exec_hbRd_of_ge {i : Byte} (h : 14 ≤ i.toNat) : exec (.hbRd i) s = .next (s.answer .badCommand 0) :=
  if_pos h

theorem exec_hbRd_of_lt {i : Byte} (h : i.toNat < 14) :
    exec (.hbRd i) s = .next (s.answer .ok ((Memory.read s.hb i.toNat).setWidth 32)) :=
  if_neg (Nat.not_le.2 h)

end

/-! ### The image as fields (R167) -/

section

variable (p : Config.Params) (size off time : Word32)

theorem hdrBody_length : (hdrBody p size off time).length = 12 := by
  simp [hdrBody]

theorem hdrEncode_eq_append :
    hdrEncode p size off time =
      hdrBody p size off time ++ put16 p.storeEndian (crc16 p.hdrCrcAlg (hdrBody p size off time)) := by
  rw [hdrEncode, hdrCrc, Config.hdrCrcSpan_eq, List.take_of_length_le (hdrBody_length p size off time).le]

/-- The CRC that is checked is that of the body, whatever stands in the CRC field. -/
theorem hdrCrc_hdrEncode :
    hdrCrc p (hdrEncode p size off time) = crc16 p.hdrCrcAlg (hdrBody p size off time) := by
  rw [hdrCrc, Config.hdrCrcSpan_eq, hdrEncode, List.take_left' (hdrBody_length p size off time)]

theorem st16_crcField_hdrEncode :
    st16 p.storeEndian (((hdrEncode p size off time).drop 12).take 2) =
      crc16 p.hdrCrcAlg (hdrBody p size off time) := by
  rw [hdrEncode_eq_append, List.drop_left' (hdrBody_length p size off time),
    List.take_of_length_le (put16_length _ _).le, st16_put16]

theorem hdrDecode_hdrEncode :
    hdrDecode p (hdrEncode p size off time) =
      ⟨size, off, time, crc16 p.hdrCrcAlg (hdrBody p size off time)⟩ := by
  have hsize : (hdrEncode p size off time).take 4 = put32 p.storeEndian size := by simp [hdrEncode, hdrBody]
  have hoff : ((hdrEncode p size off time).drop 4).take 4 = put32 p.storeEndian off := by simp [hdrEncode, hdrBody]
  have htime : ((hdrEncode p size off time).drop 8).take 4 = put32 p.storeEndian time := by
    simp [hdrEncode, hdrBody, List.take_append, List.drop_append]
  rw [hdrDecode, hsize, hoff, htime, st16_crcField_hdrEncode, st32_put32, st32_put32, st32_put32]

end

/-! ### Sealing (R173) -/

/-- A string written at the start of a space: it is read back there, and the bytes after it stay. -/
theorem slice_writeAll_zero_and_rest {size n : Nat} {m : Memory} {bytes : List Byte} (hm : Memory.wf size m = true)
    (hn : bytes.length = n) (h : n ≤ size) :
    Memory.slice (Memory.writeAll m 0 bytes) 0 n = bytes ∧
      ∀ a, n ≤ a → Memory.read (Memory.writeAll m 0 bytes) a = Memory.read m a := by
  subst hn
  exact ⟨slice_writeAll hm (by omega), fun a ha => read_writeAll_outside hm (by omega) (.inr (by omega))⟩

theorem exec_hdrSeal_of_ready {s : State} (h : ¬ s.notReady) :
    exec .hdrSeal s = .next ({ s with
      hb := Memory.writeAll s.hb 0 (hdrEncode s.params s.hSize s.hOff s.hTime)
      hCrc := crc16 s.params.hdrCrcAlg (hdrBody s.params s.hSize s.hOff s.hTime) }.answer .ok 0) := by
  rw [← st16_crcField_hdrEncode]
  exact requireLoaded_of_ready h

/-- Settles O23: each field is read back where it was written, and the CRC is that of the body before it. -/
theorem headerImageRoundTrip : Obligations.HeaderImageRoundTrip := by
  unfold Obligations.HeaderImageRoundTrip
  intro p size off time
  rw [hdrDecode_hdrEncode, hdrCrc_hdrEncode]
  exact ⟨hdrEncode_length p size off time, rfl, rfl⟩

/-- Settles O21: the two branches of `HB.WR`, and the law of a byte written. -/
theorem hbWrStoresOneByte : Obligations.HbWrStoresOneByte := by
  unfold Obligations.HbWrStoresOneByte
  refine ⟨fun i b => ?_, fun s i b => exec_hbWr_of_ge b, fun s i b hwf hi => ?_⟩
  · have hword := decode_or_fields (i := .hbWr i b) (op := 0x30) (a := 0#8) (b := i) (c := b) rfl rfl
    rwa [BitVec.setWidth_zero, BitVec.zero_shiftLeft, BitVec.or_zero] at hword
  · obtain ⟨-, hhb, -⟩ := (wf_iff s).1 hwf
    exact ⟨_, exec_hbWr_of_lt b hi, fun _ => read_write hhb⟩

/-- Settles O22: the two branches of `HB.RD`. -/
theorem hbRdAnswersTheByte : Obligations.HbRdAnswersTheByte := by
  unfold Obligations.HbRdAnswersTheByte
  exact ⟨fun i => decode_or_setWidth (i := .hbRd i) (op := 0x31) rfl rfl,
    fun _ _ => ⟨exec_hbRd_of_ge, exec_hbRd_of_lt⟩⟩

/-- Settles O24: the precondition and the check of the CRC, each as the condition it stands for, and the rule's own
numbers. -/
theorem hdrLoadValidatesTheImage : Obligations.HdrLoadValidatesTheImage := by
  unfold Obligations.HdrLoadValidatesTheImage
  refine ⟨decode_encode (i := .hdrLoad) rfl, fun s => ?_, by decide +kernel⟩
  have hexec : exec .hdrLoad s = requireConfigured loadHeader s := rfl
  simp only [hexec, requireConfigured_eq_ite, apply_ite Host.Outcome.next]
  exact ite_congr rfl (fun _ => rfl) fun _ => rfl

/-- Settles O25: the image is a string written at the start of `hb`, its CRC field the CRC of its body. -/
theorem hdrSealWritesTheImage : Obligations.HdrSealWritesTheImage := by
  unfold Obligations.HdrSealWritesTheImage
  refine ⟨decode_encode (i := .hdrSeal) rfl, fun s h => requireLoaded_of_notReady h, fun s hwf hready => ?_,
    by decide +kernel⟩
  obtain ⟨-, hhb, -⟩ := (wf_iff s).1 hwf
  obtain ⟨himage, hrest⟩ :=
    slice_writeAll_zero_and_rest hhb (hdrEncode_length s.params s.hSize s.hOff s.hTime) le_rfl
  exact ⟨_, exec_hdrSeal_of_ready hready, himage.trans (hdrEncode_eq_append _ _ _ _), hrest⟩

end Sys2Proof.Machine
end

section
/-! O26 to O34 (R174 to R183). The header's arithmetic. `MovesHeader` puts what `HDR.ADV` and `HDR.RET` do into numbers:
many advances are its composition, and the range and the first timestamp are read off it. `HDR.FIND` searches by the
closed form of R181, which picks the one bucket that has the rounded time. -/

namespace Sys2Proof.Machine

/-- Nothing changes from `s` to `t` but the response and the three header registers, which then hold these numbers. -/
structure MovesHeader (size off time : Nat) (s t : State) : Prop where
  size_eq : t.hSize.toNat = size
  off_eq : t.hOff.toNat = off
  time_eq : t.hTime.toNat = time
  rest : t = { s.setHeader t.hSize t.hOff t.hTime with resp := t.resp }

/-- The header's range (R183). -/
def State.InRange (s : State) : Prop := s.hOff.toNat < s.capacity.toNat ∧ s.hSize.toNat ≤ s.capacity.toNat

/-- The outcome of a command that answered `Ok`. -/
def EndsOk (o : Out) (t : State) : Prop := o = .next t ∧ ∃ v, t.resp = some ⟨.ok, v⟩

section

variable {s t u : State} {size off time n : Nat}

/-! ### Configured capacity and element size -/

theorem capacity_pos_of_ready (h : ¬ s.notReady) : 0 < s.capacity.toNat :=
  BitVec.toNat_pos_of_ne_zero fun hzero => h (.inl hzero)

theorem elementSize_pos_of_ready (h : ¬ s.notReady) : 0 < s.elementSize.toNat :=
  BitVec.toNat_pos_of_ne_zero fun hzero => h (.inr (.inl hzero))

/-! ### Header moves -/

theorem toNat_ofNat_of_lt {w x : Nat} (h : x < 2 ^ w) : (BitVec.ofNat w x).toNat = x := by
  rw [BitVec.toNat_ofNat, Nat.mod_eq_of_lt h]

theorem movesHeader_setHeader (hsize : size < 2 ^ 32) (hoff : off < 2 ^ 32) (htime : time < 2 ^ 32) (st : Status)
    (v : Word32) (s : State) :
    MovesHeader size off time s
      ((s.setHeader (BitVec.ofNat 32 size) (BitVec.ofNat 32 off) (BitVec.ofNat 32 time)).answer st v) where
  size_eq := toNat_ofNat_of_lt hsize
  off_eq := toNat_ofNat_of_lt hoff
  time_eq := toNat_ofNat_of_lt htime
  rest := rfl

namespace MovesHeader

theorem capacity_eq (h : MovesHeader size off time s t) : t.capacity = s.capacity := (congrArg State.capacity h.rest :)

theorem elementSize_eq (h : MovesHeader size off time s t) : t.elementSize = s.elementSize :=
  (congrArg State.elementSize h.rest :)

theorem loaded_eq (h : MovesHeader size off time s t) : t.loaded = s.loaded := (congrArg State.loaded h.rest :)

theorem notReady_iff (h : MovesHeader size off time s t) : t.notReady ↔ s.notReady := by
  rw [State.notReady, State.notReady, h.capacity_eq, h.elementSize_eq, h.loaded_eq]

/-- A later move decides the numbers. -/
theorem trans {size' off' time' : Nat} (h : MovesHeader size' off' time' s u) (h' : MovesHeader size off time u t) :
    MovesHeader size off time s t where
  size_eq := h'.size_eq
  off_eq := h'.off_eq
  time_eq := h'.time_eq
  rest := h'.rest.trans (congrArg (fun x : State => { x.setHeader t.hSize t.hOff t.hTime with resp := t.resp }) h.rest)

theorem eq_of_resp {r : Response} (h : MovesHeader size off time s t) (hresp : t.resp = some r) :
    t = { s with hSize := t.hSize, hOff := t.hOff, hTime := t.hTime, resp := some r } := by
  have hrest := h.rest
  rw [hresp] at hrest
  exact hrest

theorem inRange (h : MovesHeader size off time s t) (hoff : off < s.capacity.toNat)
    (hsize : size ≤ s.capacity.toNat) : t.InRange := by
  rw [State.InRange, h.capacity_eq, h.off_eq, h.size_eq]
  exact ⟨hoff, hsize⟩

theorem firstTime_eq (h : MovesHeader size off time s t) :
    t.firstTime = (time : Int) - (s.elementSize.toNat : Int) * ((size : Int) - 1) := by
  rw [State.firstTime, h.time_eq, h.elementSize_eq, h.size_eq]

end MovesHeader

/-! ### Reset and start (R174, R175) -/

theorem exec_hdrReset_eq_ite (s : State) :
    exec .hdrReset s =
      if s.capacity = 0 ∨ s.elementSize = 0 then .next (s.answer .uninitialized 0)
      else .next (((s.setHeader 0 0 0).setFlags true s.crcOk).answer .ok 0) :=
  requireConfigured_eq_ite (fun s => respond 0 ((s.setHeader 0 0 0).setFlags true s.crcOk)) s

theorem exec_hdrStart_of_nonempty (time : Word32) (hready : ¬ s.notReady) (h : s.hSize ≠ 0) :
    exec (.hdrStart time) s = .next (s.answer .badCommand 0) :=
  (requireLoaded_of_ready hready).trans (if_pos h)

theorem exec_hdrStart_of_empty (time : Word32) (hready : ¬ s.notReady) (h : s.hSize = 0) :
    exec (.hdrStart time) s = .next ((s.setHeader 1 0 (BitVec.ofNat 32 (quant time.toNat))).answer .ok 0) :=
  (requireLoaded_of_ready hready).trans (if_neg (not_not.2 h))

/-! ### Advance (R176) -/

/-- `n` advances, as numbers. -/
def Advances (n : Nat) (s t : State) : Prop :=
  MovesHeader (min (s.hSize.toNat + n) s.capacity.toNat) ((s.hOff.toNat + n) % s.capacity.toNat)
    (s.hTime.toNat + n * s.elementSize.toNat) s t

theorem exec_hdrAdv_of_overflow (hready : ¬ s.notReady) (h : 0xFFFFFFFF < s.hTime.toNat + s.elementSize.toNat) :
    exec .hdrAdv s = .next (s.answer .overflow 0) :=
  (requireLoaded_of_ready hready).trans (if_pos h)

theorem exec_hdrAdv_of_fits (hready : ¬ s.notReady) (h : s.hTime.toNat + s.elementSize.toNat ≤ 0xFFFFFFFF) :
    ∃ t, exec .hdrAdv s = .next t ∧ t.resp = some ⟨.ok, 0⟩ ∧ Advances 1 s t := by
  have hcap := s.capacity.isLt
  have hoff := Nat.mod_lt (s.hOff.toNat + 1) (capacity_pos_of_ready hready)
  refine ⟨_, (requireLoaded_of_ready hready).trans (if_neg (Nat.not_lt.2 h)), rfl, ?_⟩
  rw [Advances, Nat.one_mul]
  exact movesHeader_setHeader (by omega) (by omega) (by omega) _ _ s

theorem Advances.inRange (hready : ¬ s.notReady) (h : Advances n s t) : t.InRange :=
  MovesHeader.inRange h (Nat.mod_lt _ (capacity_pos_of_ready hready)) (Nat.min_le_right _ _)

theorem Advances.trans {m : Nat} (h : Advances m s u) (h' : Advances n u t) : Advances (m + n) s t := by
  rw [Advances, h.capacity_eq, h.elementSize_eq, h.size_eq, h.off_eq, h.time_eq, Nat.mod_add_mod] at h'
  rw [Advances, ← Nat.add_assoc, ← Nat.add_assoc, Nat.add_mul, ← Nat.add_assoc]
  have hsize : min (min (s.hSize.toNat + m) s.capacity.toNat + n) s.capacity.toNat =
      min (s.hSize.toNat + m + n) s.capacity.toNat := by omega
  rw [hsize] at h'
  exact MovesHeader.trans h h'

theorem advances_zero (h : s.InRange) : Advances 0 s s where
  size_eq := (Nat.min_eq_left h.2).symm
  off_eq := (Nat.mod_eq_of_lt h.1).symm
  time_eq := by rw [Nat.zero_mul, Nat.add_zero]
  rest := rfl

/-- Each advance answers `Ok`, as the time has room for it, and leaves a header in range for the next. -/
theorem execSeq_hdrAdv (hready : ¬ s.notReady) (hrange : s.InRange)
    (htime : s.hTime.toNat + n * s.elementSize.toNat ≤ 0xFFFFFFFF) :
    ∃ t, execSeq (List.replicate n .hdrAdv) s = .next t ∧ Advances n s t := by
  induction n generalizing s with
  | zero => exact ⟨s, rfl, advances_zero hrange⟩
  | succ n ih =>
    rw [Nat.succ_mul] at htime
    obtain ⟨u, hexec, hresp, hone⟩ := exec_hdrAdv_of_fits hready (by omega)
    have hroom : u.hTime.toNat + n * u.elementSize.toNat ≤ 0xFFFFFFFF := by
      rw [hone.time_eq, hone.elementSize_eq]
      omega
    obtain ⟨t, hrun, hrest⟩ := ih (mt hone.notReady_iff.1 hready) (hone.inRange hready) hroom
    have hok : u.lastOk = true := by simp [State.lastOk, hresp]
    refine ⟨t, ?_, Nat.add_comm n 1 ▸ hone.trans hrest⟩
    rw [execSeq, List.replicate_succ, List.map_cons, seqOk_cons hexec, if_pos hok]
    exact hrun

/-! ### Retract (R177) -/

/-- One retract, as numbers. -/
def Retracts (s t : State) : Prop :=
  MovesHeader (s.hSize.toNat - 1) ((s.hOff.toNat + s.capacity.toNat - 1) % s.capacity.toNat)
    (s.hTime.toNat - s.elementSize.toNat) s t

theorem exec_hdrRet_of_short (hready : ¬ s.notReady) (h : s.hSize.toNat < 2) :
    exec .hdrRet s = .next (s.answer .noRecords 0) :=
  (requireLoaded_of_ready hready).trans (if_pos h)

theorem exec_hdrRet_of_early (hready : ¬ s.notReady) (hsize : 2 ≤ s.hSize.toNat)
    (h : s.hTime.toNat < s.elementSize.toNat) : exec .hdrRet s = .next (s.answer .overflow 0) :=
  (requireLoaded_of_ready hready).trans ((if_neg (Nat.not_lt.2 hsize)).trans (if_pos h))

theorem exec_hdrRet_of_fits (hready : ¬ s.notReady) (hsize : 2 ≤ s.hSize.toNat)
    (h : s.elementSize.toNat ≤ s.hTime.toNat) :
    ∃ t, exec .hdrRet s = .next t ∧ t.resp = some ⟨.ok, 0⟩ ∧ Retracts s t := by
  have hcap := s.capacity.isLt
  have hoff := Nat.mod_lt (s.hOff.toNat + s.capacity.toNat - 1) (capacity_pos_of_ready hready)
  refine ⟨_, (requireLoaded_of_ready hready).trans
    ((if_neg (Nat.not_lt.2 hsize)).trans (if_neg (Nat.not_lt.2 h))), rfl, ?_⟩
  exact movesHeader_setHeader (by omega) (by omega) (by omega) _ _ s

/-! ### The two timestamps (R178, R179) -/

theorem firstTime_le_hTime (h : s.hSize ≠ 0) : s.firstTime ≤ (s.hTime.toNat : Int) := by
  have hsize := BitVec.toNat_pos_of_ne_zero h
  have hspan : 0 ≤ (s.elementSize.toNat : Int) * ((s.hSize.toNat : Int) - 1) :=
    Int.mul_nonneg (by omega) (by omega)
  rw [State.firstTime]
  omega

theorem exec_hdrTfirst_of_empty (hready : ¬ s.notReady) (h : s.hSize = 0) :
    exec .hdrTfirst s = .next (s.answer .noRecords 0) :=
  (requireLoaded_of_ready hready).trans (if_pos h)

theorem exec_hdrTfirst_of_neg (hready : ¬ s.notReady) (hsize : s.hSize ≠ 0) (h : s.firstTime < 0) :
    exec .hdrTfirst s = .next (s.answer .overflow 0) :=
  (requireLoaded_of_ready hready).trans ((if_neg hsize).trans (if_pos h))

theorem exec_hdrTfirst_of_nonneg (hready : ¬ s.notReady) (hsize : s.hSize ≠ 0) (h : 0 ≤ s.firstTime) :
    ∃ v, exec .hdrTfirst s = .next (s.answer .ok v) ∧ (v.toNat : Int) = s.firstTime := by
  refine ⟨_, (requireLoaded_of_ready hready).trans ((if_neg hsize).trans (if_neg (Int.not_lt.2 h))), ?_⟩
  have hle := firstTime_le_hTime hsize
  have hlt := s.hTime.isLt
  rw [toNat_ofNat_of_lt (by omega), Int.toNat_of_nonneg h]

theorem exec_hdrTlast_of_empty (hready : ¬ s.notReady) (h : s.hSize = 0) :
    exec .hdrTlast s = .next (s.answer .noRecords 0) :=
  (requireLoaded_of_ready hready).trans (if_pos h)

theorem exec_hdrTlast_of_nonempty (hready : ¬ s.notReady) (h : s.hSize ≠ 0) :
    exec .hdrTlast s = .next (s.answer .ok s.hTime) :=
  (requireLoaded_of_ready hready).trans (if_neg h)

/-! ### Find (R180, R181) -/

/-- The closed form of R181 answers the held bucket that has the time, and there is at most one. -/
theorem stepsBack_eq_some_iff {q j : Nat} (hes : 0 < s.elementSize.toNat) :
    s.stepsBack q = some j ↔ j < s.hSize.toNat ∧ q + s.elementSize.toNat * j = s.hTime.toNat := by
  constructor
  · intro h
    rw [State.stepsBack] at h
    split at h
    next hheld =>
      obtain ⟨hle, hmod, hlt⟩ := hheld
      cases h
      rw [Nat.mul_div_cancel' (Nat.dvd_of_mod_eq_zero hmod)]
      exact ⟨hlt, Nat.add_sub_cancel' hle⟩
    next => cases h
  · rintro ⟨hj, htime⟩
    have hdiff : s.hTime.toNat - q = s.elementSize.toNat * j := by omega
    rw [State.stepsBack, hdiff, Nat.mul_mod_right, Nat.mul_div_cancel_left j hes, if_pos ⟨by omega, rfl, hj⟩]

theorem toNat_slotBack (hcap : 0 < s.capacity.toNat) (j : Nat) :
    ((BitVec.ofNat 32 (s.slotBack j)).toNat : Int) = ((s.hOff.toNat : Int) - (j : Int)) % (s.capacity.toNat : Int) := by
  have hnonneg := Int.emod_nonneg ((s.hOff.toNat : Int) - (j : Int)) (b := (s.capacity.toNat : Int)) (by omega)
  have hlt := Int.emod_lt_of_pos ((s.hOff.toNat : Int) - (j : Int)) (b := (s.capacity.toNat : Int)) (by omega)
  have hword := s.capacity.isLt
  rw [State.slotBack, toNat_ofNat_of_lt (by omega), Int.toNat_of_nonneg hnonneg]

theorem exec_hdrFind_of_held {time : Word32} {j : Nat} (hready : ¬ s.notReady) (hj : j < s.hSize.toNat)
    (htime : quant time.toNat + s.elementSize.toNat * j = s.hTime.toNat) :
    exec (.hdrFind time) s = .next (s.answer .ok (BitVec.ofNat 32 (s.slotBack j))) := by
  have hsteps := (stepsBack_eq_some_iff (elementSize_pos_of_ready hready)).2 ⟨hj, htime⟩
  refine (requireLoaded_of_ready hready).trans ?_
  rw [findBucket, hsteps]
  rfl

theorem exec_hdrFind_of_not_held {time : Word32} (hready : ¬ s.notReady)
    (h : ∀ j, j < s.hSize.toNat → quant time.toNat + s.elementSize.toNat * j ≠ s.hTime.toNat) :
    exec (.hdrFind time) s = .next (s.answer .notFound 0) := by
  have hsteps : s.stepsBack (quant time.toNat) = none := Option.eq_none_iff_forall_ne_some.2 fun j hsome =>
    have ⟨hj, htime⟩ := (stepsBack_eq_some_iff (elementSize_pos_of_ready hready)).1 hsome
    h j hj htime
  refine (requireLoaded_of_ready hready).trans ?_
  rw [findBucket, hsteps]
  rfl

/-- The time of a bucket, over the integers and over the naturals. -/
theorem sub_mul_eq_iff (last element j q : Nat) :
    (last : Int) - (element : Int) * (j : Int) = (q : Int) ↔ q + element * j = last := by
  rw [← Int.natCast_mul]
  omega

/-! ### Commands that end `Ok` (R183) -/

theorem EndsOk.eq {o : Out} (h : EndsOk o t) (ho : o = .next u) : u = t :=
  Host.Outcome.next.inj (ho.symm.trans h.1)

theorem EndsOk.not_raised {o : Out} {st : Status} (h : EndsOk o t) (ho : o = .next (s.answer st 0))
    (hst : st ≠ .ok) : False := by
  obtain ⟨v, hresp⟩ := h.2
  cases h.eq ho
  cases hresp
  exact hst rfl

theorem EndsOk.ready {k : State → Out} (h : EndsOk (requireLoaded k s) t) : ¬ s.notReady :=
  fun hnot => h.not_raised (requireLoaded_of_notReady hnot) nofun

theorem hdrReset_inRange (h : EndsOk (exec .hdrReset s) t) : t.InRange := by
  have hconf : ¬ (s.capacity = 0 ∨ s.elementSize = 0) := fun hnot =>
    h.not_raised ((exec_hdrReset_eq_ite s).trans (if_pos hnot)) nofun
  cases h.eq ((exec_hdrReset_eq_ite s).trans (if_neg hconf))
  exact ⟨BitVec.toNat_pos_of_ne_zero fun hzero => hconf (.inl hzero), Nat.zero_le _⟩

theorem hdrStart_inRange {time : Word32} (h : EndsOk (exec (.hdrStart time) s) t) : t.InRange := by
  have hready : ¬ s.notReady := EndsOk.ready h
  have hempty : s.hSize = 0 := not_not.1 fun hne => h.not_raised (exec_hdrStart_of_nonempty time hready hne) nofun
  cases h.eq (exec_hdrStart_of_empty time hready hempty)
  exact ⟨capacity_pos_of_ready hready, capacity_pos_of_ready hready⟩

theorem advances_of_endsOk (h : EndsOk (exec .hdrAdv s) t) : ¬ s.notReady ∧ Advances 1 s t := by
  have hready : ¬ s.notReady := EndsOk.ready h
  have hfits : s.hTime.toNat + s.elementSize.toNat ≤ 0xFFFFFFFF := Nat.not_lt.1 fun hover =>
    h.not_raised (exec_hdrAdv_of_overflow hready hover) nofun
  obtain ⟨u, hexec, -, hadv⟩ := exec_hdrAdv_of_fits hready hfits
  exact ⟨hready, h.eq hexec ▸ hadv⟩

/-- A retract that ends `Ok` had two buckets and the time for it. -/
theorem retracts_of_endsOk (h : EndsOk (exec .hdrRet s) t) :
    ¬ s.notReady ∧ 2 ≤ s.hSize.toNat ∧ s.elementSize.toNat ≤ s.hTime.toNat ∧ Retracts s t := by
  have hready : ¬ s.notReady := EndsOk.ready h
  have hsize : 2 ≤ s.hSize.toNat := Nat.not_lt.1 fun hshort =>
    h.not_raised (exec_hdrRet_of_short hready hshort) nofun
  have htime : s.elementSize.toNat ≤ s.hTime.toNat := Nat.not_lt.1 fun hearly =>
    h.not_raised (exec_hdrRet_of_early hready hsize hearly) nofun
  obtain ⟨u, hexec, -, hret⟩ := exec_hdrRet_of_fits hready hsize htime
  exact ⟨hready, hsize, htime, h.eq hexec ▸ hret⟩

/-- A ring that is not full grows at its new end only. -/
theorem Advances.firstTime_of_lt (h : Advances 1 s t) (hlt : s.hSize.toNat < s.capacity.toNat) :
    t.firstTime = s.firstTime := by
  rw [h.firstTime_eq, Nat.min_eq_left hlt, State.firstTime]
  push_cast
  ring

/-- A full ring loses its oldest bucket. -/
theorem Advances.firstTime_of_full (h : Advances 1 s t) (hfull : s.hSize = s.capacity) :
    t.firstTime = s.firstTime + (s.elementSize.toNat : Int) := by
  rw [h.firstTime_eq, ← hfull, Nat.min_eq_right (Nat.le_succ _), State.firstTime]
  push_cast
  ring

theorem Retracts.firstTime_eq (h : Retracts s t) (hsize : 2 ≤ s.hSize.toNat)
    (htime : s.elementSize.toNat ≤ s.hTime.toNat) : t.firstTime = s.firstTime := by
  rw [MovesHeader.firstTime_eq h, State.firstTime, Nat.cast_sub htime, Nat.cast_sub (by omega)]
  push_cast
  ring

theorem Retracts.inRange (h : Retracts s t) (hready : ¬ s.notReady) (hs : s.hSize.toNat ≤ s.capacity.toNat) :
    t.InRange :=
  MovesHeader.inRange h (Nat.mod_lt _ (capacity_pos_of_ready hready)) ((Nat.sub_le _ _).trans hs)

end

/-- Settles O32: the buckets' times over the integers are those of the closed form of R181. -/
theorem hdrFindAnswersTheSlot : Obligations.HdrFindAnswersTheSlot := by
  unfold Obligations.HdrFindAnswersTheSlot
  refine ⟨fun t => decode_encode (i := .hdrFind t) rfl, fun s t => ⟨fun h => requireLoaded_of_notReady h,
    fun hready j hj htime => ?_, fun hready h => ?_⟩⟩
  · exact ⟨_, exec_hdrFind_of_held hready hj ((sub_mul_eq_iff _ _ _ _).1 htime),
      toNat_slotBack (capacity_pos_of_ready hready) j⟩
  · exact exec_hdrFind_of_not_held hready fun j hj htime => h j hj ((sub_mul_eq_iff _ _ _ _).2 htime)

/-- Settles O33: each of the four commands by what it does when it ends `Ok`. -/
theorem headerCommandsKeepTheRange : Obligations.HeaderCommandsKeepTheRange := by
  unfold Obligations.HeaderCommandsKeepTheRange
  intro i s t v hexec hresp
  have hok : EndsOk (exec i s) t := ⟨hexec, v, hresp⟩
  refine ⟨?_, ?_, ?_, ?_, ?_⟩
  · rintro (rfl | ⟨time, rfl⟩)
    · exact hdrReset_inRange hok
    · exact hdrStart_inRange hok
  · rintro (rfl | rfl) - hsize
    · obtain ⟨hready, hadv⟩ := advances_of_endsOk hok
      exact hadv.inRange hready
    · obtain ⟨hready, -, -, hret⟩ := retracts_of_endsOk hok
      exact hret.inRange hready hsize
  · rintro rfl - hlt
    exact (advances_of_endsOk hok).2.firstTime_of_lt hlt
  · rintro rfl - hfull
    exact (advances_of_endsOk hok).2.firstTime_of_full hfull
  · rintro rfl
    obtain ⟨-, hsize, htime, hret⟩ := retracts_of_endsOk hok
    exact hret.firstTime_eq hsize htime

/-- Settles O34, by induction on the number of advances, composing their moves. -/
theorem manyAdvancesWrapTheOffset : Obligations.ManyAdvancesWrapTheOffset := by
  unfold Obligations.ManyAdvancesWrapTheOffset
  intro n s hready hoff hsize htime
  obtain ⟨t, hrun, hadv⟩ := execSeq_hdrAdv hready ⟨hoff, hsize⟩ htime
  exact ⟨t, hrun, hadv.off_eq, hadv.size_eq, hadv.time_eq, hadv.rest⟩

/-- Settles O26: the precondition as the condition it stands for. -/
theorem hdrResetGivesTheEmptyInstance : Obligations.HdrResetGivesTheEmptyInstance := by
  unfold Obligations.HdrResetGivesTheEmptyInstance
  refine ⟨decode_encode (i := .hdrReset) rfl, fun s => ?_⟩
  rw [apply_ite Host.Outcome.next]
  exact exec_hdrReset_eq_ite s

/-- Settles O27: the three outcomes of `HDR.START`. -/
theorem hdrStartMakesTheFirstEntry : Obligations.HdrStartMakesTheFirstEntry := by
  unfold Obligations.HdrStartMakesTheFirstEntry
  exact ⟨fun t => decode_encode (i := .hdrStart t) rfl, fun _ t =>
    ⟨fun h => requireLoaded_of_notReady h, exec_hdrStart_of_nonempty t, exec_hdrStart_of_empty t⟩⟩

/-- Settles O28: the three outcomes of `HDR.ADV`. -/
theorem hdrAdvMovesOneBucketForward : Obligations.HdrAdvMovesOneBucketForward := by
  unfold Obligations.HdrAdvMovesOneBucketForward
  refine ⟨decode_encode (i := .hdrAdv) rfl, fun s =>
    ⟨fun h => requireLoaded_of_notReady h, exec_hdrAdv_of_overflow, fun hready hfits => ?_⟩⟩
  obtain ⟨t, hexec, hresp, hadv⟩ := exec_hdrAdv_of_fits hready hfits
  have htime := hadv.time_eq
  rw [Nat.one_mul] at htime
  exact ⟨t, hexec, hadv.eq_of_resp hresp, hadv.off_eq, hadv.size_eq, htime⟩

/-- Settles O29: the four outcomes of `HDR.RET`. -/
theorem hdrRetDropsTheNewestBucket : Obligations.HdrRetDropsTheNewestBucket := by
  unfold Obligations.HdrRetDropsTheNewestBucket
  refine ⟨decode_encode (i := .hdrRet) rfl, fun s =>
    ⟨fun h => requireLoaded_of_notReady h, exec_hdrRet_of_short, exec_hdrRet_of_early,
      fun hready hsize htime => ?_⟩⟩
  obtain ⟨t, hexec, hresp, hret⟩ := exec_hdrRet_of_fits hready hsize htime
  exact ⟨t, hexec, hret.eq_of_resp hresp, hret.off_eq, hret.size_eq, hret.time_eq⟩

/-- Settles O30: the four outcomes of `HDR.TFIRST`. -/
theorem hdrTfirstAnswersTheOldestTime : Obligations.HdrTfirstAnswersTheOldestTime := by
  unfold Obligations.HdrTfirstAnswersTheOldestTime
  exact ⟨decode_encode (i := .hdrTfirst) rfl, fun _ => ⟨fun h => requireLoaded_of_notReady h,
    exec_hdrTfirst_of_empty, exec_hdrTfirst_of_neg, exec_hdrTfirst_of_nonneg⟩⟩

/-- Settles O31: the three outcomes of `HDR.TLAST`. -/
theorem hdrTlastAnswersTheNewestTime : Obligations.HdrTlastAnswersTheNewestTime := by
  unfold Obligations.HdrTlastAnswersTheNewestTime
  exact ⟨decode_encode (i := .hdrTlast) rfl, fun _ => ⟨fun h => requireLoaded_of_notReady h,
    exec_hdrTlast_of_empty, exec_hdrTlast_of_nonempty⟩⟩

end Sys2Proof.Machine
end

section
/-! The building blocks of the host procedures (R68, R80, R87): one command issued, a buffer read out, a checksum
computed by the CRC unit, each as an equation between states. -/

namespace Sys2Proof.Machine

section

variable {α β γ : Type} {s t : State} {i : Instr} {st : Status} {v : Word32}

/-! ### Sequencing -/

theorem onOk_assoc (p : ProcResult (Except HostError α)) (k : α → State → ProcResult (Except HostError β))
    (k' : β → State → ProcResult (Except HostError γ)) :
    (p.onOk k).onOk k' = p.onOk fun a s => (k a s).onOk k' := by
  cases p with
  | done a s => cases a <;> rfl
  | crashed | faulted | refused => rfl

/-! ### Commands -/

/-- The state with another response on the response port. -/
def State.withResp (s : State) (r : Option Response) : State := { s with resp := r }

@[simp] theorem withResp_self : s.withResp s.resp = s := rfl
@[simp] theorem withResp_withResp (r r' : Option Response) : (s.withResp r).withResp r' = s.withResp r' := rfl
@[simp] theorem withResp_answer (r : Option Response) : (s.withResp r).answer st v = s.answer st v := rfl

theorem answer_eq_withResp (s : State) (st : Status) (v : Word32) : s.answer st v = s.withResp (some ⟨st, v⟩) := rfl

/-- A result carries a narrower value in its low bits (R85). -/
theorem extractLsb'_setWidth_32 {n : Nat} (h : n ≤ 32) (x : BitVec n) :
    (x.setWidth 32).extractLsb' 0 n = x := by
  ext j hj
  simp [hj, show j < 32 by omega]

theorem issue_of_next (h : exec i s = .next (t.answer st v)) : issue i s = .done ⟨st, v⟩ (t.answer st v) := by
  rw [issue, h]
  rfl

theorem issueOk_of_ok (h : exec i s = .next (t.answer .ok v)) : issueOk i s = .done (.ok v) (t.answer .ok v) := by
  rw [issueOk, issue_of_next h]
  rfl

theorem issueOk_of_resp (h : exec i s = .next t) (hresp : t.resp = some ⟨.ok, v⟩) : issueOk i s = .done (.ok v) t := by
  rw [issueOk, issue, h, andThen_done, hresp]
  rfl

theorem issueAll_cons_of_ok {is : List Instr} (h : exec i s = .next (t.answer .ok v)) :
    issueAll (i :: is) s = issueAll is (t.answer .ok v) := by
  rw [issueAll, issueOk_of_ok h, onOk_ok]

theorem issueAll_append (is js : List Instr) (s : State) :
    issueAll (is ++ js) s = (issueAll is s).onOk fun _ s => issueAll js s := by
  induction is generalizing s with
  | nil => rfl
  | cons i is ih => simp only [List.cons_append, issueAll, ih, onOk_assoc]

/-- Every register can be read (R231), and the response port is all that changes. -/
theorem readRegister_eq (r : Reg) (s : State) :
    readRegister r s = .done (.ok (s.readReg r)) (s.answer .ok (s.readReg r)) := by
  refine issueOk_of_ok ?_
  change execRegRd r.number s = _
  rw [execRegRd, regOfNumber_number]
  rfl

/-! ### Buffers read out -/

/-- Commands that each answer with a byte, whatever the response port holds. -/
theorem issueReads_eq {ι : Type} {l : List ι} {f : ι → Instr} {b : ι → Byte}
    (h : ∀ i ∈ l, ∀ r, exec (f i) (s.withResp r) = .next (s.answer .ok ((b i).setWidth 32))) :
    ∃ r, issueReads (l.map f) s = .done (.ok (l.map b)) (s.withResp r) := by
  suffices hall : ∀ r₀, ∃ r, issueReads (l.map f) (s.withResp r₀) = .done (.ok (l.map b)) (s.withResp r) from
    hall s.resp
  induction l with
  | nil => exact fun r₀ => ⟨r₀, rfl⟩
  | cons i l ih =>
    intro r₀
    obtain ⟨hhead, htail⟩ := List.forall_mem_cons.1 h
    obtain ⟨r, hrest⟩ := ih htail (some ⟨.ok, (b i).setWidth 32⟩)
    refine ⟨r, ?_⟩
    rw [List.map_cons, issueReads, issueOk_of_ok (hhead r₀), onOk_ok, answer_eq_withResp, hrest, onOk_ok,
      extractLsb'_setWidth_32 (by decide)]
    rfl

theorem map_read_range (m : Memory) (a n : Nat) :
    (List.range n).map (fun i => Memory.read m (a + i)) = Memory.slice m a n := by
  refine List.ext_getElem (by simp) fun i hi hi' => ?_
  have hlt : i < n := by simpa using hi
  have hget := slice_getD m a n i hlt
  rw [List.getD_eq_getElem?_getD, List.getElem?_eq_getElem hi'] at hget
  simpa using hget.symm

theorem issueReads_commandsUpTo {f : Byte → Instr} {m : Memory} {a n : Nat}
    (h : ∀ i < n, ∀ r,
      exec (f (BitVec.ofNat 8 i)) (s.withResp r) = .next (s.answer .ok ((Memory.read m (a + i)).setWidth 32))) :
    ∃ r, issueReads (commandsUpTo f n) s = .done (.ok (Memory.slice m a n)) (s.withResp r) := by
  rw [commandsUpTo, ← map_read_range]
  exact issueReads_eq fun i hi => h i (List.mem_range.1 hi)

/-! ### Checksums (R87, R120) -/

/-- The state after `CRC16 alg, bytes` (R87). -/
def State.withChecksum (s : State) (alg : CrcAlg) (bytes : List Byte) : State :=
  { s with crc := crc16 alg bytes, crcAlg := (algCode alg).extractLsb' 0 1 }.answer .ok
    ((crc16 alg bytes).setWidth 32)

@[simp] theorem withChecksum_storage (alg : CrcAlg) (bytes : List Byte) :
    (s.withChecksum alg bytes).storage = s.storage := rfl
@[simp] theorem withChecksum_io (alg : CrcAlg) (bytes : List Byte) : (s.withChecksum alg bytes).io = s.io := rfl
@[simp] theorem withChecksum_params (alg : CrcAlg) (bytes : List Byte) :
    (s.withChecksum alg bytes).params = s.params := rfl

theorem issueAll_crcUpd (bytes : List Byte) (s : State) :
    issueAll (bytes.map .crcUpd) (s.answer .ok 0) =
      .done (.ok ()) ({ s with crc := crcFrom (algOfBit s.crcAlg) s.crc bytes }.answer .ok 0) := by
  induction bytes generalizing s with
  | nil => rfl
  | cons b bs ih =>
    rw [List.map_cons, issueAll_cons_of_ok (exec_crcUpd b _)]
    exact ih { s with crc := crcStep (algOfBit s.crcAlg) s.crc b }

/-- The CRC unit computes the checksum as a function (R120). -/
theorem crcByUnit_eq (alg : CrcAlg) (bytes : List Byte) (s : State) :
    crcByUnit alg bytes s = .done (.ok (crc16 alg bytes)) (s.withChecksum alg bytes) := by
  have hinit : exec (.crcInit (algCode alg)) s = .next
      ({ s with crcAlg := (algCode alg).extractLsb' 0 1, crc := Config.crcInitValue }.answer .ok 0) := by
    cases alg <;> rfl
  have halg : algOfBit ((algCode alg).extractLsb' 0 1) = alg := by cases alg <;> rfl
  rw [crcByUnit, issueAll_cons_of_ok hinit, issueAll_crcUpd, onOk_ok, readRegister_eq, onOk_ok, State.readReg,
    extractLsb'_setWidth_32 (by decide)]
  simp only [halg]
  rfl

end

end Sys2Proof.Machine
end

section
/-! The pages of `ConfigStore` (R201 to R203). A page is a checksum, the record's other bytes and padding; the record is
read back from it field by field. A changed byte always changes one side of the check: the stored checksum, or, as every
step of CRC-16/CCITT-FALSE is injective, the computed one. -/

namespace Sys2Proof.Machine

section

variable {s : State} {e : Endian} {p : Config.Params} {r : ConfigRecord} {c : Word16}

/-! ### The record's bytes (R202) -/

theorem serialise_length (e : Endian) (r : ConfigRecord) : (r.serialise e).length = 111 := by
  simp [ConfigRecord.serialise, Six.serialise]

/-- The checksum is the record's first two bytes, and nothing else in it. -/
theorem serialise_setCrc (e : Endian) (r : ConfigRecord) (c : Word16) :
    ({ r with crc := c } : ConfigRecord).serialise e = put16 e c ++ (r.serialise e).drop 2 := by
  rw [ConfigRecord.serialise, ConfigRecord.serialise, List.drop_left' (put16_length _ _)]

theorem numberAt_append_right {xs ys : List Byte} {i n : Nat} (h : xs.length ≤ i) :
    numberAt e (xs ++ ys) i n = numberAt e ys (i - xs.length) n := by
  rw [numberAt, numberAt, List.drop_append, List.drop_of_length_le h, List.nil_append]

theorem numberAt_append_left {xs ys : List Byte} {n : Nat} (h : xs.length = n) :
    numberAt e (xs ++ ys) 0 n = natOfBytes e xs := by
  rw [numberAt, List.drop_zero, List.take_left' h]

/-- A field of whole bytes, read back where it was written. -/
theorem ofNat_numberAt_bytesOfNat {w n : Nat} (h : 256 ^ n = 2 ^ w) (v : BitVec w) (ys : List Byte) :
    BitVec.ofNat w (numberAt e (bytesOfNat e n v.toNat ++ ys) 0 n) = v := by
  rw [numberAt_append_left (bytesOfNat_length e n _), natOfBytes_bytesOfNat, h, Nat.mod_eq_of_lt v.isLt,
    BitVec.ofNat_toNat, BitVec.setWidth_eq]

theorem word32At_put32 (v : Word32) (ys : List Byte) : word32At e (put32 e v ++ ys) 0 = v := by
  rw [word32At, numberAt_append_left (put32_length e v)]
  exact st32_put32 e v

theorem word32At_append_right {xs ys : List Byte} {i : Nat} (h : xs.length ≤ i) :
    word32At e (xs ++ ys) i = word32At e ys (i - xs.length) := by
  rw [word32At, word32At, numberAt_append_right h]

theorem sixAt_serialise (x : Six) (ys : List Byte) : sixAt e (x.serialise e ++ ys) 0 = x := by
  simp [sixAt, Six.serialise, word32At_append_right, word32At_put32]

theorem sixAt_append_right {xs ys : List Byte} {i : Nat} (h : xs.length ≤ i) :
    sixAt e (xs ++ ys) i = sixAt e ys (i - xs.length) := by
  have hskip (k : Nat) : word32At e (xs ++ ys) (i + k) = word32At e ys (i - xs.length + k) := by
    rw [word32At_append_right (by omega), Nat.sub_add_comm h]
  simp only [sixAt, hskip, word32At_append_right h]

@[simp] theorem Six.serialise_length (e : Endian) (x : Six) : (x.serialise e).length = 24 := by simp [Six.serialise]

/-- The record is read back from its bytes, whatever follows them. -/
theorem parse_serialise_append (e : Endian) (r : ConfigRecord) (ys : List Byte) :
    ConfigRecord.parse e (r.serialise e ++ ys) = r := by
  have hcrc (ys : List Byte) : BitVec.ofNat 16 (numberAt e (put16 e r.crc ++ ys) 0 2) = r.crc :=
    ofNat_numberAt_bytesOfNat (by decide) _ _
  have hpreset (v : BitVec 80) (ys : List Byte) :
      BitVec.ofNat 80 (numberAt e (bytesOfNat e 10 v.toNat ++ ys) 0 10) = v :=
    ofNat_numberAt_bytesOfNat (by norm_num) _ _
  simp only [ConfigRecord.parse, ConfigRecord.serialise, List.append_assoc, numberAt_append_right,
    word32At_append_right,
    sixAt_append_right, hcrc, hpreset, word32At_put32, sixAt_serialise, List.getD_append_right, List.getD_append,
    put16_length, put32_length, bytesOfNat_length, Six.serialise_length, List.length_cons, List.length_nil, zero_add,
    Nat.reduceLeDiff, Nat.reduceSub, Nat.reduceAdd, Nat.reduceLT, le_refl, Nat.sub_self, List.getD_cons_zero,
    List.getD_cons_succ]
/-! ### The bytes of a parsed record -/

theorem natOfBytes_lt (e : Endian) (bs : List Byte) : natOfBytes e bs < 256 ^ bs.length := by
  cases e with
  | little => exact natOfLe_lt bs
  | big => simpa [natOfBytes] using natOfLe_lt bs.reverse

theorem bytesOfNat_natOfBytes (e : Endian) (bs : List Byte) : bytesOfNat e bs.length (natOfBytes e bs) = bs := by
  cases e with
  | little => exact leOfNat_natOfLe bs
  | big => rw [bytesOfNat, natOfBytes, ← List.length_reverse, leOfNat_natOfLe, List.reverse_reverse]

section

variable {bs : List Byte} {i : Nat}

theorem bytesOfNat_numberAt {n w : Nat} (hw : 256 ^ n = 2 ^ w) (h : i + n ≤ bs.length) :
    bytesOfNat e n (BitVec.ofNat w (numberAt e bs i n)).toNat = (bs.drop i).take n := by
  have hlen : ((bs.drop i).take n).length = n := by simp; omega
  have hlt := natOfBytes_lt e ((bs.drop i).take n)
  have hback := bytesOfNat_natOfBytes e ((bs.drop i).take n)
  rw [hlen] at hlt hback
  rw [numberAt, BitVec.toNat_ofNat, Nat.mod_eq_of_lt (hw ▸ hlt), hback]

theorem put32_word32At (h : i + 4 ≤ bs.length) : put32 e (word32At e bs i) = (bs.drop i).take 4 :=
  bytesOfNat_numberAt (by decide) h

theorem take_drop_append_drop {α : Type} (xs : List α) {i j n : Nat} (h : i + n = j) :
    (xs.drop i).take n ++ xs.drop j = xs.drop i := by
  rw [← h, ← List.drop_drop, List.take_append_drop]

theorem take_drop_append_take_drop {α : Type} (xs : List α) {i j n : Nat} (h : i + n = j) (k : Nat) :
    (xs.drop i).take n ++ (xs.drop j).take k = (xs.drop i).take (n + k) := by
  rw [← h, ← List.drop_drop, ← List.take_add]

theorem serialise_sixAt (h : i + 24 ≤ bs.length) : (sixAt e bs i).serialise e = (bs.drop i).take 24 := by
  rw [Six.serialise, sixAt, put32_word32At (by omega), put32_word32At (by omega), put32_word32At (by omega),
    put32_word32At (by omega), put32_word32At (by omega), put32_word32At (by omega)]
  simp only [take_drop_append_take_drop]

theorem byte_cons_drop (h : i < bs.length) : [bs.getD i 0] ++ bs.drop (i + 1) = bs.drop i := by
  rw [List.drop_eq_getElem_cons h, List.getD_eq_getElem _ _ h, List.singleton_append]

/-- The record that 111 bytes stand for has these bytes. -/
theorem serialise_parse (h : bs.length = 111) : (ConfigRecord.parse e bs).serialise e = bs := by
  have hcrc : put16 e (BitVec.ofNat 16 (numberAt e bs 0 2)) = (bs.drop 0).take 2 :=
    bytesOfNat_numberAt (by decide) (by omega)
  have hpreset {i : Nat} (hi : i + 10 ≤ bs.length) :
      bytesOfNat e 10 (BitVec.ofNat 80 (numberAt e bs i 10)).toNat = (bs.drop i).take 10 :=
    bytesOfNat_numberAt (by norm_num) hi
  have htail : [bs.getD 107 0, bs.getD 108 0, bs.getD 109 0, bs.getD 110 0] = bs.drop 107 := by
    rw [← byte_cons_drop (by omega), ← byte_cons_drop (by omega), ← byte_cons_drop (by omega),
      ← byte_cons_drop (by omega), List.drop_of_length_le (by omega)]
    rfl
  have hsensor : [bs.getD 6 0] ++ bs.drop 7 = bs.drop 6 := byte_cons_drop (by omega)
  simp only [ConfigRecord.serialise, ConfigRecord.parse]
  simp only [hcrc, hpreset, h, put32_word32At, serialise_sixAt, htail, hsensor, take_drop_append_drop, Nat.reduceAdd,
    Nat.reduceLeDiff, List.drop_zero, List.take_append_drop]

end

/-! ### Pages (R203) -/

theorem page_length (p : Config.Params) (r : ConfigRecord) : (r.page p).length = 1024 := by
  rw [ConfigRecord.page, List.length_append, serialise_length, List.length_replicate]
  rfl

theorem page_setCrc (p : Config.Params) (r : ConfigRecord) (c : Word16) :
    ({ r with crc := c } : ConfigRecord).page p = put16 p.storeEndian c ++ (r.page p).drop 2 := by
  rw [ConfigRecord.page, ConfigRecord.page, serialise_setCrc, List.append_assoc,
    List.drop_append_of_le_length (by rw [serialise_length]; decide)]

/-- The checksum of a page does not depend on the one it holds. -/
theorem drop_page_setCrc (p : Config.Params) (r : ConfigRecord) (c : Word16) :
    (({ r with crc := c } : ConfigRecord).page p).drop 2 = (r.page p).drop 2 := by
  rw [page_setCrc, List.drop_left' (put16_length _ _)]

theorem pageCrc_page_setCrc (p : Config.Params) (r : ConfigRecord) (c : Word16) :
    pageCrc (({ r with crc := c } : ConfigRecord).page p) = pageCrc (r.page p) := by
  rw [pageCrc, drop_page_setCrc, pageCrc]

theorem storedCrc_page_setCrc (p : Config.Params) (r : ConfigRecord) (c : Word16) :
    storedCrc p (({ r with crc := c } : ConfigRecord).page p) = c := by
  rw [storedCrc, page_setCrc, List.take_left' (put16_length _ _), st16_put16]

theorem pageValid_page_withCrc (p : Config.Params) (r : ConfigRecord) : pageValid p ((r.withCrc p).page p) = true :=
  decide_eq_true ((storedCrc_page_setCrc p r _).trans (pageCrc_page_setCrc p r _).symm)

theorem parse_page (p : Config.Params) (r : ConfigRecord) : .parse p.storeEndian (r.page p) = r :=
  parse_serialise_append _ _ _

/-! ### One changed byte (R206) -/

/-- One round of CRC-16/CCITT-FALSE (R115). -/
def ccittRound (r : Word16) : Word16 := if r.getLsbD 15 then (r <<< 1) ^^^ 0x1021#16 else r <<< 1

theorem ccittShift_succ (n : Nat) (r : Word16) : ccittShift (n + 1) r = ccittShift n (ccittRound r) := by
  rw [ccittShift, ccittRound, apply_ite (ccittShift n)]
  rfl

/-- The bit shifted out comes back as the lowest one: the constant is odd. -/
theorem ccittRound_getLsbD_zero (r : Word16) : (ccittRound r).getLsbD 0 = r.getLsbD 15 := by
  rw [ccittRound]
  split
  next h => simpa using h
  next h => simpa using h

theorem ccittRound_injective : Function.Injective ccittRound := by
  intro r r' h
  have htop : r.getLsbD 15 = r'.getLsbD 15 := by
    rw [← ccittRound_getLsbD_zero, ← ccittRound_getLsbD_zero, h]
  have hshift : r <<< 1 = r' <<< 1 := by
    rw [ccittRound, ccittRound, htop] at h
    split at h
    · exact (BitVec.xor_left_inj _).1 h
    · exact h
  ext i hi
  by_cases hlast : i = 15
  · subst hlast
    exact htop
  · have hbit := congrArg (·.getLsbD (i + 1)) hshift
    simpa [show i + 1 < 16 by omega] using hbit

theorem ccittShift_injective (n : Nat) : Function.Injective (ccittShift n) := by
  induction n with
  | zero => exact fun _ _ h => h
  | succ n ih => exact fun r r' h => ccittRound_injective (ih (by rw [← ccittShift_succ, ← ccittShift_succ, h]))

/-- A step is injective in the register and in the byte. -/
theorem ccittStep_left_injective (b : Byte) : Function.Injective (ccittStep · b) :=
  fun _ _ h => (BitVec.xor_left_inj _).1 (ccittShift_injective 8 h)

theorem ccittStep_right_injective (r : Word16) : Function.Injective (ccittStep r) := by
  intro b b' h
  have hshift := (BitVec.xor_right_inj _).1 (ccittShift_injective 8 h)
  ext i hi
  have hbit := congrArg (·.getLsbD (i + 8)) hshift
  simpa [hi, show i + 8 < 16 by omega, show i < 16 by omega] using hbit

theorem crcFrom_ccitt_injective (bs : List Byte) : Function.Injective (crcFrom .ccittFalse · bs) := by
  induction bs with
  | nil => exact fun _ _ h => h
  | cons b bs ih => exact fun _ _ h => ccittStep_left_injective b (ih h)

theorem crc16_set_ne {bs : List Byte} {i : Nat} {b : Byte} (hi : i < bs.length) (hb : b ≠ bs[i]) :
    crc16 .ccittFalse (bs.set i b) ≠ crc16 .ccittFalse bs := by
  intro h
  have hsplit : bs = bs.take i ++ bs[i] :: bs.drop (i + 1) := by
    rw [← List.drop_eq_getElem_cons hi, List.take_append_drop]
  rw [List.set_eq_take_append_cons_drop, if_pos hi] at h
  nth_rw 3 [hsplit] at h
  rw [crc16, crc16, crcFrom_append, crcFrom_append] at h
  exact hb (ccittStep_right_injective _ (crcFrom_ccitt_injective _ h))

theorem st16_injective (e : Endian) {xs ys : List Byte} (hx : xs.length = 2) (hy : ys.length = 2)
    (h : st16 e xs = st16 e ys) : xs = ys := by
  have hback {bs : List Byte} (hlen : bs.length = 2) : put16 e (st16 e bs) = bs := by
    have hbytes := bytesOfNat_natOfBytes e bs
    have hlt : natOfBytes e bs < 256 ^ 2 := hlen ▸ natOfBytes_lt e bs
    rw [hlen] at hbytes
    rw [put16, st16, BitVec.toNat_ofNat, Nat.mod_eq_of_lt (show _ < 2 ^ 16 from hlt), hbytes]
  rw [← hback hx, h, hback hy]

/-- After one byte of a valid page is changed the page is not valid. -/
theorem pageValid_set {page : List Byte} {i : Nat} {b : Byte} (hvalid : pageValid p page = true) (hi : i < page.length)
    (hb : b ≠ page.getD i 0#8) (hlen : 2 ≤ page.length) : pageValid p (page.set i b) = false := by
  rw [List.getD_eq_getElem _ _ hi] at hb
  have heq : storedCrc p page = pageCrc page := of_decide_eq_true hvalid
  refine decide_eq_false fun h => ?_
  by_cases h2 : i < 2
  · have hcrc : pageCrc (page.set i b) = pageCrc page := by rw [pageCrc, pageCrc, List.drop_set, if_pos h2]
    rw [hcrc, ← heq] at h
    have htake := st16_injective _ (by simp; omega) (by simp; omega) h
    have hget := congrArg (·[i]?) htake
    simp [h2, hi] at hget
    exact hb hget
  · have hstored : storedCrc p (page.set i b) = storedCrc p page := by
      rw [storedCrc, storedCrc, List.take_set, List.set_eq_of_length_le (by simp; omega)]
    rw [hstored, heq, pageCrc, pageCrc, List.drop_set, if_neg h2] at h
    exact crc16_set_ne (by simp; omega) (by simpa [show 2 + (i - 2) = i by omega] using hb) h.symm

end

end Sys2Proof.Machine
end

section
/-! O49, O50, O51 (R204 to R206). What `load` and `save` do, by which of their accesses succeed. -/

namespace Sys2Proof.Machine

section

variable {s : State} {r : ConfigRecord} {base : Nat} {torn : List Byte}

/-! ### Accesses -/

/-- The state after an access that used up one event and left this storage (R69). -/
def State.accessed (s : State) (m : Memory) : State := { s.ioTaken with storage := m }

@[simp] theorem accessed_storage (m : Memory) : (s.accessed m).storage = m := rfl
@[simp] theorem accessed_io (m : Memory) : (s.accessed m).io = s.io.tail := rfl
@[simp] theorem accessed_params (m : Memory) : (s.accessed m).params = s.params := rfl
@[simp] theorem ioTaken_storage : s.ioTaken.storage = s.storage := rfl
@[simp] theorem ioTaken_params : s.ioTaken.params = s.params := rfl
@[simp] theorem withChecksum_nextIo (alg : CrcAlg) (bytes : List Byte) :
    (s.withChecksum alg bytes).nextIo = s.nextIo := rfl

/-! ### load (R204) -/

/-- The record of a page, if the page is valid (R203). -/
def recordOfPage (p : Config.Params) (page : List Byte) : Option ConfigRecord :=
  if pageValid p page then some (.parse p.storeEndian page) else none

theorem recordOfPage_of_valid {p : Config.Params} {page : List Byte} (h : pageValid p page = true) :
    recordOfPage p page = some (.parse p.storeEndian page) := if_pos h

theorem recordOfPage_of_not_valid {p : Config.Params} {page : List Byte} (h : pageValid p page = false) :
    recordOfPage p page = none := if_neg (ne_true_of_eq_false h)

/-- The state after a copy has been read and its checksum computed. -/
def State.copyChecked (s : State) (page : List Byte) : State := s.ioTaken.withChecksum .ccittFalse (page.drop 2)

@[simp] theorem copyChecked_storage (page : List Byte) : (s.copyChecked page).storage = s.storage := rfl
@[simp] theorem copyChecked_params (page : List Byte) : (s.copyChecked page).params = s.params := rfl
@[simp] theorem copyChecked_io (page : List Byte) : (s.copyChecked page).io = s.io.tail := rfl

theorem loadCopy_succeeds (hio : s.nextIo = .ok) (hrange : base + 1024 ≤ 2 ^ 32) :
    loadCopy base s = .done (.ok (recordOfPage s.params (Memory.slice s.storage base 1024)))
      (s.copyChecked (Memory.slice s.storage base 1024)) := by
  rw [loadCopy, Config.pageBytes_eq, storageRead_succeeds hio hrange, onOk_ok, crcByUnit_eq, onOk_ok, ← pageCrc,
    withChecksum_params, ioTaken_params]
  by_cases h : pageCrc (Memory.slice s.storage base 1024) = storedCrc s.params (Memory.slice s.storage base 1024)
  · rw [if_pos h, recordOfPage_of_valid (decide_eq_true h.symm), State.copyChecked]
  · rw [if_neg h, recordOfPage_of_not_valid (decide_eq_false (Ne.symm h)), State.copyChecked]

theorem loadCopy_fails (base : Nat) (hio : s.nextIo = .failed torn) :
    loadCopy base s = .done (.error .storage) s.ioTaken := by
  rw [loadCopy, storageRead_fails _ _ hio, onOk_error]

/-- A valid primary copy is taken, and no second access made. -/
theorem configLoad_primary (hio : s.nextIo = .ok) (hvalid : pageValid s.params s.primary = true) :
    configLoad s = .done (.ok (.parse s.params.storeEndian s.primary)) (s.copyChecked s.primary) := by
  have hcopy : loadCopy 0 s = .done (.ok (recordOfPage s.params s.primary)) (s.copyChecked s.primary) :=
    loadCopy_succeeds hio (by decide)
  rw [configLoad, Config.cfgPrimary_eq, hcopy, recordOfPage_of_valid hvalid]
  rfl

theorem configLoad_primary_fails (hio : s.nextIo = .failed torn) :
    configLoad s = .done (.error .storage) s.ioTaken := by
  rw [configLoad, loadCopy_fails _ hio, onOk_error]

/-- Without a valid primary copy the secondary is read. -/
theorem configLoad_not_primary (hio : s.nextIo = .ok) (hvalid : pageValid s.params s.primary = false) :
    configLoad s = (loadCopy 1024 (s.copyChecked s.primary)).onOk fun r s =>
      match r with
      | some r => .done (.ok r) s
      | none => .done (.error .wrongCrc) s := by
  have hcopy : loadCopy 0 s = .done (.ok (recordOfPage s.params s.primary)) (s.copyChecked s.primary) :=
    loadCopy_succeeds hio (by decide)
  rw [configLoad, Config.cfgPrimary_eq, hcopy, recordOfPage_of_not_valid hvalid]
  rfl

/-- The result of `load` when every access succeeds (R204). -/
def State.loadResult (s : State) : Except HostError ConfigRecord :=
  if pageValid s.params s.primary then .ok (.parse s.params.storeEndian s.primary)
  else if pageValid s.params s.secondary then .ok (.parse s.params.storeEndian s.secondary)
  else .error .wrongCrc

theorem loadResult_of_primary (h : pageValid s.params s.primary = true) :
    s.loadResult = .ok (.parse s.params.storeEndian s.primary) := if_pos h

theorem loadResult_of_secondary (h : pageValid s.params s.primary = false)
    (h' : pageValid s.params s.secondary = true) :
    s.loadResult = .ok (.parse s.params.storeEndian s.secondary) := by
  rw [State.loadResult, if_neg (ne_true_of_eq_false h), if_pos h']

theorem loadResult_of_neither (h : pageValid s.params s.primary = false)
    (h' : pageValid s.params s.secondary = false) : s.loadResult = .error .wrongCrc := by
  rw [State.loadResult, if_neg (ne_true_of_eq_false h), if_neg (ne_true_of_eq_false h')]

theorem configLoad_succeeds (hio : s.io = []) : ∃ t, configLoad s = .done s.loadResult t ∧ t.storage = s.storage := by
  have hok := nextIo_of_nil hio
  cases hprimary : pageValid s.params s.primary with
  | true =>
    rw [loadResult_of_primary hprimary, configLoad_primary hok hprimary]
    exact ⟨_, rfl, copyChecked_storage _⟩
  | false =>
    have hok' : (s.copyChecked s.primary).nextIo = .ok := nextIo_of_nil (by rw [copyChecked_io, hio, List.tail_nil])
    have hcopy := loadCopy_succeeds (base := 1024) hok' (by decide)
    rw [copyChecked_storage, copyChecked_params, ← State.secondary] at hcopy
    rw [configLoad_not_primary hok hprimary, hcopy, onOk_ok]
    cases hsecondary : pageValid s.params s.secondary with
    | true =>
      rw [recordOfPage_of_valid hsecondary, loadResult_of_secondary hprimary hsecondary]
      exact ⟨_, rfl, by rw [copyChecked_storage, copyChecked_storage]⟩
    | false =>
      rw [recordOfPage_of_not_valid hsecondary, loadResult_of_neither hprimary hsecondary]
      exact ⟨_, rfl, by rw [copyChecked_storage, copyChecked_storage]⟩

end

/-- Settles O49: the branches of `load`, by the events of its two accesses and the two checks. -/
theorem loadTakesTheFirstValidCopy : Obligations.LoadTakesTheFirstValidCopy := by
  unfold Obligations.LoadTakesTheFirstValidCopy
  intro s e valid
  have hvalid (page : List Byte) : valid page ↔ pageValid s.params page = true := decide_eq_true_iff.symm
  simp only [hvalid, Bool.not_eq_true]
  refine ⟨fun hio => ?_, fun torn rest hio => ?_, fun torn rest hio => ?_⟩
  · obtain ⟨t, hload, hst⟩ := configLoad_succeeds hio
    refine ⟨fun hprimary => ⟨t, ?_, hst⟩, fun hprimary hsecondary => ⟨t, ?_, hst⟩,
      fun hprimary hsecondary => ⟨t, ?_, hst⟩⟩
    · rw [hload, loadResult_of_primary hprimary]
    · rw [hload, loadResult_of_secondary hprimary hsecondary]
    · rw [hload, loadResult_of_neither hprimary hsecondary]
  · exact ⟨_, configLoad_primary_fails (nextIo_of_cons hio), rfl⟩
  · have hok := nextIo_of_cons hio
    have hrest : (s.copyChecked s.primary).io = .failed torn :: rest := by rw [copyChecked_io, hio, List.tail_cons]
    refine ⟨fun hprimary => ⟨_, configLoad_primary hok hprimary, copyChecked_storage _, hrest⟩, fun hprimary => ?_⟩
    rw [configLoad_not_primary hok hprimary, loadCopy_fails _ (nextIo_of_cons hrest), onOk_error]
    exact ⟨_, rfl, by rw [ioTaken_storage, copyChecked_storage]⟩

section

variable {s t : State} {r : ConfigRecord} {page : List Byte} {torn : List Byte}

/-! ### Bytes and slices -/

/-- A byte written inside a slice. -/
theorem slice_write_inside {size a n x : Nat} {m : Memory} {b : Byte} (hm : Memory.wf size m = true) :
    Memory.slice (Memory.write m (a + x) b) a n = (Memory.slice m a n).set x b := by
  refine List.ext_getElem (by simp) fun i hi hi' => ?_
  have hlt : i < n := by simpa using hi
  have hget {m : Memory} (h : i < (Memory.slice m a n).length) : (Memory.slice m a n)[i] = Memory.read m (a + i) := by
    rw [← slice_getD m a n i hlt, List.getD_eq_getElem _ _ h]
  rw [hget hi, read_write hm, List.getElem_set]
  by_cases hx : x = i
  · rw [if_pos (by omega), if_pos hx]
  · rw [if_neg (by omega), if_neg hx, hget]

/-- A byte written outside a slice. -/
theorem slice_write_outside {size a n x : Nat} {m : Memory} {b : Byte} (hm : Memory.wf size m = true)
    (h : x < a ∨ a + n ≤ x) : Memory.slice (Memory.write m x b) a n = Memory.slice m a n :=
  slice_congr fun y _ _ => by rw [read_write hm, if_neg (by omega)]

theorem wf_storage (hwf : s.wf = true) : Memory.wf Config.stCap s.storage = true := ((wf_iff s).1 hwf).2.2

/-! ### save (R205) -/

/-- The storage after both copies of a page have been written. -/
def bothCopies (m : Memory) (page : List Byte) : Memory := Memory.writeAll (Memory.writeAll m 0 page) 1024 page

section

variable {m : Memory} (hm : Memory.wf Config.stCap m = true) (hlen : page.length = 1024)
include hm hlen

theorem writeAll_primary_wf : Memory.wf Config.stCap (Memory.writeAll m 0 page) = true :=
  writeAll_wf hm (by rw [hlen, Config.stCap_eq]; decide)

theorem slice_primary : Memory.slice (Memory.writeAll m 0 page) 0 1024 = page := by
  rw [← hlen]
  exact slice_writeAll hm (by rw [hlen, Config.stCap_eq]; decide)

theorem slice_bothCopies :
    Memory.slice (bothCopies m page) 0 1024 = page ∧ Memory.slice (bothCopies m page) 1024 1024 = page := by
  have hfits : 1024 + page.length ≤ Config.stCap := by rw [hlen, Config.stCap_eq]; decide
  have hm' := writeAll_primary_wf hm hlen
  constructor
  · rw [bothCopies, slice_writeAll_other hm' hfits (.inl le_rfl), slice_primary hm hlen]
  · have hsecond := slice_writeAll hm' hfits
    rwa [hlen] at hsecond

theorem bothCopies_wf : Memory.wf Config.stCap (bothCopies m page) = true :=
  writeAll_wf (writeAll_primary_wf hm hlen) (by rw [hlen, Config.stCap_eq]; decide)

theorem read_writeAll_primary {a : Nat} (ha : 1024 ≤ a) :
    Memory.read (Memory.writeAll m 0 page) a = Memory.read m a :=
  read_writeAll_outside hm (by rw [hlen, Config.stCap_eq]; decide) (.inr (by omega))

theorem read_bothCopies {a : Nat} (ha : 2048 ≤ a) : Memory.read (bothCopies m page) a = Memory.read m a := by
  rw [bothCopies, read_writeAll_outside (writeAll_primary_wf hm hlen) (by rw [hlen, Config.stCap_eq]; decide)
    (.inr (by omega)), read_writeAll_primary hm hlen (by omega)]

end

/-- `save` is the two writes of the page with its checksum; the record keeps the checksum whatever they do. -/
theorem configSave_eq (r : ConfigRecord) (s : State) :
    configSave r s =
      (writeCopies ((r.withCrc s.params).page s.params)
        (s.withChecksum .ccittFalse ((r.page s.params).drop 2))).andThen fun x t =>
          .done ⟨x, r.withCrc s.params⟩ t := by
  rw [configSave, crcByUnit_eq]
  rfl

theorem writeCopies_succeeds (hlen : page.length = 1024) (hio : s.nextIo = .ok) (hio' : s.ioTaken.nextIo = .ok) :
    writeCopies page s = .done (.ok ()) ((s.accessed (Memory.writeAll s.storage 0 page)).accessed
      (bothCopies s.storage page)) := by
  have hsecond : (s.accessed (Memory.writeAll s.storage 0 page)).nextIo = .ok := hio'
  rw [writeCopies, Config.cfgPrimary_eq, Config.cfgSecondary_eq,
    storageWrite_succeeds hio (by rw [hlen]; decide), onOk_ok, ← State.accessed,
    storageWrite_succeeds hsecond (by rw [hlen]; decide), accessed_storage]
  rfl

theorem writeCopies_primary_fails (hio : s.nextIo = .failed torn) :
    writeCopies page s = .done (.error .storage) (s.accessed (tornWrite s.storage 0 page.length torn)) := by
  rw [writeCopies, Config.cfgPrimary_eq, storageWrite_fails _ _ hio, onOk_error]
  rfl

theorem writeCopies_secondary_fails (hlen : page.length = 1024) (hio : s.nextIo = .ok)
    (hio' : s.ioTaken.nextIo = .failed torn) :
    writeCopies page s = .done (.error .storage) ((s.accessed (Memory.writeAll s.storage 0 page)).accessed
      (tornWrite (Memory.writeAll s.storage 0 page) 1024 page.length torn)) := by
  have hsecond : (s.accessed (Memory.writeAll s.storage 0 page)).nextIo = .failed torn := hio'
  rw [writeCopies, Config.cfgPrimary_eq, Config.cfgSecondary_eq,
    storageWrite_succeeds hio (by rw [hlen]; decide), onOk_ok, ← State.accessed, storageWrite_fails _ _ hsecond,
    accessed_storage]
  rfl

theorem drop_page (p : Config.Params) (r : ConfigRecord) :
    (r.page p).drop 2 = (r.serialise p.storeEndian).drop 2 ++ List.replicate 913 p.pagePad :=
  List.drop_append_of_le_length (by rw [serialise_length]; decide)

/-- The page that `save` writes, spelt out (R203, R205). -/
theorem page_withCrc (p : Config.Params) (r : ConfigRecord) :
    (r.withCrc p).page p =
      put16 p.storeEndian (pageCrc (r.page p)) ++ (r.serialise p.storeEndian).drop 2 ++
        List.replicate 913 p.pagePad := by
  rw [ConfigRecord.withCrc, page_setCrc, drop_page, List.append_assoc]

end

/-- Settles O50: `save` is the two writes, and what each leaves is read off the laws of storage. -/
theorem saveWritesBothCopies : Obligations.SaveWritesBothCopies := by
  unfold Obligations.SaveWritesBothCopies
  intro s r hwf e pad c new page
  have hm := wf_storage hwf
  have hc : c = pageCrc (r.page s.params) := by rw [pageCrc, drop_page]
  have hnew : new = r.withCrc s.params := by rw [ConfigRecord.withCrc, ← hc]
  have hpage : page = (r.withCrc s.params).page s.params := by rw [page_withCrc, ← hc]
  have hlen : page.length = 1024 := by rw [hpage, page_length]
  rw [configSave_eq, ← hpage, ← hnew]
  clear_value page new
  refine ⟨hlen, fun hio => ?_, fun torn rest hio => ?_, fun torn rest hio => ?_⟩
  all_goals generalize hu : s.withChecksum _ _ = u
  all_goals
    obtain ⟨hust, huio⟩ : u.storage = s.storage ∧ u.io = s.io := hu ▸ ⟨rfl, rfl⟩
    rw [hio] at huio
  · have hrest : u.ioTaken.nextIo = .ok := nextIo_of_nil (by rw [State.ioTaken, huio, List.tail_nil])
    obtain ⟨hprimary, hsecondary⟩ := slice_bothCopies hm hlen
    rw [writeCopies_succeeds hlen (nextIo_of_nil huio) hrest, hust]
    exact ⟨_, rfl, hprimary, hsecondary, fun _ => read_bothCopies hm hlen⟩
  · rw [writeCopies_primary_fails (nextIo_of_cons huio), hust]
    refine ⟨_, rfl, by rw [accessed_io, huio, List.tail_cons], fun a ha => ?_⟩
    exact read_tornWrite_outside hm (.inr (by omega))
  · have hrest : u.ioTaken.nextIo = .failed torn := nextIo_of_cons (by rw [State.ioTaken, huio, List.tail_cons])
    have hm' := writeAll_primary_wf hm hlen
    rw [writeCopies_secondary_fails hlen (nextIo_of_cons huio) hrest, hust]
    refine ⟨_, rfl, by rw [accessed_io, accessed_io, huio, List.tail_cons, List.tail_cons], ?_, fun a ha => ?_⟩
    · rw [State.primary, accessed_storage,
        slice_congr fun x _ hx => read_tornWrite_outside hm' (.inl (by omega)), slice_primary hm hlen]
    · rw [accessed_storage, read_tornWrite_outside hm' (.inr (by omega)), read_writeAll_primary hm hlen (by omega)]

section

variable {s : State} {r : ConfigRecord} {page : List Byte}

/-- After one byte of a valid copy is changed the copy is not valid (R206). -/
theorem pageValid_slice_write {p : Config.Params} {m : Memory} {base x size : Nat} {b : Byte}
    (hm : Memory.wf size m = true) (hvalid : pageValid p (Memory.slice m base 1024) = true) (hx : x < 1024)
    (hb : b ≠ Memory.read m (base + x)) :
    pageValid p (Memory.slice (Memory.write m (base + x) b) base 1024) = false := by
  have hlen := slice_length m base 1024
  rw [slice_write_inside hm]
  exact pageValid_set hvalid (by omega) (by rwa [slice_getD _ _ _ _ hx]) (by omega)

/-- The state after a `save` whose accesses succeed. -/
theorem configSave_succeeds (hio : s.io = []) : ∃ t, configSave r s = .done ⟨.ok (), r.withCrc s.params⟩ t ∧
    t.storage = bothCopies s.storage ((r.withCrc s.params).page s.params) ∧ t.io = [] ∧ t.params = s.params := by
  have hok : (s.withChecksum .ccittFalse ((r.page s.params).drop 2)).io = [] := hio
  rw [configSave_eq,
    writeCopies_succeeds (page_length _ _) (nextIo_of_nil hok) (nextIo_of_nil (by rw [ioTaken_of_nil hok, hok]))]
  refine ⟨_, rfl, rfl, ?_, rfl⟩
  rw [accessed_io, accessed_io, hok, List.tail_nil, List.tail_nil]

/-! `load` by what the storage holds, with every access succeeding. -/

theorem configLoad_of_primary (hio : s.io = []) (hpage : Memory.slice s.storage 0 1024 = page)
    (hvalid : pageValid s.params page = true) :
    ∃ u, configLoad s = .done (.ok (.parse s.params.storeEndian page)) u := by
  obtain ⟨u, hload, -⟩ := configLoad_succeeds hio
  rw [← State.primary] at hpage
  rw [loadResult_of_primary (by rwa [hpage]), hpage] at hload
  exact ⟨u, hload⟩

theorem configLoad_of_secondary (hio : s.io = [])
    (hbad : pageValid s.params (Memory.slice s.storage 0 1024) = false)
    (hpage : Memory.slice s.storage 1024 1024 = page) (hvalid : pageValid s.params page = true) :
    ∃ u, configLoad s = .done (.ok (.parse s.params.storeEndian page)) u := by
  obtain ⟨u, hload, -⟩ := configLoad_succeeds hio
  rw [← State.secondary] at hpage
  rw [loadResult_of_secondary hbad (by rwa [hpage]), hpage] at hload
  exact ⟨u, hload⟩

theorem configLoad_of_neither (hio : s.io = [])
    (hbad : pageValid s.params (Memory.slice s.storage 0 1024) = false)
    (hbad' : pageValid s.params (Memory.slice s.storage 1024 1024) = false) :
    ∃ u, configLoad s = .done (.error .wrongCrc) u := by
  obtain ⟨u, hload, -⟩ := configLoad_succeeds hio
  rw [loadResult_of_neither hbad hbad'] at hload
  exact ⟨u, hload⟩

end

/-- Settles O51: both copies hold the record's valid page, and a changed byte is in one of them only and makes it not
valid. -/
theorem savedRecordSurvivesOneBadCopy : Obligations.SavedRecordSurvivesOneBadCopy := by
  unfold Obligations.SavedRecordSurvivesOneBadCopy
  intro s r hwf hio
  obtain ⟨t, hsave, hst, htio, hparams⟩ := configSave_succeeds (r := r) hio
  have hlen : ((r.withCrc s.params).page s.params).length = 1024 := page_length _ _
  have hvalid : pageValid s.params ((r.withCrc s.params).page s.params) = true := pageValid_page_withCrc _ _
  have hparse := parse_page s.params (r.withCrc s.params)
  have hm := bothCopies_wf (wf_storage hwf) hlen
  obtain ⟨hprimary, hsecondary⟩ := slice_bothCopies (wf_storage hwf) hlen
  rw [← hst] at hm hprimary hsecondary
  rw [← hparams] at hvalid hparse hprimary hsecondary ⊢
  rw [← hparams] at hsave
  generalize (r.withCrc t.params).page t.params = page at *
  have hbad {i : Nat} {b : Byte} (hi : i < 1024) (hb : b ≠ Memory.read t.storage i) :
      pageValid t.params (Memory.slice (Memory.write t.storage i b) 0 1024) = false := by
    rw [← Nat.zero_add i] at hb ⊢
    exact pageValid_slice_write hm (hprimary ▸ hvalid) hi hb
  refine ⟨t, hsave, ?_, fun i b hi hb => ⟨?_, fun j d hj hj' hd => ?_⟩⟩
  · rw [← hparse]
    exact configLoad_of_primary htio hprimary hvalid
  · rw [← hparse]
    refine configLoad_of_secondary htio (hbad hi hb) ?_ hvalid
    rw [slice_write_outside hm (.inl hi), hsecondary]
  · have hm' : Memory.wf Config.stCap (Memory.write t.storage i b) = true :=
      write_wf hm (by rw [Config.stCap_eq]; omega)
    obtain ⟨x, rfl⟩ := Nat.exists_eq_add_of_le hj
    refine configLoad_of_neither htio ?_ (pageValid_slice_write hm' ?_ (by omega) ?_)
    · rw [slice_write_outside hm' (.inr (by omega))]
      exact hbad hi hb
    · rwa [slice_write_outside hm (.inl hi), hsecondary]
    · rwa [read_write hm, if_neg (by omega)]

end Sys2Proof.Machine
end

section
/-! O53 (R209). `new` selects the ring, puts the stored header into `hb` and loads it. -/

namespace Sys2Proof.Machine

section

variable {g : RingInstance} {s : State}

/-- The state after `RING.SELECT` (R87). -/
def State.selected (s : State) (g : RingInstance) : State :=
  ({ s with capacity := g.capacity, elementSize := g.elementSize }.setFlags false false).answer .ok 0

theorem issueAll_selectCommands (g : RingInstance) (s : State) :
    issueAll (selectCommands g) s = .done (.ok ()) (s.selected g) := by
  have hcap : exec (.regWr Reg.capacity.number g.capacity) s =
      .next (({ s with capacity := g.capacity }.setFlags false false).answer .ok 0) := rfl
  have hes (t : State) : exec (.regWr Reg.elementSize.number g.elementSize) t =
      .next (({ t with elementSize := g.elementSize }.setFlags false false).answer .ok 0) := rfl
  rw [selectCommands, issueAll_cons_of_ok hcap, issueAll_cons_of_ok (hes _)]
  rfl

/-- `HB.LOAD` from an index on, all inside the buffer (R87). -/
theorem issueAll_hbCommands {bs : List Byte} {i : Nat} (h : i + bs.length ≤ 14) (s : State) :
    ∃ r, issueAll (hbCommands i bs) s = .done (.ok ()) ({ s with hb := Memory.writeAll s.hb i bs }.withResp r) := by
  induction bs generalizing s i with
  | nil => exact ⟨s.resp, rfl⟩
  | cons b bs ih =>
    rw [List.length_cons] at h
    have hi : (BitVec.ofNat 8 i).toNat = i := toNat_ofNat_of_lt (by omega)
    have hexec := exec_hbWr_of_lt (s := s) (i := BitVec.ofNat 8 i) b (by omega)
    rw [hbCommands, issueAll_cons_of_ok hexec, hi]
    exact ih (by omega) _

theorem exec_hdrLoad_of_configured (hcap : s.capacity ≠ 0) (hes : s.elementSize ≠ 0) :
    exec .hdrLoad s = loadHeader s := by
  change requireConfigured loadHeader s = _
  rw [requireConfigured_eq_ite, if_neg (not_or.2 ⟨hcap, hes⟩)]

theorem loadHeader_of_match (h : hdrCrc s.params s.image = (hdrDecode s.params s.image).crc) :
    let f := hdrDecode s.params s.image
    loadHeader s = .next
      ((({ s with hCrc := f.crc }.setHeader f.size f.off f.time).setFlags true true).answer .ok 0) :=
  if_pos h

theorem loadHeader_of_mismatch (h : hdrCrc s.params s.image ≠ (hdrDecode s.params s.image).crc) :
    loadHeader s = .next
      ((({ s with hCrc := (hdrDecode s.params s.image).crc }.setHeader 0 0 0).setFlags true false).answer .ok 0) :=
  if_neg h

/-- What `new` leaves: the ring selected and loaded with these header fields, the storage as it was (R209). -/
structure Opened (g : RingInstance) (size off time : Word32) (s t : State) : Prop where
  capacity : t.capacity = g.capacity
  element_size : t.elementSize = g.elementSize
  loaded : t.loaded = true
  storage : t.storage = s.storage
  size : t.hSize = size
  off : t.hOff = off
  time : t.hTime = time

theorem header_inStorage (hg : g.Valid) : g.hdrAddr + 14 ≤ 2 ^ 32 := hg.hdr_high.trans hg.region_fits

/-- `new` up to `HDR.LOAD`, the stored image in `hb`. -/
theorem ringNew_reads (hg : g.Valid) (hhb : Memory.wf 14 s.hb = true) (hio : s.nextIo = .ok) :
    ∃ u, ringNew g s = issueAll [.hdrLoad] u ∧ u.image = Memory.slice s.storage g.hdrAddr 14 ∧
      u.capacity = g.capacity ∧ u.elementSize = g.elementSize ∧ u.storage = s.storage ∧ u.params = s.params := by
  have hread := storageRead_succeeds (s := s.selected g) (a := g.hdrAddr) (n := 14) hio (header_inStorage hg)
  have hlen := slice_length s.storage g.hdrAddr 14
  obtain ⟨r, hload⟩ := issueAll_hbCommands (i := 0) (bs := Memory.slice s.storage g.hdrAddr 14) (by omega)
    (s.selected g).ioTaken
  refine ⟨{ (s.selected g).ioTaken with
    hb := Memory.writeAll s.hb 0 (Memory.slice s.storage g.hdrAddr 14) }.withResp r, ?_, ?_, rfl, rfl, rfl, rfl⟩
  · rw [ringNew, issueAll_selectCommands, onOk_ok, Config.hdrBytes_eq, hread, andThen_done]
    dsimp only
    rw [issueAll_append]
    exact congrArg (ProcResult.onOk · fun _ s => issueAll [.hdrLoad] s) hload
  have hback := slice_writeAll (a := 0) hhb (bs := Memory.slice s.storage g.hdrAddr 14) (by omega)
  rwa [hlen] at hback

theorem ringNew_of_match (hg : g.Valid) (hhb : Memory.wf 14 s.hb = true) (hio : s.nextIo = .ok)
    {img : List Byte} (himg : Memory.slice s.storage g.hdrAddr 14 = img)
    (h : hdrCrc s.params img = (hdrDecode s.params img).crc) :
    let f := hdrDecode s.params img
    ∃ t, ringNew g s = .done (.ok ()) t ∧ Opened g f.size f.off f.time s t ∧ t.crcOk = true := by
  obtain ⟨u, hnew, huimg, hcap, hes, hst, hp⟩ := ringNew_reads hg hhb hio
  rw [himg] at huimg
  rw [← hp, ← huimg] at h ⊢
  have hexec := (exec_hdrLoad_of_configured (hcap ▸ hg.capacity_ne) (hes ▸ hg.element_ne)).trans (loadHeader_of_match h)
  rw [hnew, issueAll_cons_of_ok hexec]
  exact ⟨_, rfl, ⟨hcap, hes, rfl, hst, rfl, rfl, rfl⟩, rfl⟩

theorem ringNew_of_mismatch (hg : g.Valid) (hhb : Memory.wf 14 s.hb = true) (hio : s.nextIo = .ok)
    {img : List Byte} (himg : Memory.slice s.storage g.hdrAddr 14 = img)
    (h : hdrCrc s.params img ≠ (hdrDecode s.params img).crc) :
    ∃ t, ringNew g s = .done (.ok ()) t ∧ Opened g 0 0 0 s t ∧ t.crcOk = false := by
  obtain ⟨u, hnew, huimg, hcap, hes, hst, hp⟩ := ringNew_reads hg hhb hio
  rw [himg] at huimg
  rw [← hp, ← huimg] at h
  have hexec :=
    (exec_hdrLoad_of_configured (hcap ▸ hg.capacity_ne) (hes ▸ hg.element_ne)).trans (loadHeader_of_mismatch h)
  rw [hnew, issueAll_cons_of_ok hexec]
  exact ⟨_, rfl, ⟨hcap, hes, rfl, hst, rfl, rfl, rfl⟩, rfl⟩

/-- A failed read of the header gives the empty ring, by `HDR.RESET`. -/
theorem ringNew_of_failed_read {torn : List Byte} (hg : g.Valid) (hio : s.nextIo = .failed torn) :
    ∃ t, ringNew g s = .done (.ok ()) t ∧ Opened g 0 0 0 s t := by
  have hread := storageRead_fails (s := s.selected g) g.hdrAddr 14 hio
  have hreset : exec .hdrReset (s.selected g).ioTaken =
      .next ((((s.selected g).ioTaken.setHeader 0 0 0).setFlags true false).answer .ok 0) :=
    (exec_hdrReset_eq_ite _).trans (if_neg (not_or.2 ⟨hg.capacity_ne, hg.element_ne⟩))
  rw [ringNew, issueAll_selectCommands, onOk_ok, Config.hdrBytes_eq, hread, andThen_done]
  dsimp only
  rw [issueAll_cons_of_ok hreset]
  exact ⟨_, rfl, ⟨rfl, rfl, rfl, by simp [State.selected], rfl, rfl, rfl⟩⟩

end

/-- Settles O53: the three ways `new` can go, by the event of its one read and the check of the header's CRC. -/
theorem newReadsTheStoredHeader : Obligations.NewReadsTheStoredHeader := by
  unfold Obligations.NewReadsTheStoredHeader
  intro g s hg hwf img f
  obtain ⟨-, hhb, -⟩ := (wf_iff s).1 hwf
  refine ⟨fun hio => ?_, fun torn rest hio => ?_⟩
  · by_cases h : crc16 s.params.hdrCrcAlg (img.take 12) = f.crc
    · obtain ⟨t, hnew, ht, hok⟩ := ringNew_of_match hg hhb (nextIo_of_nil hio) rfl h
      exact ⟨t, hnew, ht.capacity, ht.element_size, ht.loaded, ht.storage, fun _ => ⟨ht.size, ht.off, ht.time, hok⟩,
        fun hne => absurd h hne⟩
    · obtain ⟨t, hnew, ht, hok⟩ := ringNew_of_mismatch hg hhb (nextIo_of_nil hio) rfl h
      exact ⟨t, hnew, ht.capacity, ht.element_size, ht.loaded, ht.storage, fun heq => absurd heq h,
        fun _ => ⟨ht.size, ht.off, ht.time, hok⟩⟩
  · obtain ⟨t, hnew, ht⟩ := ringNew_of_failed_read hg (nextIo_of_cons hio)
    exact ⟨t, hnew, ht.capacity, ht.element_size, ht.loaded, ht.storage, ht.size, ht.off, ht.time⟩

end Sys2Proof.Machine
end

section
/-! The writes of an `add` (R211 to R214), as a list of ranges and bytes: where they stand, what storage holds after the
first of them, and what is left when one more is torn (U9). No command is run here. -/

namespace Sys2Proof.Machine

/-- A ring is selected and loaded, its header in range (R200, R209, R212); of `RingReady` all but that every
storage access succeeds. -/
structure RingSelected (g : RingInstance) (s : State) : Prop where
  capacity : s.capacity = g.capacity
  element_size : s.elementSize = g.elementSize
  loaded : s.loaded = true
  off_lt : s.hOff.toNat < g.capacity.toNat
  size_le : s.hSize.toNat ≤ g.capacity.toNat
  spaces : s.wf = true

/-- The write `n` of an `add`, counted from 0: even ones are slots, odd ones headers (R211). -/
def addWrite (g : RingInstance) (s : State) (q : Nat) (value : Word32) (n : Nat) : Nat × List Byte :=
  if n % 2 = 0 then
    (g.slotAddr (s.addRound q value (n / 2)).off, put32 s.params.storeEndian (s.addRound q value (n / 2)).value)
  else (g.hdrAddr, (s.addRound q value (n / 2)).image s.params)

/-- The storage after the first `n` writes of an `add`. -/
def addMemory (g : RingInstance) (s : State) (q : Nat) (value : Word32) : Nat → Memory
  | 0 => s.storage
  | n + 1 => Memory.writeAll (addMemory g s q value n) (addWrite g s q value n).1 (addWrite g s q value n).2

section

variable {g : RingInstance} {s : State} {q : Nat} {value : Word32} {n i j : Nat}

theorem RingReady.selected {e : List IoEvent} (h : RingReady g { s with io := e }) : RingSelected g s :=
  ⟨h.capacity, h.element_size, h.loaded, h.off_lt, h.size_le, h.spaces⟩

theorem RingInstance.Valid.capacity_pos (hg : g.Valid) : 0 < g.capacity.toNat :=
  BitVec.toNat_pos_of_ne_zero hg.capacity_ne

theorem RingInstance.Valid.element_pos (hg : g.Valid) : 0 < g.elementSize.toNat :=
  BitVec.toNat_pos_of_ne_zero hg.element_ne

/-! ### Slices after a write -/

theorem slice_writeAll_of_length {size a n : Nat} {m : Memory} {bs : List Byte} (hn : bs.length = n)
    (hm : Memory.wf size m = true) (ha : a + n ≤ size) : Memory.slice (Memory.writeAll m a bs) a n = bs := by
  subst hn
  exact slice_writeAll hm ha

/-- A torn write puts its bytes in front of the rest of the range (U9). -/
theorem slice_tornWrite {a n : Nat} {m : Memory} {torn : List Byte} (ha : a + n ≤ Config.stCap)
    (hm : Memory.wf Config.stCap m = true) :
    Memory.slice (tornWrite m a n torn) a n = torn.take n ++ (Memory.slice m a n).drop (torn.take n).length := by
  have hlen : (torn.take n).length ≤ n := List.length_take_le _ _
  obtain ⟨k, hk⟩ := Nat.exists_eq_add_of_le hlen
  rw [tornWrite, Nat.min_eq_left (by omega)]
  generalize torn.take n = front at *
  have hsplit (m : Memory) :
      Memory.slice m a n = Memory.slice m a front.length ++ Memory.slice m (a + front.length) k :=
    hk ▸ slice_append m a front.length k
  rw [hsplit, hsplit, slice_writeAll hm (by omega), List.drop_left' (slice_length _ _ _),
    slice_writeAll_other hm (by omega) (.inr le_rfl)]

/-! ### Slots and rounds -/

theorem slotBack_lt (hcap : 0 < s.capacity.toNat) (j : Nat) : s.slotBack j < s.capacity.toNat := by
  have hlt := Int.emod_lt_of_pos ((s.hOff.toNat : Int) - (j : Int)) (b := (s.capacity.toNat : Int)) (by omega)
  rw [State.slotBack]
  omega

theorem slotBack_zero (h : s.hOff.toNat < s.capacity.toNat) : s.slotBack 0 = s.hOff.toNat := by
  rw [State.slotBack, Nat.cast_zero, Int.sub_zero, ← Int.natCast_emod, Int.toNat_natCast, Nat.mod_eq_of_lt h]

/-- The held buckets have slots of their own. -/
theorem slotBack_ne (hcap : 0 < s.capacity.toNat) (hij : i < j) (hj : j < s.capacity.toNat) :
    s.slotBack i ≠ s.slotBack j := by
  intro h
  have hpos : (0 : Int) < s.capacity.toNat := by omega
  have hmod (k : Nat) : ((s.slotBack k : Nat) : Int) = ((s.hOff.toNat : Int) - k) % s.capacity.toNat := by
    rw [State.slotBack, Int.toNat_of_nonneg (Int.emod_nonneg _ hpos.ne')]
  have hsame : ((s.hOff.toNat : Int) - i) % s.capacity.toNat = ((s.hOff.toNat : Int) - j) % s.capacity.toNat := by
    rw [← hmod, ← hmod, h]
  have hdvd := Int.dvd_of_emod_eq_zero (Int.emod_eq_emod_iff_emod_sub_eq_zero.1 hsame)
  have hle := Int.le_of_dvd (by omega) hdvd
  omega

/-! ### Where the writes stand -/

theorem addWrite_slot (g : RingInstance) (s : State) (q : Nat) (value : Word32) (i : Nat) :
    addWrite g s q value (2 * i) = (g.slotAddr (s.addRound q value i).off,
      put32 s.params.storeEndian (s.addRound q value i).value) := by
  rw [addWrite, if_pos (by omega), Nat.mul_div_cancel_left i (by decide)]

theorem addWrite_header (g : RingInstance) (s : State) (q : Nat) (value : Word32) (i : Nat) :
    addWrite g s q value (2 * i + 1) = (g.hdrAddr, (s.addRound q value i).image s.params) := by
  rw [addWrite, if_neg (by omega), show (2 * i + 1) / 2 = i by omega]

theorem addRound_image_length (p : Config.Params) (r : AddRound) : (r.image p).length = 14 := hdrEncode_length _ _ _ _

/-- A byte outside the header and the slots of the rounds begun is outside the range of a write. -/
theorem addWrite_outside {a : Nat} (hhdr : a < g.hdrAddr ∨ g.hdrAddr + 14 ≤ a)
    (hslots : ∀ i, 2 * i ≤ n →
      a < g.slotAddr (s.addRound q value i).off ∨ g.slotAddr (s.addRound q value i).off + 4 ≤ a) :
    a < (addWrite g s q value n).1 ∨ (addWrite g s q value n).1 + (addWrite g s q value n).2.length ≤ a := by
  obtain ⟨i, rfl | rfl⟩ := Nat.even_or_odd' n
  · rw [addWrite_slot, put32_length]
    exact hslots i le_rfl
  · rwa [addWrite_header, addRound_image_length]

section

variable (hg : g.Valid) (hs : RingSelected g s)
include hg hs

theorem addRound_off_lt : (s.addRound q value i).off < g.capacity.toNat := by
  have hcap : 0 < s.capacity.toNat := hs.capacity ▸ hg.capacity_pos
  rw [State.addRound, ← hs.capacity]
  split
  · exact hcap
  · split
    · exact Nat.mod_lt _ hcap
    · exact slotBack_lt hcap _

/-- Two rounds of an `add` write two slots: only a gap forward has more than one, and it is shorter than the ring. -/
theorem addRound_off_ne (hij : i < j) (hj : j < s.addRounds q) :
    (s.addRound q value i).off ≠ (s.addRound q value j).off := by
  have hcap : 0 < s.capacity.toNat := hs.capacity ▸ hg.capacity_pos
  rw [State.addRounds] at hj
  split at hj
  next => omega
  next hafresh =>
    have hahead : s.bucketsAhead q < s.capacity.toNat := by
      simp only [State.startsAfresh, Bool.or_eq_true, decide_eq_true_eq, not_or] at hafresh
      omega
    have hpos : 0 < s.bucketsAhead q := by omega
    simp only [State.addRound, if_neg hafresh, if_pos hpos]
    intro h
    have hmod : s.hOff.toNat + i + 1 ≡ s.hOff.toNat + j + 1 [MOD s.capacity.toNat] := h
    have hdvd := (Nat.modEq_iff_dvd' (by omega)).1 hmod
    have hle := Nat.le_of_dvd (by omega) hdvd
    omega

/-- The range of a write of an `add` is inside the storage. -/
theorem addWrite_inStorage (n : Nat) :
    (addWrite g s q value n).1 + (addWrite g s q value n).2.length ≤ Config.stCap := by
  have hregion := hg.region_fits
  obtain ⟨i, rfl | rfl⟩ := Nat.even_or_odd' n
  · have hslot := hg.slot_high _ (addRound_off_lt (q := q) (value := value) (i := i) hg hs)
    rw [addWrite_slot, put32_length]
    exact hslot.trans hregion
  · rw [addWrite_header, addRound_image_length]
    exact hg.hdr_high.trans hregion

/-- A slot written before is not touched by the later writes of the same `add`. -/
theorem addWrite_disjoint_slot (hi : 2 * i < n) (hn : n < 2 * s.addRounds q) :
    g.slotAddr (s.addRound q value i).off + 4 ≤ (addWrite g s q value n).1 ∨
      (addWrite g s q value n).1 + (addWrite g s q value n).2.length ≤ g.slotAddr (s.addRound q value i).off := by
  have hoff : (s.addRound q value i).off < g.capacity.toNat := addRound_off_lt hg hs
  obtain ⟨j, rfl | rfl⟩ := Nat.even_or_odd' n
  · rw [addWrite_slot, put32_length]
    exact hg.slot_slot _ _ hoff (addRound_off_lt hg hs) (addRound_off_ne hg hs (by omega) (by omega))
  · rw [addWrite_header, addRound_image_length]
    exact hg.slot_hdr _ hoff

/-- No slot write touches the header. -/
theorem addWrite_slot_disjoint_header (i : Nat) :
    (addWrite g s q value (2 * i)).1 + (addWrite g s q value (2 * i)).2.length ≤ g.hdrAddr ∨
      g.hdrAddr + 14 ≤ (addWrite g s q value (2 * i)).1 := by
  rw [addWrite_slot, put32_length]
  exact hg.slot_hdr _ (addRound_off_lt hg hs)

/-! ### The storage after the first writes -/

theorem addMemory_wf (n : Nat) : Memory.wf Config.stCap (addMemory g s q value n) = true := by
  induction n with
  | zero => exact wf_storage hs.spaces
  | succ n ih => exact writeAll_wf ih (addWrite_inStorage hg hs n)

/-- Bytes outside the header and the slots of the rounds begun stay. -/
theorem read_addMemory_outside {a : Nat} (hhdr : a < g.hdrAddr ∨ g.hdrAddr + 14 ≤ a)
    (hslots : ∀ i, 2 * i < n →
      a < g.slotAddr (s.addRound q value i).off ∨ g.slotAddr (s.addRound q value i).off + 4 ≤ a) :
    Memory.read (addMemory g s q value n) a = Memory.read s.storage a := by
  induction n with
  | zero => rfl
  | succ n ih =>
    have hout := addWrite_outside hhdr (n := n) fun i hi => hslots i (by omega)
    rw [addMemory, read_writeAll_outside (addMemory_wf hg hs n) (addWrite_inStorage hg hs n) hout]
    exact ih fun i hi => hslots i (by omega)

/-- Every slot written holds its round's value. -/
theorem slice_addMemory_slot (hi : 2 * i < n) (hn : n ≤ 2 * s.addRounds q) :
    Memory.slice (addMemory g s q value n) (g.slotAddr (s.addRound q value i).off) 4 =
      put32 s.params.storeEndian (s.addRound q value i).value := by
  induction n with
  | zero => omega
  | succ n ih =>
    have hm := addMemory_wf (q := q) (value := value) hg hs n
    have hfits := addWrite_inStorage (q := q) (value := value) hg hs n
    rw [addMemory]
    by_cases hlast : n = 2 * i
    · subst hlast
      rw [addWrite_slot, put32_length] at hfits
      rw [addWrite_slot]
      exact slice_writeAll_of_length (put32_length _ _) hm hfits
    · have hdisj := addWrite_disjoint_slot (q := q) (value := value) hg hs (i := i) (n := n) (by omega) (by omega)
      rw [slice_writeAll_other hm hfits hdisj]
      exact ih (by omega) (by omega)

/-- The stored header is that of the last round whose header was written. -/
theorem slice_addMemory_header (n : Nat) :
    Memory.slice (addMemory g s q value n) g.hdrAddr 14 =
      if n < 2 then Memory.slice s.storage g.hdrAddr 14
      else (s.addRound q value (n / 2 - 1)).image s.params := by
  induction n with
  | zero => rfl
  | succ n ih =>
    have hm := addMemory_wf (q := q) (value := value) hg hs n
    have hfits := addWrite_inStorage (q := q) (value := value) hg hs n
    rw [addMemory]
    obtain ⟨i, rfl | rfl⟩ := Nat.even_or_odd' n
    · rw [slice_writeAll_other hm hfits (addWrite_slot_disjoint_header hg hs i).symm, ih,
        show (2 * i + 1) / 2 = 2 * i / 2 by omega]
      exact if_congr (by omega) rfl rfl
    · rw [addWrite_header, addRound_image_length] at hfits
      rw [addWrite_header, if_neg (by omega), show (2 * i + 1 + 1) / 2 - 1 = i by omega]
      exact slice_writeAll_of_length (addRound_image_length _ _) hm hfits

/-- What an `add` leaves that is stopped at its write `n` (U9). -/
theorem addStopped_tornWrite (torn : List Byte) (hn : n < 2 * s.addRounds q) :
    AddStopped g s q value n torn
      (tornWrite (addMemory g s q value n) (addWrite g s q value n).1 (addWrite g s q value n).2.length torn) := by
  have hm := addMemory_wf (q := q) (value := value) hg hs n
  constructor
  case slots =>
    intro i hi
    have hdisj := addWrite_disjoint_slot (value := value) hg hs hi hn
    rw [slice_congr fun x _ _ => read_tornWrite_outside hm (by omega), slice_addMemory_slot hg hs hi hn.le]
  case header =>
    intro whole front
    have hwhole : Memory.slice (addMemory g s q value n) g.hdrAddr 14 = whole := slice_addMemory_header hg hs n
    have hhdr := hg.hdr_high.trans hg.region_fits
    obtain ⟨i, rfl | rfl⟩ := Nat.even_or_odd' n
    · have hdisj := addWrite_slot_disjoint_header (q := q) (value := value) hg hs i
      have hfront : front = [] := if_neg (by omega)
      rw [slice_congr fun x _ _ => read_tornWrite_outside hm (by omega), hwhole, hfront]
      rfl
    · have hfront : front = torn.take 14 := if_pos (by omega)
      rw [addWrite_header, addRound_image_length, slice_tornWrite hhdr hm, hwhole, hfront]
  case frame =>
    intro a hhdr hslots
    rw [read_tornWrite_outside hm (addWrite_outside hhdr hslots)]
    exact read_addMemory_outside hg hs hhdr fun i hi => hslots i hi.le

end

end

end Sys2Proof.Machine
end

section
/-! An `add` as its commands run it (R211 to R214). Each round moves the header and makes two writes; what has been done
when a write is reached is said by `AddAt`, and where the procedure stops or ends by `RunsTo`, which the rounds compose.
The write that is reached stands in the outcome as it is, so that its event decides how the `add` goes on. -/

namespace Sys2Proof.Machine

/-- The state with everything blanked that an `add` may change; the rest is what it leaves. -/
def State.blankRing (s : State) : State :=
  { s with
    hSize := 0, hOff := 0, hTime := 0, hCrc := 0, loaded := false, hb := [], resp := none, storage := [], io := [] }

/-- A state that an `add` begun in `s` reaches after its first `n` writes. -/
structure AddAt (g : RingInstance) (s : State) (q : Nat) (value : Word32) (n : Nat) (u : State) : Prop where
  storage : u.storage = addMemory g s q value n
  io : u.io = s.io.drop n
  hb_wf : Memory.wf 14 u.hb = true
  loaded : u.loaded = true
  rest : u.blankRing = s.blankRing

/-- The header registers hold a round's header. -/
structure HeaderAt (r : AddRound) (u : State) : Prop where
  size : u.hSize.toNat = r.size
  off : u.hOff.toNat = r.off
  time : u.hTime.toNat = r.time

/-- A procedure that comes to the write `n` of an `add`, with the header of its round in the registers. -/
def ReachesWrite (g : RingInstance) (s : State) (q : Nat) (value : Word32) (n : Nat)
    (p : ProcResult (Except HostError Unit)) : Prop :=
  ∃ u k, p = (storageWrite (addWrite g s q value n).1 (addWrite g s q value n).2 u).onOk k ∧
    AddAt g s q value n u ∧ HeaderAt (s.addRound q value (n / 2)) u

/-- A procedure that makes the first `k` rounds of an `add`, if its first `n` accesses succeed: it comes to the write
`n`, or if that is in none of these rounds, it ends after them. -/
def RunsTo (g : RingInstance) (s : State) (q : Nat) (value : Word32) (n k : Nat)
    (p : ProcResult (Except HostError Unit)) : Prop :=
  (n < 2 * k ∧ ReachesWrite g s q value n p) ∨
    (2 * k ≤ n ∧ ∃ u, p = .done (.ok ()) u ∧ AddAt g s q value (2 * k) u ∧ HeaderAt (s.addRound q value (k - 1)) u)

section

variable {g : RingInstance} {s u t : State} {q n i k : Nat} {value : Word32}

/-! ### States of an `add` -/

namespace AddAt

theorem params_eq (h : AddAt g s q value n u) : u.params = s.params := (congrArg State.params h.rest :)

theorem capacity_eq (h : AddAt g s q value n u) : u.capacity = s.capacity := (congrArg State.capacity h.rest :)

theorem elementSize_eq (h : AddAt g s q value n u) : u.elementSize = s.elementSize :=
  (congrArg State.elementSize h.rest :)

theorem fb_eq (h : AddAt g s q value n u) : u.fb = s.fb := (congrArg State.fb h.rest :)

theorem nextIo_eq (h : AddAt g s q value n u) : u.nextIo = s.io.getD n .ok := by
  rw [State.nextIo, h.io, List.headD_eq_head?_getD, List.head?_drop, List.getD_eq_getElem?_getD]

theorem ready (h : AddAt g s q value n u) (hg : g.Valid) (hs : RingSelected g s) : ¬ u.notReady := by
  rw [State.notReady, h.capacity_eq, h.elementSize_eq, h.loaded, hs.capacity, hs.element_size]
  exact not_or.2 ⟨hg.capacity_ne, not_or.2 ⟨hg.element_ne, Bool.noConfusion⟩⟩

theorem withResp (h : AddAt g s q value n u) (r : Option Response) : AddAt g s q value n (u.withResp r) :=
  ⟨h.storage, h.io, h.hb_wf, h.loaded, h.rest⟩

/-- Moving the header makes no write. -/
theorem of_movesHeader {size off time : Nat} (h : AddAt g s q value n u) (hmove : MovesHeader size off time u t) :
    AddAt g s q value n t where
  storage := (congrArg State.storage hmove.rest).trans h.storage
  io := (congrArg State.io hmove.rest).trans h.io
  hb_wf := (congrArg (Memory.wf 14 ·.hb) hmove.rest).trans h.hb_wf
  loaded := hmove.loaded_eq.trans h.loaded
  rest := (congrArg State.blankRing hmove.rest).trans h.rest

/-- One more write. -/
theorem accessed (h : AddAt g s q value n u) :
    AddAt g s q value (n + 1)
      (u.accessed (Memory.writeAll u.storage (addWrite g s q value n).1 (addWrite g s q value n).2)) where
  storage := by rw [accessed_storage, h.storage, addMemory]
  io := by rw [accessed_io, h.io, List.tail_drop]
  hb_wf := h.hb_wf
  loaded := h.loaded
  rest := h.rest

end AddAt

theorem addAt_zero (hs : RingSelected g s) : AddAt g s q value 0 s :=
  ⟨rfl, rfl, ((wf_iff s).1 hs.spaces).2.1, hs.loaded, rfl⟩

/-! ### Outcomes -/

/-- What a procedure goes on to do after the write that is reached makes no difference to reaching it. -/
theorem ReachesWrite.onOk {p : ProcResult (Except HostError Unit)} (h : ReachesWrite g s q value n p)
    (f : Unit → State → ProcResult (Except HostError Unit)) : ReachesWrite g s q value n (p.onOk f) := by
  obtain ⟨u, k, rfl, hat, hhdr⟩ := h
  exact ⟨u, _, onOk_assoc _ _ _, hat, hhdr⟩

theorem onOk_done (p : ProcResult (Except HostError Unit)) : (p.onOk fun _ s => .done (.ok ()) s) = p := by
  cases p with
  | done a s => cases a <;> rfl
  | crashed | faulted | refused => rfl

/-- After the first `i` rounds the others. -/
theorem RunsTo.onOk {p : ProcResult (Except HostError Unit)} {f : Unit → State → ProcResult (Except HostError Unit)}
    (h : RunsTo g s q value n i p) (hik : i ≤ k)
    (hf : ∀ u, 2 * i ≤ n → AddAt g s q value (2 * i) u → HeaderAt (s.addRound q value (i - 1)) u →
      RunsTo g s q value n k (f () u)) : RunsTo g s q value n k (p.onOk f) := by
  obtain ⟨hn, hreach⟩ | ⟨hn, u, rfl, hat, hhdr⟩ := h
  · exact .inl ⟨by omega, hreach.onOk f⟩
  · exact hf u hn hat hhdr

/-! ### One round (R211) -/

/-- The image buffer read out (R87 `HB.DUMP`). -/
theorem issueReads_hbRd (s : State) :
    ∃ r, issueReads (commandsUpTo .hbRd 14) s = .done (.ok (Memory.slice s.hb 0 14)) (s.withResp r) := by
  refine issueReads_commandsUpTo fun i hi r => ?_
  have hlt : (BitVec.ofNat 8 i).toNat = i := toNat_ofNat_of_lt (by omega)
  rw [exec_hbRd_of_lt (by omega), hlt, Nat.zero_add]
  rfl

/-- `persist_header()` comes to its write, with the image of the header registers. -/
theorem persistHeader_eq (hready : ¬ u.notReady) (hat : AddAt g s q value n u) :
    ∃ w, persistHeader g u = storageWrite g.hdrAddr (hdrEncode u.params u.hSize u.hOff u.hTime) w ∧
      AddAt g s q value n w ∧ w.hSize = u.hSize ∧ w.hOff = u.hOff ∧ w.hTime = u.hTime := by
  have hlen := hdrEncode_length u.params u.hSize u.hOff u.hTime
  obtain ⟨r, hdump⟩ := issueReads_hbRd ({ u with
      hb := Memory.writeAll u.hb 0 (hdrEncode u.params u.hSize u.hOff u.hTime)
      hCrc := crc16 u.params.hdrCrcAlg (hdrBody u.params u.hSize u.hOff u.hTime) }.answer .ok 0)
  rw [answer_hb, slice_writeAll_of_length hlen hat.hb_wf le_rfl] at hdump
  rw [persistHeader, issueOk_of_ok (exec_hdrSeal_of_ready hready), onOk_ok, Config.hdrBytes_eq, hdump, onOk_ok]
  exact ⟨_, rfl, ⟨hat.storage, hat.io, writeAll_wf hat.hb_wf (by omega), hat.loaded, hat.rest⟩, rfl, rfl, rfl⟩

theorem HeaderAt.image_eq {r : AddRound} (h : HeaderAt r u) (p : Config.Params) :
    hdrEncode p u.hSize u.hOff u.hTime = r.image p := by
  rw [AddRound.image, ← h.size, ← h.off, ← h.time]
  simp only [BitVec.ofNat_toNat, BitVec.setWidth_eq]

/-- A slot write and the header after it, with the header of the round in the registers. -/
theorem writeAndPersist_runsTo (hg : g.Valid) (hs : RingSelected g s) (hio : ∀ j < n, s.io.getD j .ok = .ok)
    (hi : 2 * i ≤ n) (hat : AddAt g s q value (2 * i) u) (hhdr : HeaderAt (s.addRound q value i) u) :
    RunsTo g s q value n (i + 1)
      (writeAndPersist g (s.addRound q value i).off (s.addRound q value i).value u) := by
  have hslot : writeAndPersist g (s.addRound q value i).off (s.addRound q value i).value u =
      (storageWrite (addWrite g s q value (2 * i)).1 (addWrite g s q value (2 * i)).2 u).onOk
        fun _ s => persistHeader g s := by
    rw [writeAndPersist, writeSlot, addWrite_slot, hat.params_eq]
  have hdiv : 2 * i / 2 = i := by omega
  by_cases hfirst : n = 2 * i
  · subst hfirst
    exact .inl ⟨by omega, u, _, hslot, hat, by rwa [hdiv]⟩
  have hslotOk := storageWrite_succeeds (hat.nextIo_eq.trans (hio _ (by omega)))
    ((addWrite_inStorage (q := q) (value := value) hg hs (2 * i)).trans (by rw [Config.stCap_eq]; decide))
  have hat' := hat.accessed
  obtain ⟨w, hpersist, hw, hsize, hoff, htime⟩ := persistHeader_eq (hat'.ready hg hs) hat'
  have hwhdr : HeaderAt (s.addRound q value i) w := ⟨hsize ▸ hhdr.size, hoff ▸ hhdr.off, htime ▸ hhdr.time⟩
  have himage := hwhdr.image_eq s.params
  rw [hslot, hslotOk, onOk_ok, ← State.accessed, hpersist, hat'.params_eq, ← hsize, ← hoff, ← htime, himage]
  have hheader : storageWrite g.hdrAddr ((s.addRound q value i).image s.params) w =
      storageWrite (addWrite g s q value (2 * i + 1)).1 (addWrite g s q value (2 * i + 1)).2 w := by
    rw [addWrite_header]
  rw [hheader]
  by_cases hsecond : n = 2 * i + 1
  · subst hsecond
    exact .inl ⟨by omega, w, _, (onOk_done _).symm, hw, by rwa [show (2 * i + 1) / 2 = i by omega]⟩
  · rw [storageWrite_succeeds (hw.nextIo_eq.trans (hio _ (by omega)))
      ((addWrite_inStorage (q := q) (value := value) hg hs (2 * i + 1)).trans (by rw [Config.stCap_eq]; decide))]
    exact .inr ⟨by omega, _, rfl, hw.accessed, hwhdr.size, hwhdr.off, hwhdr.time⟩

/-- The same where the slot's number is read from `H_OFF` (R213, R214). -/
theorem overwriteNewest_runsTo (hg : g.Valid) (hs : RingSelected g s) (hio : ∀ j < n, s.io.getD j .ok = .ok)
    (hi : 2 * i ≤ n) (hat : AddAt g s q value (2 * i) u) (hhdr : HeaderAt (s.addRound q value i) u) :
    RunsTo g s q value n (i + 1) (overwriteNewest g (s.addRound q value i).value u) := by
  rw [overwriteNewest, readRegister_eq, onOk_ok, State.readReg, hhdr.off]
  exact writeAndPersist_runsTo hg hs hio hi (hat.withResp _) ⟨hhdr.size, hhdr.off, hhdr.time⟩

/-! ### Starting afresh (R212) -/

theorem addRound_of_afresh (h : s.startsAfresh q = true) (i : Nat) : s.addRound q value i = ⟨value, 1, 0, q⟩ :=
  if_pos h

theorem addFirst_runsTo {time : Word32} (hg : g.Valid) (hs : RingSelected g s)
    (hio : ∀ j < n, s.io.getD j .ok = .ok) (hafresh : s.startsAfresh (quant time.toNat) = true)
    (hat : AddAt g s (quant time.toNat) value 0 u) (hempty : u.hSize = 0) :
    RunsTo g s (quant time.toNat) value n 1 (addFirst g value time u) := by
  have hq : quant time.toNat < 2 ^ 32 := (Nat.sub_le _ _).trans_lt time.isLt
  have hround : s.addRound (quant time.toNat) value 0 = ⟨value, 1, 0, quant time.toNat⟩ := addRound_of_afresh hafresh 0
  have hmove := movesHeader_setHeader (size := 1) (off := 0) (by decide) (by decide) hq .ok 0 u
  have h := writeAndPersist_runsTo (i := 0) hg hs hio (Nat.zero_le _) (hat.of_movesHeader hmove)
    (by rw [hround]; exact ⟨hmove.size_eq, hmove.off_eq, hmove.time_eq⟩)
  rw [hround] at h
  rw [addFirst, issueOk_of_ok (exec_hdrStart_of_empty time (hat.ready hg hs) hempty), onOk_ok]
  exact h

theorem addAfresh_runsTo {time : Word32} (hg : g.Valid) (hs : RingSelected g s)
    (hio : ∀ j < n, s.io.getD j .ok = .ok) (hafresh : s.startsAfresh (quant time.toNat) = true)
    (hat : AddAt g s (quant time.toNat) value 0 u) :
    RunsTo g s (quant time.toNat) value n 1 (addAfresh g value time u) := by
  have hconf : ¬ (u.capacity = 0 ∨ u.elementSize = 0) := by
    rw [hat.capacity_eq, hat.elementSize_eq, hs.capacity, hs.element_size]
    exact not_or.2 ⟨hg.capacity_ne, hg.element_ne⟩
  rw [addAfresh, issueOk_of_ok ((exec_hdrReset_eq_ite u).trans (if_neg hconf)), onOk_ok]
  exact addFirst_runsTo hg hs hio hafresh ⟨hat.storage, hat.io, hat.hb_wf, rfl, hat.rest⟩ rfl

/-! ### A gap forward (R213) -/

theorem addRound_of_ahead (hafresh : s.startsAfresh q = false) (hahead : 0 < s.bucketsAhead q) (i : Nat) :
    s.addRound q value i =
      { value := if i + 1 < s.bucketsAhead q then 0 else value
        size := min (s.hSize.toNat + i + 1) s.capacity.toNat
        off := (s.hOff.toNat + i + 1) % s.capacity.toNat
        time := s.hTime.toNat + (i + 1) * s.elementSize.toNat } := by
  rw [State.addRound, if_neg (ne_true_of_eq_false hafresh), if_pos hahead]

/-- The header registers are `i` buckets ahead of those in `s`. -/
structure BucketsOn (s : State) (i : Nat) (u : State) : Prop where
  size : u.hSize.toNat = min (s.hSize.toNat + i) s.capacity.toNat
  off : u.hOff.toNat = (s.hOff.toNat + i) % s.capacity.toNat
  time : u.hTime.toNat = s.hTime.toNat + i * s.elementSize.toNat

theorem headerAt_iff_bucketsOn (hafresh : s.startsAfresh q = false) (hahead : 0 < s.bucketsAhead q) :
    HeaderAt (s.addRound q value i) u ↔ BucketsOn s (i + 1) u := by
  rw [addRound_of_ahead hafresh hahead]
  exact ⟨fun h => ⟨h.size, h.off, h.time⟩, fun h => ⟨h.size, h.off, h.time⟩⟩

/-- `HDR.ADV` moves one bucket on, while the time does not pass the rounded time of the `add`. -/
theorem issueOk_hdrAdv (hready : ¬ u.notReady) (hcap : u.capacity = s.capacity) (hes : u.elementSize = s.elementSize)
    (hon : BucketsOn s i u) (hi : i < s.bucketsAhead q) (hq : q < 2 ^ 32) :
    ∃ t, issueOk .hdrAdv u = .done (.ok 0) t ∧ Advances 1 u t ∧ BucketsOn s (i + 1) t := by
  have hroom : (i + 1) * s.elementSize.toNat ≤ q - s.hTime.toNat :=
    (Nat.mul_le_mul_right _ hi).trans (Nat.div_mul_le_self _ _)
  have hes_pos : 0 < s.elementSize.toNat := hes ▸ elementSize_pos_of_ready hready
  have hgrow : 0 < (i + 1) * s.elementSize.toNat := Nat.mul_pos (Nat.succ_pos i) hes_pos
  have hnext : u.hTime.toNat + u.elementSize.toNat = s.hTime.toNat + (i + 1) * s.elementSize.toNat := by
    rw [hon.time, hes, Nat.succ_mul, Nat.add_assoc]
  obtain ⟨t, hexec, hresp, hadv⟩ := exec_hdrAdv_of_fits hready (by omega)
  refine ⟨t, issueOk_of_resp hexec hresp, hadv, ?_, ?_, ?_⟩
  · rw [hadv.size_eq, hcap, hon.size]
    omega
  · rw [hadv.off_eq, hcap, hon.off, Nat.mod_add_mod, Nat.add_assoc]
  · rw [hadv.time_eq, Nat.one_mul, hnext]

/-- The rounds from round `i` on, `m` of them. -/
theorem fillForward_runsTo {m : Nat} (hg : g.Valid) (hs : RingSelected g s)
    (hio : ∀ j < n, s.io.getD j .ok = .ok) (hafresh : s.startsAfresh q = false) (hahead : 0 < s.bucketsAhead q)
    (hq : q < 2 ^ 32) (hm : i + m = s.bucketsAhead q) (hi : 2 * i ≤ n) (hat : AddAt g s q value (2 * i) u)
    (hon : BucketsOn s i u) : RunsTo g s q value n (s.bucketsAhead q) (fillForward g value m u) := by
  induction m generalizing i u with
  | zero =>
    obtain ⟨j, rfl⟩ : ∃ j, i = j + 1 := ⟨i - 1, by omega⟩
    rw [← hm]
    exact .inr ⟨hi, u, rfl, hat, (headerAt_iff_bucketsOn hafresh hahead).2 hon⟩
  | succ m ih =>
    obtain ⟨t, hissue, hadv, hon'⟩ :=
      issueOk_hdrAdv (hat.ready hg hs) hat.capacity_eq hat.elementSize_eq hon (by omega) hq
    have hhdr : HeaderAt (s.addRound q value i) t := (headerAt_iff_bucketsOn hafresh hahead).2 hon'
    have hvalue : (if m = 0 then value else 0) = (s.addRound q value i).value := by
      rw [addRound_of_ahead hafresh hahead]
      by_cases hlast : m = 0
      · rw [if_pos hlast, if_neg (by omega)]
      · rw [if_neg hlast, if_pos (by omega)]
    rw [fillForward, hissue, onOk_ok, hvalue]
    refine (overwriteNewest_runsTo hg hs hio hi (hat.of_movesHeader hadv) hhdr).onOk (by omega) fun w hn hw hwhdr => ?_
    exact ih (by omega) hn hw ((headerAt_iff_bucketsOn hafresh hahead).1 hwhdr)

/-! ### Backward (R214) -/

theorem slotBack_of_retracts (h : Retracts s t) (hcap : 0 < s.capacity.toNat) (j : Nat) :
    t.slotBack j = s.slotBack (j + 1) := by
  have hshift : (s.hOff.toNat : Int) + s.capacity.toNat - 1 - j = s.hOff.toNat - (j + 1 : Nat) + s.capacity.toNat := by
    push_cast
    ring
  rw [State.slotBack, State.slotBack, MovesHeader.capacity_eq h, MovesHeader.off_eq h]
  congr 1
  push_cast [show 1 ≤ s.hOff.toNat + s.capacity.toNat by omega]
  rw [Int.emod_sub_emod, hshift, Int.add_emod_right]
  push_cast
  rfl

/-- `k` retracts, each of which has two buckets and the time for it. -/
theorem issueAll_hdrRet (hready : ¬ s.notReady) (hoff : s.hOff.toNat < s.capacity.toNat) (hk : k < s.hSize.toNat)
    (htime : k * s.elementSize.toNat ≤ s.hTime.toNat) :
    ∃ t, issueAll (List.replicate k .hdrRet) s = .done (.ok ()) t ∧
      MovesHeader (s.hSize.toNat - k) (s.slotBack k) (s.hTime.toNat - k * s.elementSize.toNat) s t := by
  induction k generalizing s with
  | zero => exact ⟨s, rfl, rfl, (slotBack_zero hoff).symm, by omega, rfl⟩
  | succ k ih =>
    rw [Nat.succ_mul] at htime
    have hcap := capacity_pos_of_ready hready
    obtain ⟨u, hexec, hresp, hret⟩ := exec_hdrRet_of_fits hready (by omega) (by omega)
    have hes := MovesHeader.elementSize_eq hret
    have hsize := MovesHeader.size_eq hret
    have hutime := MovesHeader.time_eq hret
    have huoff : u.hOff.toNat < u.capacity.toNat := by
      rw [MovesHeader.off_eq hret, MovesHeader.capacity_eq hret]
      exact Nat.mod_lt _ hcap
    obtain ⟨t, hrun, hmove⟩ := ih (mt (MovesHeader.notReady_iff hret).1 hready) huoff (by omega) (by rw [hes]; omega)
    rw [hsize, hutime, hes, slotBack_of_retracts hret hcap, Nat.sub_sub, Nat.sub_sub, Nat.add_comm 1,
      Nat.add_comm s.elementSize.toNat, ← Nat.succ_mul] at hmove
    refine ⟨t, ?_, MovesHeader.trans hret hmove⟩
    rw [List.replicate_succ, issueAll, issueOk_of_resp hexec hresp, onOk_ok, hrun]

theorem addRound_of_held (hafresh : s.startsAfresh q = false) (hahead : s.bucketsAhead q = 0) (i : Nat) :
    s.addRound q value i =
      { value := value
        size := s.hSize.toNat - s.bucketsBack q
        off := s.slotBack (s.bucketsBack q)
        time := s.hTime.toNat - s.bucketsBack q * s.elementSize.toNat } := by
  rw [State.addRound, if_neg (ne_true_of_eq_false hafresh), if_neg (by omega)]

/-! ### The whole `add` -/

theorem startsAfresh_iff (s : State) (q : Nat) :
    s.startsAfresh q = true ↔
      s.hSize = 0 ∨ s.capacity.toNat ≤ s.bucketsAhead q ∨ s.hSize.toNat ≤ s.bucketsBack q := by
  simp [State.startsAfresh, or_assoc]

theorem addRounds_of_afresh (h : s.startsAfresh q = true) : s.addRounds q = 1 := if_pos h

theorem addRounds_of_not_afresh (h : s.startsAfresh q = false) : s.addRounds q = max 1 (s.bucketsAhead q) :=
  if_neg (ne_true_of_eq_false h)

theorem bucketsAhead_of_le (h : q ≤ s.hTime.toNat) : s.bucketsAhead q = 0 := by
  rw [State.bucketsAhead, Nat.sub_eq_zero_of_le h, Nat.zero_div]

theorem bucketsBack_of_le (h : s.hTime.toNat ≤ q) : s.bucketsBack q = 0 := by
  rw [State.bucketsBack, Nat.sub_eq_zero_of_le h, Nat.zero_div]

theorem addForward_runsTo {time : Word32} {r : Option Response} (hg : g.Valid) (hs : RingSelected g s)
    (hio : ∀ j < n, s.io.getD j .ok = .ok) (hne : s.hSize ≠ 0) (hlast : s.hTime.toNat < quant time.toNat) :
    RunsTo g s (quant time.toNat) value n (s.addRounds (quant time.toNat))
      (addForward g value time (s.bucketsAhead (quant time.toNat)) (s.withResp r)) := by
  have hat : AddAt g s (quant time.toNat) value 0 (s.withResp r) := (addAt_zero hs).withResp r
  have hback := bucketsBack_of_le hlast.le
  have hsize := BitVec.toNat_pos_of_ne_zero hne
  have hoff : s.hOff.toNat < s.capacity.toNat := hs.capacity ▸ hs.off_lt
  have hle : s.hSize.toNat ≤ s.capacity.toNat := hs.capacity ▸ hs.size_le
  rw [addForward, ← hs.capacity]
  by_cases hfar : s.capacity.toNat ≤ s.bucketsAhead (quant time.toNat)
  · have hafresh := (startsAfresh_iff s (quant time.toNat)).2 (.inr (.inl hfar))
    rw [if_pos hfar, addRounds_of_afresh hafresh]
    exact addAfresh_runsTo hg hs hio hafresh hat
  have hafresh : s.startsAfresh (quant time.toNat) = false :=
    Bool.eq_false_iff.2 (mt (startsAfresh_iff s _).1 (by rw [hback]; simp only [hne, false_or]; omega))
  rw [if_neg hfar, addRounds_of_not_afresh hafresh]
  by_cases hsame : s.bucketsAhead (quant time.toNat) = 0
  · have hround := addRound_of_held (value := value) hafresh hsame 0
    rw [hback, Nat.sub_zero, slotBack_zero hoff, Nat.zero_mul, Nat.sub_zero] at hround
    have h := overwriteNewest_runsTo (i := 0) hg hs hio (Nat.zero_le _) hat (by rw [hround]; exact ⟨rfl, rfl, rfl⟩)
    rw [hround] at h
    rw [if_pos hsame, hsame]
    exact h
  · rw [if_neg hsame, Nat.max_eq_right (by omega)]
    refine fillForward_runsTo hg hs hio hafresh (by omega) ((Nat.sub_le _ _).trans_lt time.isLt) (Nat.zero_add _)
      (Nat.zero_le _) hat ⟨?_, ?_, ?_⟩
    · exact (Nat.min_eq_left hle).symm
    · exact (Nat.mod_eq_of_lt hoff).symm
    · rw [Nat.zero_mul]
      rfl

theorem addBackward_runsTo {time : Word32} {r : Option Response} (hg : g.Valid) (hs : RingSelected g s)
    (hio : ∀ j < n, s.io.getD j .ok = .ok) (hne : s.hSize ≠ 0) (hlast : quant time.toNat ≤ s.hTime.toNat) :
    RunsTo g s (quant time.toNat) value n (s.addRounds (quant time.toNat))
      (addBackward g value time (s.bucketsBack (quant time.toNat)) s.hSize.toNat (s.withResp r)) := by
  have hat : AddAt g s (quant time.toNat) value 0 (s.withResp r) := (addAt_zero hs).withResp r
  have hahead := bucketsAhead_of_le hlast
  have hcap : 0 < s.capacity.toNat := hs.capacity ▸ hg.capacity_pos
  rw [addBackward]
  by_cases hold : s.hSize.toNat ≤ s.bucketsBack (quant time.toNat)
  · have hafresh := (startsAfresh_iff s (quant time.toNat)).2 (.inr (.inr hold))
    rw [if_pos hold, addRounds_of_afresh hafresh]
    exact addAfresh_runsTo hg hs hio hafresh hat
  have hafresh : s.startsAfresh (quant time.toNat) = false :=
    Bool.eq_false_iff.2 (mt (startsAfresh_iff s _).1 (by rw [hahead]; simp only [hne, false_or]; omega))
  have hroom : s.bucketsBack (quant time.toNat) * s.elementSize.toNat ≤ s.hTime.toNat :=
    (Nat.div_mul_le_self _ _).trans (Nat.sub_le _ _)
  obtain ⟨t, hret, hmove⟩ := issueAll_hdrRet (s := s.withResp r) (hat.ready hg hs) (hs.capacity ▸ hs.off_lt)
    (Nat.not_le.1 hold) hroom
  have hround := addRound_of_held (value := value) hafresh hahead 0
  have h := overwriteNewest_runsTo (i := 0) hg hs hio (Nat.zero_le _) (hat.of_movesHeader hmove)
    (by rw [hround]; exact ⟨hmove.size_eq, hmove.off_eq, hmove.time_eq⟩)
  rw [hround] at h
  rw [if_neg hold, hret, onOk_ok, addRounds_of_not_afresh hafresh, hahead]
  exact h

/-- An `add` makes its rounds (R212 to R214). -/
theorem ringAdd_runsTo (hg : g.Valid) (hs : RingSelected g s) (value time : Word32)
    (hio : ∀ j < n, s.io.getD j .ok = .ok) :
    RunsTo g s (quant time.toNat) value n (s.addRounds (quant time.toNat)) (ringAdd g value time s) := by
  rw [ringAdd, readRegister_eq, onOk_ok, State.readReg]
  by_cases hempty : s.hSize = 0
  · have hafresh := (startsAfresh_iff s (quant time.toNat)).2 (.inl hempty)
    rw [if_pos hempty, addRounds_of_afresh hafresh]
    exact addFirst_runsTo hg hs hio hafresh ((addAt_zero hs).withResp _) hempty
  rw [if_neg hempty, readRegister_eq, onOk_ok, State.readReg, ← hs.element_size]
  by_cases hlast : s.hTime.toNat < quant time.toNat
  · exact (if_pos hlast).symm ▸ addForward_runsTo hg hs hio hempty hlast
  · exact (if_neg hlast).symm ▸ addBackward_runsTo hg hs hio hempty (Nat.not_lt.1 hlast)

end

end Sys2Proof.Machine
end

section
/-! O54, O55, O56 (R211 to R217). An `add` that is stopped, and one that ends: the header, the slots and `find` are read
off its rounds and the storage after its writes. -/

namespace Sys2Proof.Machine

section

variable {g : RingInstance} {s t u : State} {q n i j : Nat} {value time : Word32}

/-! ### The rounds' headers -/

theorem ready_of_selected (hg : g.Valid) (hs : RingSelected g s) : ¬ s.notReady :=
  (addAt_zero (q := 0) (value := 0) hs).ready hg hs

theorem addRounds_pos (s : State) (q : Nat) : 0 < s.addRounds q := by
  rw [State.addRounds]
  split <;> omega

/-- What a round is: the only one of an `add` that starts afresh, one of a gap forward, or the only one for a bucket
that is held. -/
theorem addRound_cases (s : State) (q : Nat) (value : Word32) (i : Nat) :
    (s.startsAfresh q = true ∧ s.addRounds q = 1 ∧ s.addRound q value i = ⟨value, 1, 0, q⟩) ∨
    (s.startsAfresh q = false ∧ 0 < s.bucketsAhead q ∧ s.addRounds q = s.bucketsAhead q ∧
      s.addRound q value i =
        ⟨if i + 1 < s.bucketsAhead q then 0 else value, min (s.hSize.toNat + i + 1) s.capacity.toNat,
          (s.hOff.toNat + i + 1) % s.capacity.toNat, s.hTime.toNat + (i + 1) * s.elementSize.toNat⟩) ∨
    (s.startsAfresh q = false ∧ s.bucketsAhead q = 0 ∧ s.addRounds q = 1 ∧
      s.addRound q value i =
        ⟨value, s.hSize.toNat - s.bucketsBack q, s.slotBack (s.bucketsBack q),
          s.hTime.toNat - s.bucketsBack q * s.elementSize.toNat⟩) := by
  cases hafresh : s.startsAfresh q with
  | true => exact .inl ⟨rfl, addRounds_of_afresh hafresh, addRound_of_afresh hafresh i⟩
  | false =>
    have hrounds := addRounds_of_not_afresh hafresh
    by_cases hahead : s.bucketsAhead q = 0
    · rw [hahead] at hrounds
      exact .inr (.inr ⟨rfl, hahead, hrounds, addRound_of_held hafresh hahead i⟩)
    · rw [Nat.max_eq_right (by omega)] at hrounds
      exact .inr (.inl ⟨rfl, by omega, hrounds, addRound_of_ahead hafresh (by omega) i⟩)

theorem not_afresh_iff (s : State) (q : Nat) :
    s.startsAfresh q = false ↔
      s.hSize ≠ 0 ∧ s.bucketsAhead q < s.capacity.toNat ∧ s.bucketsBack q < s.hSize.toNat := by
  rw [← Bool.not_eq_true, startsAfresh_iff, not_or, not_or, Nat.not_le, Nat.not_le]

theorem addRound_size (hg : g.Valid) (hs : RingSelected g s) :
    0 < (s.addRound q value i).size ∧ (s.addRound q value i).size ≤ g.capacity.toNat := by
  have hcap := hg.capacity_pos
  have hle := hs.size_le
  obtain ⟨-, -, h⟩ | ⟨-, -, -, h⟩ | ⟨hafresh, -, -, h⟩ := addRound_cases s q value i <;> rw [h]
  · exact ⟨Nat.one_pos, hcap⟩
  · rw [hs.capacity]
    dsimp only
    omega
  · have hback := ((not_afresh_iff s q).1 hafresh).2.2
    dsimp only
    omega

/-- The last round's value is the one added. -/
theorem lastRound_value : (s.addRound q value (s.addRounds q - 1)).value = value := by
  obtain ⟨-, -, h⟩ | ⟨-, hahead, hrounds, h⟩ | ⟨-, -, -, h⟩ := addRound_cases s q value (s.addRounds q - 1) <;> rw [h]
  exact if_neg (by omega)

/-- The last round's time is less than one element away from the rounded time. -/
theorem lastRound_time (hes : 0 < s.elementSize.toNat) :
    q < (s.addRound q value (s.addRounds q - 1)).time + s.elementSize.toNat ∧
      (s.addRound q value (s.addRounds q - 1)).time < q + s.elementSize.toNat := by
  obtain ⟨-, -, h⟩ | ⟨-, hahead, hrounds, h⟩ | ⟨-, hahead, -, h⟩ := addRound_cases s q value (s.addRounds q - 1) <;>
    rw [h] <;> dsimp only
  · omega
  · have hlt := Nat.lt_div_mul_add hes (a := q - s.hTime.toNat)
    have hle := Nat.div_mul_le_self (q - s.hTime.toNat) s.elementSize.toNat
    rw [← State.bucketsAhead] at hlt hle
    have hpos := Nat.mul_pos hahead hes
    rw [hrounds, Nat.sub_add_cancel hahead]
    omega
  · have hlt := Nat.lt_div_mul_add hes (a := s.hTime.toNat - q)
    have hle := Nat.div_mul_le_self (s.hTime.toNat - q) s.elementSize.toNat
    rw [← State.bucketsBack] at hlt hle
    have hnear : q - s.hTime.toNat < s.elementSize.toNat := (Nat.div_eq_zero_iff_lt hes).1 hahead
    omega

/-! ### An `add` that ends, and one that is stopped -/

theorem RingReady.ringSelected (h : RingReady g s) : RingSelected g s := RingReady.selected (e := s.io) h

theorem ringAdd_succeeds (hg : g.Valid) (hs : RingReady g s) (value time : Word32) :
    ∃ t, ringAdd g value time s = .done (.ok ()) t ∧
      AddAt g s (quant time.toNat) value (2 * s.addRounds (quant time.toNat)) t ∧
      HeaderAt (s.addRound (quant time.toNat) value (s.addRounds (quant time.toNat) - 1)) t := by
  have hruns := ringAdd_runsTo (n := 2 * s.addRounds (quant time.toNat)) hg hs.ringSelected value time
    (by simp [hs.io])
  obtain ⟨hlt, -⟩ | ⟨-, h⟩ := hruns
  · omega
  · exact h

theorem ringAdd_reachesWrite (hg : g.Valid) (hs : RingSelected g s) (value time : Word32)
    (hio : ∀ j < n, s.io.getD j .ok = .ok) (hn : n < 2 * s.addRounds (quant time.toNat)) :
    ReachesWrite g s (quant time.toNat) value n (ringAdd g value time s) := by
  obtain ⟨-, h⟩ | ⟨hge, -⟩ := ringAdd_runsTo hg hs value time hio
  · exact h
  · omega

/-- A finished `add` leaves the ring ready and not empty. -/
theorem ringReady_of_added (hg : g.Valid) (hs : RingReady g s) (hat : AddAt g s q value n t)
    (hhdr : HeaderAt (s.addRound q value i) t) : RingReady g t ∧ t.hSize ≠ 0 := by
  have hsel := hs.ringSelected
  obtain ⟨hpos, hle⟩ := addRound_size (q := q) (value := value) (i := i) hg hsel
  refine ⟨⟨hat.capacity_eq.trans hs.capacity, hat.elementSize_eq.trans hs.element_size, hat.loaded, ?_, ?_, ?_, ?_⟩, ?_⟩
  · rw [hhdr.off]
    exact addRound_off_lt hg hsel
  · rwa [hhdr.size]
  · exact (wf_iff t).2 ⟨hat.fb_eq ▸ ((wf_iff s).1 hs.spaces).1, hat.hb_wf, hat.storage ▸ addMemory_wf hg hsel n⟩
  · rw [hat.io, hs.io, List.drop_nil]
  · rintro hzero
    rw [← hhdr.size, hzero] at hpos
    exact absurd hpos (by decide)

/-- `find` of a held bucket's time answers what its slot holds (R215). -/
theorem ringFind_of_held (hg : g.Valid) (hs : RingReady g s) (hj : j < s.hSize.toNat)
    (htime : quant time.toNat + g.elementSize.toNat * j = s.hTime.toNat) {v : Word32}
    (hslot : Memory.slice s.storage (g.slotAddr (s.slotBack j)) 4 = put32 s.params.storeEndian v) :
    ∃ u, ringFind g time s = .done (.ok (some v.toInt)) u := by
  have hfind := exec_hdrFind_of_held (ready_of_selected hg hs.ringSelected) hj (by rwa [hs.element_size])
  have hcap : 0 < s.capacity.toNat := hs.capacity ▸ hg.capacity_pos
  have hback : s.slotBack j < g.capacity.toNat := hs.capacity ▸ slotBack_lt hcap j
  have hword : (BitVec.ofNat 32 (s.slotBack j)).toNat = s.slotBack j :=
    toNat_ofNat_of_lt (hback.trans g.capacity.isLt)
  have hio : (s.answer .ok (BitVec.ofNat 32 (s.slotBack j))).nextIo = .ok := nextIo_of_nil hs.io
  have hrange : g.slotAddr (s.slotBack j) + 4 ≤ 2 ^ 32 := (hg.slot_high _ hback).trans hg.region_fits
  have hread := storageRead_succeeds hio hrange
  rw [answer_storage, hslot] at hread
  have hvalue : readSlot g (s.slotBack j) (s.answer .ok (BitVec.ofNat 32 (s.slotBack j))) =
      .done (.ok v.toInt) (s.answer .ok (BitVec.ofNat 32 (s.slotBack j))).ioTaken := by
    rw [readSlot, Config.slotBytes_eq, hread, onOk_ok, ioTaken_params, answer_params, st32_put32]
  rw [ringFind, issue_of_next hfind, andThen_done]
  dsimp only
  rw [if_neg Status.noConfusion, if_pos rfl, hword, hvalue]
  exact ⟨_, rfl⟩

/-- The slot of the newest bucket holds the value added. -/
theorem slice_newest_of_added (hg : g.Valid) (hs : RingReady g s)
    (hat : AddAt g s q value (2 * s.addRounds q) t)
    (hhdr : HeaderAt (s.addRound q value (s.addRounds q - 1)) t) :
    Memory.slice t.storage (g.slotAddr t.hOff.toNat) 4 = put32 s.params.storeEndian value := by
  have hrounds := addRounds_pos s q
  rw [hat.storage, hhdr.off, slice_addMemory_slot hg hs.ringSelected (by omega) le_rfl, lastRound_value]

/-- Where the newest bucket's time is the rounded time, `find` gives the value added. -/
theorem ringFind_of_added (hg : g.Valid) (hs : RingReady g s)
    (hat : AddAt g s (quant time.toNat) value (2 * s.addRounds (quant time.toNat)) t)
    (hhdr : HeaderAt (s.addRound (quant time.toNat) value (s.addRounds (quant time.toNat) - 1)) t)
    (htime : t.hTime.toNat = quant time.toNat) : ∃ u, ringFind g time t = .done (.ok (some value.toInt)) u := by
  obtain ⟨hready, hne⟩ := ringReady_of_added hg hs hat hhdr
  have hoff : t.hOff.toNat < t.capacity.toNat := hready.capacity ▸ hready.off_lt
  refine ringFind_of_held (j := 0) hg hready (BitVec.toNat_pos_of_ne_zero hne) (by omega) ?_
  rw [slotBack_zero hoff, slice_newest_of_added hg hs hat hhdr, hat.params_eq]

/-- A slot that no round of an `add` writes keeps its bytes. -/
theorem slice_slot_of_added (hg : g.Valid) (hs : RingReady g s) (hat : AddAt g s q value (2 * s.addRounds q) t)
    (hj : j < g.capacity.toNat) (hother : ∀ i < s.addRounds q, (s.addRound q value i).off ≠ j) :
    Memory.slice t.storage (g.slotAddr j) 4 = Memory.slice s.storage (g.slotAddr j) 4 := by
  have hsel := hs.ringSelected
  rw [hat.storage]
  refine slice_congr fun x _ _ => read_addMemory_outside hg hsel ?_ fun i hi => ?_
  · have hhdr := hg.slot_hdr j hj
    omega
  · have hslot := hg.slot_slot _ j (addRound_off_lt (q := q) (value := value) (i := i) hg hsel) hj (hother i (by omega))
    omega

end

/-- Settles O54: the rounds of an `add` that ends, and of one whose reached write fails. -/
theorem addStoresTheValueAndTheHeader : Obligations.AddStoresTheValueAndTheHeader := by
  unfold Obligations.AddStoresTheValueAndTheHeader
  constructor
  · intro g s value time hg hs
    obtain ⟨t, hadd, hat, hhdr⟩ := ringAdd_succeeds hg hs value time
    obtain ⟨hready, hne⟩ := ringReady_of_added hg hs hat hhdr
    have hsel := hs.ringSelected
    have hrounds := addRounds_pos s (quant time.toNat)
    obtain ⟨hlow, hhigh⟩ := lastRound_time (s := s) (q := quant time.toNat) (value := value)
      (elementSize_pos_of_ready (ready_of_selected hg hsel))
    rw [← hhdr.time, hs.element_size] at hlow hhigh
    refine ⟨t, hadd, hready, hne, ?_, slice_newest_of_added hg hs hat hhdr, fun a ha => ?_, hlow, hhigh,
      ringFind_of_added hg hs hat hhdr⟩
    · rw [hat.storage, slice_addMemory_header hg hsel, if_neg (by omega), Nat.mul_div_cancel_left _ (by decide),
        hhdr.image_eq]
    · rw [hat.storage]
      refine read_addMemory_outside hg hsel ?_ fun i _ => ?_
      · have hlow := hg.hdr_low
        have hhigh := hg.hdr_high
        omega
      · have hoff := addRound_off_lt (q := quant time.toNat) (value := value) (i := i) hg hsel
        have hlow := hg.slot_low _ hoff
        have hhigh := hg.slot_high _ hoff
        omega
  · intro g s value time n torn rest hg hs hio q r hn
    have hsel := hs.selected
    have hoks : ∀ j < n, s.io.getD j .ok = .ok := fun j hj => by simp [hio, List.getElem?_append, hj]
    have hfailed : s.io.getD n .ok = .failed torn := by simp [hio]
    obtain ⟨u, k, hadd, hat, hhdr⟩ := ringAdd_reachesWrite hg hsel value time hoks hn
    rw [storageWrite_fails _ _ (hat.nextIo_eq.trans hfailed), onOk_error, hat.storage] at hadd
    refine ⟨_, hadd, ?_, addStopped_tornWrite hg hsel torn hn, hhdr.size, hhdr.off, hhdr.time⟩
    change u.io.tail = rest
    rw [hat.io, hio, List.drop_left' (List.length_replicate ..), List.tail_cons]

section

variable {g : RingInstance} {s : State}

theorem bucketsBack_of_add {q k : Nat} (hes : 0 < s.elementSize.toNat)
    (h : q + k * s.elementSize.toNat = s.hTime.toNat) : s.bucketsBack q = k := by
  rw [State.bucketsBack, ← h, Nat.add_sub_cancel_left, Nat.mul_div_cancel _ hes]

theorem bucketsAhead_of_add {q k : Nat} (hes : 0 < s.elementSize.toNat)
    (h : q = s.hTime.toNat + k * s.elementSize.toNat) : s.bucketsAhead q = k := by
  rw [State.bucketsAhead, h, Nat.add_sub_cancel_left, Nat.mul_div_cancel _ hes]

end

/-- Settles O56: the one round of an `add` for a held bucket writes its slot and no other. -/
theorem backwardAddDropsTheNewerBuckets : Obligations.BackwardAddDropsTheNewerBuckets := by
  unfold Obligations.BackwardAddDropsTheNewerBuckets
  intro g s value time k hg hs hk htime
  have hsel := hs.ringSelected
  have hcap : 0 < s.capacity.toNat := hs.capacity ▸ hg.capacity_pos
  have hes : 0 < s.elementSize.toNat := hs.element_size ▸ hg.element_pos
  rw [← hs.element_size] at htime
  have hback := bucketsBack_of_add hes htime
  have hahead : s.bucketsAhead (quant time.toNat) = 0 := bucketsAhead_of_le (by omega)
  have hafresh : s.startsAfresh (quant time.toNat) = false :=
    (not_afresh_iff s _).2 ⟨fun hzero => by rw [hzero] at hk; exact Nat.not_lt_zero k hk, by omega, by omega⟩
  have hrounds : s.addRounds (quant time.toNat) = 1 := by rw [addRounds_of_not_afresh hafresh, hahead]; rfl
  have hround (i : Nat) := addRound_of_held (value := value) hafresh hahead i
  rw [hback] at hround
  obtain ⟨t, hadd, hat, hhdr⟩ := ringAdd_succeeds hg hs value time
  have hsize := hhdr.size
  have hoff := hhdr.off
  have hnew := hhdr.time
  rw [hround] at hsize hoff hnew
  dsimp only at hsize hoff hnew
  have hq : t.hTime.toNat = quant time.toNat := by omega
  refine ⟨t, hadd, hsize, hq, hoff, ?_, ringFind_of_added hg hs hat hhdr hq, fun j hkj hj => ?_⟩
  · rw [State.firstTime, State.firstTime, hq, hsize, hat.elementSize_eq, ← htime, Nat.cast_sub hk.le]
    push_cast
    ring
  · refine slice_slot_of_added hg hs hat (hs.capacity ▸ slotBack_lt hcap j) fun i _ => ?_
    rw [hround]
    exact slotBack_ne hcap hkj (hj.trans_le (hs.capacity ▸ hs.size_le))

/-- Rounding leaves whole quanta alone (R14). -/
theorem quant_add {m : Nat} (hm : m % 60 = 0) (a : Nat) : quant (a + m) = quant a + m := by
  rw [quant, quant, Config.quantum_eq]
  omega

theorem slotBack_of_le {s : State} {j : Nat} (hj : j ≤ s.hOff.toNat) (hoff : s.hOff.toNat < s.capacity.toNat) :
    s.slotBack j = s.hOff.toNat - j := by
  rw [State.slotBack, ← Nat.cast_sub hj, ← Int.natCast_emod, Int.toNat_natCast, Nat.mod_eq_of_lt (by omega)]

section

variable {g : RingInstance} {s a : State} {v w t0 t1 : Word32} {n : Nat}

/-- The first add into an empty ring. -/
theorem ringAdd_of_empty (hg : g.Valid) (hs : RingReady g s) (hempty : s.hSize = 0) (v t0 : Word32) :
    ∃ a, ringAdd g v t0 s = .done (.ok ()) a ∧ RingReady g a ∧ HeaderAt ⟨v, 1, 0, quant t0.toNat⟩ a ∧
      Memory.slice a.storage (g.slotAddr 0) 4 = put32 a.params.storeEndian v := by
  have hafresh := (startsAfresh_iff s (quant t0.toNat)).2 (.inl hempty)
  obtain ⟨a, hadd, hat, hhdr⟩ := ringAdd_succeeds hg hs v t0
  have hslot := slice_newest_of_added hg hs hat hhdr
  have hready := (ringReady_of_added hg hs hat hhdr).1
  rw [addRound_of_afresh hafresh] at hhdr
  rw [hhdr.off, ← hat.params_eq] at hslot
  exact ⟨a, hadd, hready, hhdr, hslot⟩

/-- The rounds of a second add, `n` buckets later: round `i` is bucket `i + 1`. -/
theorem addRound_of_gap {q0 : Nat} (hg : g.Valid) (ha : RingReady g a) (hhdr : HeaderAt ⟨v, 1, 0, q0⟩ a) (hn : 0 < n)
    (hcap : n < g.capacity.toNat) :
    a.addRounds (q0 + n * g.elementSize.toNat) = n ∧ ∀ i < n,
      a.addRound (q0 + n * g.elementSize.toNat) w i =
        ⟨if i + 1 < n then 0 else w, i + 2, i + 1, q0 + (i + 1) * g.elementSize.toNat⟩ := by
  have hsize : a.hSize.toNat = 1 := hhdr.size
  have hoff : a.hOff.toNat = 0 := hhdr.off
  have htime : a.hTime.toNat = q0 := hhdr.time
  have hahead : a.bucketsAhead (q0 + n * g.elementSize.toNat) = n :=
    bucketsAhead_of_add (ha.element_size ▸ hg.element_pos) (by rw [htime, ha.element_size])
  have hback : a.bucketsBack (q0 + n * g.elementSize.toNat) = 0 := bucketsBack_of_le (by omega)
  have hafresh : a.startsAfresh (q0 + n * g.elementSize.toNat) = false := by
    refine (not_afresh_iff a _).2 ⟨fun hzero => ?_, by rw [hahead, ha.capacity]; exact hcap, by omega⟩
    rw [hzero] at hsize
    exact absurd hsize (by decide)
  refine ⟨by rw [addRounds_of_not_afresh hafresh, hahead]; omega, fun i hi => ?_⟩
  rw [addRound_of_ahead hafresh (by omega), hahead, hsize, hoff, htime, ha.capacity, ha.element_size,
    Nat.min_eq_left (by omega), Nat.mod_eq_of_lt (by omega), show 1 + i + 1 = i + 2 by omega, Nat.zero_add]

end

/-- Settles O55: the second add writes the slots 1 to `n`, zeros but for the last, and leaves slot 0. -/
theorem forwardGapIsFilledWithZeros : Obligations.ForwardGapIsFilledWithZeros := by
  unfold Obligations.ForwardGapIsFilledWithZeros
  intro g s v w t0 t1 n hg hs hempty hes hn hcap ht1
  have hquant (k : Nat) : quant (t0.toNat + k * g.elementSize.toNat) = quant t0.toNat + k * g.elementSize.toNat :=
    quant_add (by rw [Nat.mul_mod, hes, Nat.mul_zero]) _
  obtain ⟨a, hadd, ha, hahdr, hfirst⟩ := ringAdd_of_empty hg hs hempty v t0
  obtain ⟨hrounds, hround⟩ := addRound_of_gap (w := w) hg ha hahdr hn hcap
  obtain ⟨b, hadd', hat, hhdr⟩ := ringAdd_succeeds hg ha w t1
  rw [ht1, hquant] at hat hhdr
  have hready := (ringReady_of_added hg ha hat hhdr).1
  have hslots {k : Nat} (hk : k ≤ n) :
      Memory.slice b.storage (g.slotAddr k) 4 =
        put32 b.params.storeEndian (if k = 0 then v else if k = n then w else 0) := by
    rw [hat.params_eq]
    cases k with
    | zero =>
      rw [if_pos rfl, ← hfirst, slice_slot_of_added hg ha hat hg.capacity_pos]
      intro i hi
      rw [hround i (by omega)]
      exact Nat.succ_ne_zero i
    | succ k =>
      have hslot := slice_addMemory_slot (value := w) hg ha.ringSelected (i := k)
        (n := 2 * a.addRounds (quant t0.toNat + n * g.elementSize.toNat)) (by omega) le_rfl
      rw [hround k (by omega), ← hat.storage] at hslot
      rw [hslot, if_neg (Nat.succ_ne_zero k)]
      by_cases hlast : k + 1 = n
      · rw [if_pos hlast, if_neg (by omega)]
      · rw [if_neg hlast, if_pos (by omega)]
  rw [hrounds, hround _ (by omega), Nat.sub_add_cancel hn] at hhdr
  have hsize : b.hSize.toNat = n - 1 + 2 := hhdr.size
  have hoff : b.hOff.toNat = n := hhdr.off
  have htime : b.hTime.toNat = quant t0.toNat + n * g.elementSize.toNat := hhdr.time
  refine ⟨a, b, hadd, hadd', by omega, fun k t hk ht => ?_⟩
  have hback : b.slotBack (n - k) = k := by
    rw [slotBack_of_le (by omega) (by rw [hready.capacity]; omega), hoff, Nat.sub_sub_self hk]
  have hbucket : quant t.toNat + g.elementSize.toNat * (n - k) = b.hTime.toNat := by
    rw [ht, hquant, htime, Nat.add_assoc, Nat.mul_comm _ (n - k), ← Nat.add_mul, Nat.add_sub_cancel' hk]
  obtain ⟨u, hfind⟩ := ringFind_of_held (v := if k = 0 then v else if k = n then w else 0) hg hready
    (by omega) hbucket (by rw [hback, hslots hk])
  refine ⟨u, hfind.trans ?_⟩
  rw [apply_ite BitVec.toInt, apply_ite BitVec.toInt]
  rfl

end Sys2Proof.Machine
end

section
/-! What the Modbus handler is made of (R87, R221, R223): a frame loaded, a response built, dumped and sent, a request
read out of its registers. Each leaves a loaded frame in `fb` and changes nothing else but the response port. -/

namespace Sys2Proof.Machine

/-- A frame of which the last two bytes are the CRC of the others (R90). -/
def sealFrame (head : List Byte) : List Byte := head ++ crcBytes (crc16 .modbus head)

theorem sealFrame_length (head : List Byte) : (sealFrame head).length = head.length + 2 := List.length_append

section

variable {s t u : State} {slave func code : Byte} {rec : ConfigRecord} {frame head data bytes : List Byte}

/-! ### Loading (R87) -/

theorem issueAll_fbPush {pre : List Byte} (h : pre.length + bytes.length ≤ 256) :
    issueAll (bytes.map .fbPush) ((s.loadedFrame pre).answer .ok 0) =
      .done (.ok ()) ((s.loadedFrame (pre ++ bytes)).answer .ok 0) := by
  induction bytes generalizing pre with
  | nil =>
    rw [List.append_nil]
    rfl
  | cons b bs ih =>
    rw [List.length_cons] at h
    have hlen : ((s.loadedFrame pre).answer .ok 0).fbLen.toNat = pre.length := loadedFrame_len (s := s) (by omega)
    have hpush := exec_fbPush_of_lt (s := (s.loadedFrame pre).answer .ok 0) b (by omega)
    have hnext : (((s.loadedFrame pre).answer .ok 0).setFrame (Memory.write (Memory.writeAll s.fb 0 pre) pre.length b)
        (BitVec.ofNat 9 (pre.length + 1))).answer .ok 0 = (s.loadedFrame (pre ++ [b])).answer .ok 0 := by
      rw [State.loadedFrame, State.loadedFrame, writeAll_append, Nat.zero_add, List.length_append]
      rfl
    rw [hlen, answer_fb, State.loadedFrame, setFrame_fb, ← State.loadedFrame, hnext] at hpush
    rw [List.map_cons, issueAll_cons_of_ok hpush, ih (by simp; omega), List.append_assoc, List.singleton_append]

/-- The state after `FB.LOAD` of a frame. -/
def State.received (s : State) (frame : List Byte) : State := (s.loadedFrame frame).answer .ok 0

theorem issueAll_load (h : frame.length ≤ 256) :
    issueAll (.fbClr :: frame.map .fbPush) s = .done (.ok ()) (s.received frame) := by
  have hclr : exec .fbClr s = .next ((s.loadedFrame []).answer .ok 0) := rfl
  rw [issueAll_cons_of_ok hclr, issueAll_fbPush (by simpa using h)]
  rfl

/-! ### Building and sending (R153, R221) -/

/-- `FB.RD` of bytes of the frame in their order. -/
theorem issueReads_fbRd {f : Byte → Instr} {a n : Nat} (hfits : a + n ≤ s.fbLen.toNat)
    (hf : ∀ i < n, ∃ k : Byte, f (BitVec.ofNat 8 i) = .fbRd k ∧ k.toNat = a + i) :
    ∃ r, issueReads (commandsUpTo f n) s = .done (.ok (Memory.slice s.fb a n)) (s.withResp r) :=
  issueReads_commandsUpTo fun i hi r => by
    obtain ⟨k, hk, hnat⟩ := hf i hi
    have hlt : k.toNat < (s.withResp r).fbLen.toNat := by
      rw [hnat]
      exact (Nat.add_lt_add_left hi a).trans_le hfits
    rw [hk, exec_fbRd_of_lt hlt, hnat]
    rfl

/-- `FB.DUMP` (R87). -/
theorem dumpFrame_eq (h : s.fbLen.toNat ≤ 256) :
    ∃ r, dumpFrame s = .done (.ok (s.frame s.fbLen.toNat)) (s.withResp r) := by
  have hread : (s.readReg .fbLen).toNat = s.fbLen.toNat := BitVec.toNat_setWidth_of_le (by decide)
  obtain ⟨r, hreads⟩ := issueReads_fbRd (s := s.answer .ok (s.readReg .fbLen)) (f := .fbRd) (a := 0)
    (n := s.fbLen.toNat)
    (Nat.zero_add _).le fun i hi => ⟨_, rfl, by rw [toNat_ofNat_of_lt (by omega), Nat.zero_add]⟩
  refine ⟨r, ?_⟩
  rw [dumpFrame, readRegister_eq, onOk_ok, hread, hreads]
  rfl

/-- A procedure of the handler that ends by sending a frame: the frame stands in `fb`, and nothing else has changed. -/
def Sends (p : ProcResult (Except HostError Handled)) (bytes : List Byte) (rec : ConfigRecord) (s : State) : Prop :=
  bytes.length ≤ 256 ∧ ∃ r, p = .done (.ok ⟨some bytes, rec⟩) ((s.loadedFrame bytes).withResp r)

theorem sendFrame_loaded (hfb : Memory.wf 256 s.fb = true) (hbroadcast : s.params.answerBroadcast = true)
    (h : bytes.length ≤ 256) (st : Status) (v : Word32) :
    Sends (sendFrame slave rec ((s.loadedFrame bytes).answer st v)) bytes rec s := by
  have hanswers : ¬ (slave = Config.broadcast ∧
      ((s.loadedFrame bytes).answer st v).params.answerBroadcast = false) := by
    rintro ⟨-, hno⟩
    exact Bool.false_ne_true (hno.symm.trans hbroadcast)
  have hlen : ((s.loadedFrame bytes).answer st v).fbLen.toNat = bytes.length := loadedFrame_len (s := s) h
  have hframe : ((s.loadedFrame bytes).answer st v).frame bytes.length = bytes := slice_writeAll hfb (by omega)
  obtain ⟨r, hdump⟩ := dumpFrame_eq (s := (s.loadedFrame bytes).answer st v) (by omega)
  exact ⟨h, r, by rw [sendFrame, if_neg hanswers, hdump, hlen, hframe, onOk_ok]; rfl⟩

/-- An exception response (R96, R221). -/
theorem sendException_sends (hfb : Memory.wf 256 s.fb = true) (hbroadcast : s.params.answerBroadcast = true) :
    Sends (sendException slave func code rec s) (sealFrame [slave, func ||| 0x80#8, code]) rec s := by
  have hexec : exec (.txExc slave func code) s =
      .next ((s.loadedFrame (sealFrame [slave, func ||| 0x80#8, code])).answer .ok 0) := rfl
  rw [sendException, issueOk_of_ok hexec, onOk_ok]
  exact sendFrame_loaded hfb hbroadcast (by simp [sealFrame_length]) _ _

/-- A normal response (R95, R221). -/
theorem sendNormal_sends (hfb : Memory.wf 256 s.fb = true) (hbroadcast : s.params.answerBroadcast = true)
    (h : data.length ≤ 252) :
    Sends (sendNormal slave func data rec s) (sealFrame (slave :: func :: data)) rec s := by
  have hbegin : exec (.txBegin slave func) s = .next ((s.loadedFrame [slave, func]).answer .ok 0) := rfl
  have hseal : exec .txSeal ((s.loadedFrame (slave :: func :: data)).answer .ok 0) =
      .next ((s.loadedFrame (sealFrame (slave :: func :: data))).answer .ok 0) :=
    execTxSeal_room hfb (by simp; omega)
  have hbuilt : issueAll (respCommands slave func data) s =
      .done (.ok ()) ((s.loadedFrame (sealFrame (slave :: func :: data))).answer .ok 0) := by
    rw [respCommands, issueAll_cons_of_ok hbegin, issueAll_append, issueAll_fbPush (by simp; omega), onOk_ok,
      List.cons_append, List.cons_append, List.nil_append, issueAll_cons_of_ok hseal]
    rfl
  rw [sendNormal, hbuilt, onOk_ok]
  exact sendFrame_loaded hfb hbroadcast (by rw [sealFrame_length]; simp; omega) _ _

/-! ### Reading the request (R288) -/

/-- What the request registers hold. -/
def State.request (s : State) : Request := ⟨s.rKind.toNat, s.rSlave, s.rFunc, s.rAddr, s.rQty, s.rBc.toNat⟩

theorem readRequest_eq (s : State) : ∃ r, readRequest s = .done (.ok s.request) (s.withResp r) := by
  have hkind : (s.rKind.setWidth 32).toNat = s.rKind.toNat := BitVec.toNat_setWidth_of_le (by decide)
  have hcount : (s.rBc.setWidth 32).toNat = s.rBc.toNat := BitVec.toNat_setWidth_of_le (by decide)
  refine ⟨some ⟨.ok, s.readReg .rBc⟩, ?_⟩
  simp only [readRequest, readRegister_eq, onOk_ok]
  simp only [State.readReg, State.answer, State.request, hkind, hcount,
    extractLsb'_setWidth_32 (show 8 ≤ 32 by decide), extractLsb'_setWidth_32 (show 16 ≤ 32 by decide)]
  rfl

end

end Sys2Proof.Machine
end

section
/-! The Modbus handler (R221 to R224): what it sends for a read, for a write by the outcome of the save, and for a frame
by what the parser says of it. -/

namespace Sys2Proof.Machine

section

variable {s u : State} {q : Request} {tel : Telemetry} {rec : ConfigRecord} {frame torn : List Byte} {v : Word32}

/-! ### Reads (R223) -/

/-- The answer to a read request. -/
def Request.readReply (q : Request) (tel : Telemetry) (rec : List Byte) : List Byte :=
  if q.qty.toNat < 1 ∨ q.qty.toNat > 125 then sealFrame [q.slave, q.func ||| 0x80#8, illegalDataValue]
  else
    match readSpan q.kind rec tel q.addr.toNat q.qty.toNat with
    | some bs => sealFrame (q.slave :: q.func :: BitVec.ofNat 8 (2 * q.qty.toNat) :: bs)
    | none => sealFrame [q.slave, q.func ||| 0x80#8, illegalDataAddress]

/-- Of `n` registers a span has at most `2 * n` bytes. -/
theorem readSpan_length_le {kind a n : Nat} {recBytes bs : List Byte} (h : readSpan kind recBytes tel a n = some bs) :
    bs.length ≤ 2 * n := by
  have htake {xs : List Byte} (hxs : some (xs.take (2 * n)) = some bs) : bs.length ≤ 2 * n := by
    rw [← Option.some.inj hxs]
    exact List.length_take_le _ _
  rw [readSpan] at h
  split_ifs at h
  · exact htake h
  · exact htake h
  · exact htake h

theorem handleRead_sends (hfb : Memory.wf 256 s.fb = true) (hbroadcast : s.params.answerBroadcast = true) :
    Sends (handleRead q tel rec s) (q.readReply tel (rec.serialise s.params.storeEndian)) rec s := by
  rw [handleRead, Request.readReply]
  split
  next => exact sendException_sends hfb hbroadcast
  next hqty =>
    cases hspan : readSpan q.kind (rec.serialise s.params.storeEndian) tel q.addr.toNat q.qty.toNat with
    | none => exact sendException_sends hfb hbroadcast
    | some bs =>
      have hlen := readSpan_length_le hspan
      exact sendNormal_sends hfb hbroadcast (by rw [List.length_cons]; omega)

/-! ### Writes (R224) -/

/-- The state after a `save` that leaves a storage and a list of coming outcomes. -/
def State.afterSave (s : State) (r : ConfigRecord) (m : Memory) (io : List IoEvent) : State :=
  { s.withChecksum .ccittFalse ((r.page s.params).drop 2) with storage := m, io := io }

@[simp] theorem afterSave_storage (r : ConfigRecord) (m : Memory) (io : List IoEvent) :
    (s.afterSave r m io).storage = m := rfl
@[simp] theorem afterSave_io (r : ConfigRecord) (m : Memory) (io : List IoEvent) : (s.afterSave r m io).io = io := rfl

theorem State.Inv.afterSave (hs : s.Inv) (r : ConfigRecord) {m : Memory} (io : List IoEvent)
    (hm : Memory.wf Config.stCap m = true) : (s.afterSave r m io).Inv :=
  ⟨(wf_iff _).2 ⟨hs.fb_wf, hs.hb_wf, hm⟩, hs.len_le, hs.kind_le, hs.parsed_len, hs.parsed_slave, hs.parsed_func,
    hs.parsed_kind, hs.parsed_fields, hs.parsed_crc, hs.parsed_count, hs.crc_loaded⟩

theorem configSave_both_succeed {r : ConfigRecord} (hio : s.nextIo = .ok) (hio' : s.ioTaken.nextIo = .ok) :
    configSave r s = .done ⟨.ok (), r.withCrc s.params⟩
      (s.afterSave r (bothCopies s.storage ((r.withCrc s.params).page s.params)) s.io.tail.tail) := by
  rw [configSave_eq, writeCopies_succeeds (s := s.withChecksum _ _) (page_length _ _) hio hio']
  rfl

theorem configSave_primary_fails {r : ConfigRecord} (hio : s.nextIo = .failed torn) :
    configSave r s = .done ⟨.error .storage, r.withCrc s.params⟩
      (s.afterSave r (tornWrite s.storage 0 1024 torn) s.io.tail) := by
  rw [configSave_eq, writeCopies_primary_fails (s := s.withChecksum _ _) hio, page_length]
  rfl

theorem configSave_secondary_fails {r : ConfigRecord} (hio : s.nextIo = .ok) (hio' : s.ioTaken.nextIo = .failed torn) :
    configSave r s = .done ⟨.error .storage, r.withCrc s.params⟩
      (s.afterSave r (tornWrite (Memory.writeAll s.storage 0 ((r.withCrc s.params).page s.params)) 1024 1024 torn)
        s.io.tail.tail) := by
  rw [configSave_eq, writeCopies_secondary_fails (s := s.withChecksum _ _) (page_length _ _) hio hio', page_length]
  rfl

/-- The payload that a 0x10 request left in `fb` (R139). -/
def Request.payload (q : Request) (s : State) : List Byte := if q.kind = 4 then Memory.slice s.fb 7 q.count else []

/-- The record that a write request makes of the one before it (R224). -/
def Request.newRecord (q : Request) (rec : ConfigRecord) (s : State) : ConfigRecord :=
  .parse s.params.storeEndian (q.patched (q.payload s) (rec.serialise s.params.storeEndian))

theorem readPayload_eq (hlen : s.fbLen.toNat ≤ 256) (hcount : q.kind = 4 → 7 + q.count ≤ s.fbLen.toNat) :
    ∃ r, readPayload q s = .done (.ok (q.payload s)) (s.withResp r) := by
  rw [readPayload, Request.payload]
  split
  next hkind =>
    have hfits := hcount hkind
    exact issueReads_fbRd hfits fun i hi => ⟨_, rfl, by
      rw [BitVec.toNat_add, toNat_ofNat_of_lt (show i < 2 ^ 8 by omega)]
      exact Nat.mod_eq_of_lt (show 7 + i < 2 ^ 8 by omega)⟩
  next => exact ⟨s.resp, rfl⟩

/-- What the handler sends when the `save` of a write request has ended. -/
def Request.afterSave (q : Request) (rec : ConfigRecord) (x : Saved) (s : State) :
    ProcResult (Except HostError Handled) :=
  match x.result with
  | .ok _ => sendNormal q.slave q.func (be16Bytes q.addr ++ be16Bytes q.qty) x.record s
  | .error .storage => sendException q.slave q.func serverDeviceFailure rec s
  | .error err => .done (.error err) s

section

variable (hs : s.Inv) (hbroadcast : s.params.answerBroadcast = true)
  (hcount : q.kind = 4 → 7 + q.count ≤ s.fbLen.toNat) (hinside : writeInside q.addr.toNat q.writeCount = true)

theorem handleWrite_outside (hs : s.Inv) (hbroadcast : s.params.answerBroadcast = true)
    (h : writeInside q.addr.toNat q.writeCount = false) :
    Sends (handleWrite q rec s) (sealFrame [q.slave, q.func ||| 0x80#8, illegalDataAddress]) rec s := by
  rw [handleWrite, if_pos h]
  exact sendException_sends hs.fb_wf hbroadcast

include hs hcount hinside in
theorem handleWrite_inside :
    ∃ r, handleWrite q rec s = (configSave (q.newRecord rec s) (s.withResp r)).andThen (q.afterSave rec) := by
  obtain ⟨r, hpayload⟩ := readPayload_eq hs.len_le hcount
  refine ⟨r, ?_⟩
  rw [handleWrite, if_neg (ne_false_of_eq_true hinside), hpayload, onOk_ok]
  rfl

include hs hbroadcast hcount hinside

theorem handleWrite_succeeds (hio : s.nextIo = .ok) (hio' : s.ioTaken.nextIo = .ok) :
    Sends (handleWrite q rec s) (sealFrame (q.slave :: q.func :: (be16Bytes q.addr ++ be16Bytes q.qty)))
      ((q.newRecord rec s).withCrc s.params)
      (s.afterSave (q.newRecord rec s)
        (bothCopies s.storage (((q.newRecord rec s).withCrc s.params).page s.params)) s.io.tail.tail) := by
  obtain ⟨r, hwrite⟩ := handleWrite_inside (rec := rec) hs hcount hinside
  rw [hwrite, configSave_both_succeed (s := s.withResp r) hio hio']
  exact sendNormal_sends hs.fb_wf hbroadcast (by simp [be16Bytes])

theorem handleWrite_primary_fails (hio : s.nextIo = .failed torn) :
    Sends (handleWrite q rec s) (sealFrame [q.slave, q.func ||| 0x80#8, serverDeviceFailure]) rec
      (s.afterSave (q.newRecord rec s) (tornWrite s.storage 0 1024 torn) s.io.tail) := by
  obtain ⟨r, hwrite⟩ := handleWrite_inside (rec := rec) hs hcount hinside
  rw [hwrite, configSave_primary_fails (s := s.withResp r) hio]
  exact sendException_sends hs.fb_wf hbroadcast

theorem handleWrite_secondary_fails (hio : s.nextIo = .ok) (hio' : s.ioTaken.nextIo = .failed torn) :
    Sends (handleWrite q rec s) (sealFrame [q.slave, q.func ||| 0x80#8, serverDeviceFailure]) rec
      (s.afterSave (q.newRecord rec s)
        (tornWrite (Memory.writeAll s.storage 0 (((q.newRecord rec s).withCrc s.params).page s.params)) 1024 1024 torn)
        s.io.tail.tail) := by
  obtain ⟨r, hwrite⟩ := handleWrite_inside (rec := rec) hs hcount hinside
  rw [hwrite, configSave_secondary_fails (s := s.withResp r) hio hio']
  exact sendException_sends hs.fb_wf hbroadcast

end

/-! ### One frame (R221) -/

/-- A parsed request handled. -/
def handleRequest (q : Request) (tel : Telemetry) (rec : ConfigRecord) (s : State) :
    ProcResult (Except HostError Handled) :=
  if q.kind = 1 ∨ q.kind = 2 then handleRead q tel rec s else handleWrite q rec s

theorem handleFrame_of_ok (h : frame.length ≤ 256) (hparse : execRxParse (s.received frame) = .next (u.answer .ok v)) :
    ∃ r, handleFrame frame tel rec s = handleRequest u.request tel rec (u.withResp r) := by
  have hissue : issue .rxParse (s.received frame) = .done ⟨.ok, v⟩ (u.answer .ok v) := issue_of_next hparse
  obtain ⟨r, hrequest⟩ := readRequest_eq (u.answer .ok v)
  refine ⟨r, ?_⟩
  rw [handleFrame, issueAll_load h, andThen_done]
  simp only [hissue, andThen_done, hrequest, onOk_ok]
  rfl

theorem handleFrame_of_exception (h : frame.length ≤ 256) {code : Byte}
    (hparse : execRxParse (s.received frame) = .next (u.answer .exception (code.setWidth 32))) :
    ∃ r, handleFrame frame tel rec s = sendException u.rSlave u.rFunc code rec (u.withResp r) := by
  have hissue : issue .rxParse (s.received frame) = .done ⟨.exception, code.setWidth 32⟩ (u.answer .exception _) :=
    issue_of_next hparse
  obtain ⟨r, hrequest⟩ := readRequest_eq (u.answer .exception (code.setWidth 32))
  refine ⟨r, ?_⟩
  rw [handleFrame, issueAll_load h, andThen_done]
  simp only [hissue, andThen_done, hrequest, onOk_ok, extractLsb'_setWidth_32 (show 8 ≤ 32 by decide)]
  rfl

theorem handleFrame_of_error (h : frame.length ≤ 256) {st : Status} (hok : st ≠ .ok) (hexc : st ≠ .exception)
    (hparse : execRxParse (s.received frame) = .next (u.answer st v)) :
    handleFrame frame tel rec s = .done (.ok ⟨none, rec⟩) (u.answer st v) := by
  have hissue : issue .rxParse (s.received frame) = .done ⟨st, v⟩ (u.answer st v) := issue_of_next hparse
  rw [handleFrame, issueAll_load h, andThen_done]
  simp only [hissue, andThen_done]

end

end Sys2Proof.Machine
end

section
/-! O59 and O60 (R220 to R224). A request sealed with its CRC passes the parser, so the handler answers as it does for
the fields that its bytes spell. -/

namespace Sys2Proof.Machine

section

variable {s t : State} {slave func : Byte} {addr qty : Word16} {tel : Telemetry} {rec : ConfigRecord}
  {frame tail bytes : List Byte} {p : ProcResult (Except HostError Handled)}

/-! ### What a sent frame leaves -/

theorem State.Inv.withResp (hs : s.Inv) (r : Option Response) : (s.withResp r).Inv :=
  hs.of_frameUnit rfl rfl hs.hb_wf hs.crc_loaded

theorem Sends.ends (h : Sends p bytes rec s) :
    ∃ t, p = .done (.ok ⟨some bytes, rec⟩) t ∧ t.storage = s.storage ∧ t.io = s.io ∧ t.slaveAddr = s.slaveAddr ∧
      (s.Inv → t.Inv) := by
  obtain ⟨hlen, r, hp⟩ := h
  exact ⟨_, hp, rfl, rfl, rfl, fun hs =>
    (hs.setFrame_writeAll (by omega) (by rw [toNat_ofNat_of_lt (by omega)]; exact hlen)).withResp r⟩

/-! ### What the parser leaves -/

/-- What `RX.PARSE` of a frame keeps of the state before the frame was loaded. -/
structure ParsedFrom (s t : State) : Prop where
  inv : t.Inv
  slave_addr : t.slaveAddr = s.slaveAddr
  storage : t.storage = s.storage
  io : t.io = s.io
  params : t.params = s.params

theorem parsedFrom_of_parse (hs : s.Inv) (hlen : frame.length ≤ 256) (h : execRxParse (s.received frame) = .next t) :
    ParsedFrom s t := by
  have hloaded : (s.received frame).Inv :=
    (hs.setFrame_writeAll (by omega) (by rw [toNat_ofNat_of_lt (by omega)]; exact hlen)).answer _ _
  have hkept := execRxParse_unchanged _ _ h
  obtain ⟨hsurroundings, hparams, -⟩ := execRxParse_isolated.of_next (x := s.surroundings) h
  exact ⟨execRxParse_keeps_inv _ hloaded _ h, hkept .slaveAddr (by simp), hkept .storage (by simp),
    congrArg Surroundings.io hsurroundings, hparams⟩

theorem ParsedFrom.withResp (h : ParsedFrom s t) (r : Option Response) : ParsedFrom s (t.withResp r) :=
  ⟨h.inv.withResp r, h.slave_addr, h.storage, h.io, h.params⟩

/-! ### Requests with their CRC -/

theorem handleFrame_request (hs : s.Inv) (hslave : slave = s.slaveAddr ∨ slave = 0) (h : SpellsRequest func tail) :
    ∃ t, ParsedFrom s t ∧ t.fb = (s.sealedRequest slave func addr qty tail).fb ∧
      t.request = ⟨(kindOf func).toNat, slave, func, addr, qty, (tail.headD 0).toNat⟩ ∧
      handleFrame (sealFrame (requestBytes slave func addr qty tail)) tel rec s =
        handleRequest t.request tel rec t := by
  have hlen : (sealFrame (requestBytes slave func addr qty tail)).length ≤ 256 := by
    rw [sealFrame_length, requestBytes_length]
    have := h.length_le
    omega
  have hparse := execRxParse_sealedRequest (addr := addr) (qty := qty) hs.fb_wf hslave h
  obtain ⟨r, hhandle⟩ := handleFrame_of_ok (tel := tel) (rec := rec) hlen hparse
  exact ⟨_, (parsedFrom_of_parse hs hlen hparse).withResp r, rfl, rfl, hhandle⟩

/-- The CRC that the statements write out (R90). -/
theorem append_crc_eq_sealFrame (head : List Byte) :
    head ++ [BitVec.ofNat 8 (crc16 .modbus head).toNat, BitVec.ofNat 8 ((crc16 .modbus head).toNat / 256)] =
      sealFrame head := by
  rw [ofNat_toNat_eq_lo8, ofNat_toNat_div_eq_hi8]
  rfl

theorem requestBytes_eq (slave func : Byte) (addr qty : Word16) (tail : List Byte) :
    requestBytes slave func addr qty tail =
      [slave, func, BitVec.ofNat 8 (addr.toNat / 256), BitVec.ofNat 8 addr.toNat, BitVec.ofNat 8 (qty.toNat / 256),
        BitVec.ofNat 8 qty.toNat] ++ tail := by
  simp only [ofNat_toNat_eq_lo8, ofNat_toNat_div_eq_hi8]
  rfl

/-! ### Reads (R223) -/

theorem handleFrame_read (hs : s.Inv) (hslave : slave = s.slaveAddr ∨ slave = 0)
    (hbroadcast : s.params.answerBroadcast = true) (hfunc : func = 0x03 ∨ func = 0x04) :
    ∃ t, handleFrame (sealFrame (requestBytes slave func addr qty [])) tel rec s = .done (.ok ⟨some
        (Request.readReply ⟨(kindOf func).toNat, slave, func, addr, qty, 0⟩ tel (rec.serialise s.params.storeEndian)),
        rec⟩) t ∧ t.storage = s.storage := by
  have hspells : SpellsRequest func [] := .inl ⟨by tauto, rfl⟩
  obtain ⟨t, hparsed, -, hrequest, hhandle⟩ :=
    handleFrame_request (addr := addr) (qty := qty) (tel := tel) (rec := rec) hs hslave hspells
  have hkind : t.request.kind = 1 ∨ t.request.kind = 2 := by
    rw [hrequest]
    obtain rfl | rfl := hfunc
    · exact .inl rfl
    · exact .inr rfl
  have hsends := handleRead_sends (q := t.request) (tel := tel) (rec := rec) hparsed.inv.fb_wf
    (by rw [hparsed.params, hbroadcast])
  obtain ⟨u, hread, hstorage, -⟩ := hsends.ends
  refine ⟨u, ?_, hstorage.trans hparsed.storage⟩
  rw [hhandle, handleRequest, if_pos hkind, hread, hparsed.params, hrequest]
  rfl

/-- The map of function 0x03 (R220). -/
theorem readReply_holding (count : Nat) (recBytes : List Byte) :
    Request.readReply ⟨1, slave, 0x03, addr, qty, count⟩ tel recBytes =
      if qty.toNat < 1 ∨ 125 < qty.toNat then sealFrame [slave, 0x83, 0x03]
      else if addr.toNat + qty.toNat ≤ 32 then
        sealFrame ([slave, 0x03, BitVec.ofNat 8 (2 * qty.toNat)] ++
          (recBytes.drop (2 * addr.toNat)).take (2 * qty.toNat))
      else if 100 ≤ addr.toNat ∧ addr.toNat + qty.toNat ≤ 108 then
        sealFrame ([slave, 0x03, BitVec.ofNat 8 (2 * qty.toNat)] ++
          (tel.bytes.drop (2 * (addr.toNat - 100))).take (2 * qty.toNat))
      else sealFrame [slave, 0x83, 0x02] := by
  simp only [Request.readReply, readSpan, inRange, if_true, Bool.and_eq_true, decide_eq_true_eq, Nat.zero_le, true_and,
    Nat.zero_add, Nat.reduceAdd]
  split_ifs
  · rfl
  · rfl
  · rfl
  · rfl

/-- The map of function 0x04 (R220). -/
theorem readReply_input (count : Nat) (recBytes : List Byte) :
    Request.readReply ⟨2, slave, 0x04, addr, qty, count⟩ tel recBytes =
      if qty.toNat < 1 ∨ 125 < qty.toNat then sealFrame [slave, 0x84, 0x03]
      else if addr.toNat + qty.toNat ≤ 8 then
        sealFrame ([slave, 0x04, BitVec.ofNat 8 (2 * qty.toNat)] ++
          (tel.bytes.drop (2 * addr.toNat)).take (2 * qty.toNat))
      else sealFrame [slave, 0x84, 0x02] := by
  simp only [Request.readReply, readSpan, inRange, Bool.and_eq_true, decide_eq_true_eq, Nat.zero_le, true_and,
    Nat.zero_add, OfNat.ofNat_ne_one, if_false]
  split_ifs
  · rfl
  · rfl
  · rfl

end

/-- Settles O59: both frames pass the parser, and the reply is that of the map of their function. -/
theorem handlerReadsTheMirror : Obligations.HandlerReadsTheMirror := by
  unfold Obligations.HandlerReadsTheMirror
  intro s slave addr qty tel rec hs hslave hbroadcast body close values a n
  have hclose : close = sealFrame := funext append_crc_eq_sealFrame
  have hbody (func : Byte) : body func = requestBytes slave func addr qty [] :=
    ((requestBytes_eq slave func addr qty []).trans (List.append_nil _)).symm
  clear_value close body
  subst hclose
  simp only [hbody]
  obtain ⟨t, hholding, hstorage⟩ := handleFrame_read (addr := addr) (qty := qty) (tel := tel) (rec := rec)
    (func := 0x03) hs hslave hbroadcast (.inl rfl)
  obtain ⟨u, hinput, hstorage'⟩ := handleFrame_read (addr := addr) (qty := qty) (tel := tel) (rec := rec)
    (func := 0x04) hs hslave hbroadcast (.inr rfl)
  refine ⟨⟨t, hholding.trans ?_, hstorage⟩, u, hinput.trans ?_, hstorage'⟩
  · rw [show (kindOf 0x03).toNat = 1 from rfl, readReply_holding]
    rfl
  · rw [show (kindOf 0x04).toNat = 2 from rfl, readReply_input]
    rfl

end Sys2Proof.Machine
end

section
/-! O60 (R220, R221, R224). A write request of one register or of several, by what the two writes of the save do. -/

namespace Sys2Proof.Machine

section

variable {s t : State} {slave func : Byte} {addr qty : Word16} {tel : Telemetry} {rec : ConfigRecord}
  {tail data torn : List Byte} {rest : List IoEvent} {n : Nat}

/-! ### Write requests -/

/-- The two write requests (R93, R94): function code, what follows address and value or quantity, the data and the
number of registers that they fill. -/
inductive SpellsWrite (qty : Word16) : Byte → List Byte → List Byte → Nat → Prop
  | single : SpellsWrite qty 0x06 [] (be16Bytes qty) 1
  | multiple {payload : List Byte} (hpos : 0 < qty.toNat) (hle : qty.toNat ≤ 123)
      (hlen : payload.length = 2 * qty.toNat) :
      SpellsWrite qty 0x10 (BitVec.ofNat 8 payload.length :: payload) payload qty.toNat

theorem SpellsWrite.spellsRequest (h : SpellsWrite qty func tail data n) : SpellsRequest func tail := by
  cases h with
  | single => exact .inl ⟨.inr (.inr rfl), rfl⟩
  | multiple hpos hle hlen =>
    have hcount : (BitVec.ofNat 8 data.length).toNat = data.length := toNat_ofNat_of_lt (by omega)
    exact .inr ⟨rfl, _, _, rfl, hcount.symm, by omega⟩

theorem SpellsWrite.data_length (h : SpellsWrite qty func tail data n) : data.length = 2 * n := by
  cases h with
  | single => rfl
  | multiple hpos hle hlen => exact hlen

theorem SpellsWrite.pos (h : SpellsWrite qty func tail data n) : 0 < n := by
  cases h with
  | single => decide
  | multiple hpos hle hlen => exact hpos

/-- The bytes read back from the middle of a string written at the start. -/
theorem slice_writeAll_middle {size : Nat} {m : Memory} {xs ys zs : List Byte} (hm : Memory.wf size m = true)
    (h : (xs ++ ys ++ zs).length ≤ size) :
    Memory.slice (Memory.writeAll m 0 (xs ++ ys ++ zs)) xs.length ys.length = ys := by
  have hfront := slice_writeAll_left (a := 0) (xs := xs ++ ys) (ys := zs) hm (by omega)
  rw [List.length_append, slice_append, Nat.zero_add] at hfront
  exact List.append_inj_right hfront (slice_length _ _ _)

/-- The payload of a 0x10 request, read back out of its frame. -/
theorem slice_sealedRequest {count : Byte} {payload : List Byte} (hfb : Memory.wf 256 s.fb = true)
    (h : payload.length ≤ 247) :
    Memory.slice (s.sealedRequest slave func addr qty (count :: payload)).fb 7 payload.length = payload := by
  have hsplit : requestBytes slave func addr qty (count :: payload) =
      requestBytes slave func addr qty [count] ++ payload := by simp [requestBytes]
  have hlen := requestBytes_length slave func addr qty [count]
  rw [State.sealedRequest, hsplit]
  refine slice_writeAll_middle (xs := requestBytes slave func addr qty [count]) hfb ?_
  rw [List.length_append, List.length_append, hlen]
  exact Nat.add_le_add (Nat.add_le_add le_rfl h) (show 2 ≤ 2 from le_rfl)

/-- Of a parsed 0x10 request the payload stands in the frame (R138). -/
theorem State.Inv.request_count (hs : s.Inv) (h : s.request.kind = 4) : 7 + s.request.count ≤ s.fbLen.toNat := by
  have hcount := hs.parsed_count (BitVec.eq_of_toNat_eq h)
  change 7 + s.rBc.toNat ≤ s.fbLen.toNat
  omega

/-- The record of a write request, without a checksum of its own. -/
def patchedRecord (e : Endian) (rec : ConfigRecord) (addr : Word16) (data : List Byte) : ConfigRecord :=
  .parse e (patchBytes (rec.serialise e) (2 * addr.toNat) data)

/-- A write request that passes the parser is a write of its data. -/
theorem handleFrame_write (hs : s.Inv) (hslave : slave = s.slaveAddr ∨ slave = 0)
    (h : SpellsWrite qty func tail data n) :
    ∃ t kind count, ParsedFrom s t ∧ t.request = ⟨kind, slave, func, addr, qty, count⟩ ∧ t.request.writeCount = n ∧
      t.request.newRecord rec t = patchedRecord s.params.storeEndian rec addr data ∧
      handleFrame (sealFrame (requestBytes slave func addr qty tail)) tel rec s = handleWrite t.request rec t := by
  obtain ⟨t, hparsed, hfb, hrequest, hhandle⟩ :=
    handleFrame_request (addr := addr) (qty := qty) (tel := tel) (rec := rec) hs hslave h.spellsRequest
  refine ⟨t, _, _, hparsed, hrequest, ?_⟩
  rw [hhandle, handleRequest, Request.newRecord, Request.payload, hparsed.params, hrequest, hfb]
  cases h with
  | single => exact ⟨rfl, rfl, rfl⟩
  | multiple hpos hle hlen =>
    have hcount : (BitVec.ofNat 8 data.length).toNat = data.length := toNat_ofNat_of_lt (by omega)
    have hmatch : data.length ≠ 0 ∧ data.length = 2 * qty.toNat := by omega
    refine ⟨rfl, ?_, rfl⟩
    simp only [List.headD_cons, hcount]
    rw [show (kindOf 0x10).toNat = 4 from rfl, if_pos rfl, slice_sealedRequest hs.fb_wf (by omega), Request.patched,
      if_pos rfl, if_pos hmatch, patchedRecord]

/-! ### The four outcomes -/

theorem nextIo_ioTaken_of_cons {event event' : IoEvent} (h : s.io = event :: event' :: rest) :
    s.ioTaken.nextIo = event' := by
  rw [ioTaken_of_cons h]
  rfl

/-- The record of a write request with the checksum that the save gives it. -/
def State.savedRecord (s : State) (rec : ConfigRecord) (addr : Word16) (data : List Byte) : ConfigRecord :=
  (patchedRecord s.params.storeEndian rec addr data).withCrc s.params

section

variable (hs : s.Inv) (hslave : slave = s.slaveAddr ∨ slave = 0) (hbroadcast : s.params.answerBroadcast = true)
  (h : SpellsWrite qty func tail data n)

include hs hslave hbroadcast h

theorem handleFrame_write_outside (hout : 32 < addr.toNat + n) :
    ∃ t, handleFrame (sealFrame (requestBytes slave func addr qty tail)) tel rec s =
      .done (.ok ⟨some (sealFrame [slave, func ||| 0x80#8, illegalDataAddress]), rec⟩) t ∧ t.storage = s.storage := by
  obtain ⟨t, kind, count, hparsed, hrequest, hcount, -, hhandle⟩ :=
    handleFrame_write (addr := addr) (tel := tel) (rec := rec) hs hslave h
  have hpos := h.pos
  have haddr : t.request.addr = addr := congrArg Request.addr hrequest
  have houtside : writeInside t.request.addr.toNat t.request.writeCount = false := by
    rw [haddr, hcount, writeInside, Bool.or_eq_false_iff, decide_eq_false_iff_not, decide_eq_false_iff_not]
    omega
  obtain ⟨u, hwrite, hstorage, -⟩ :=
    (handleWrite_outside (rec := rec) hparsed.inv (by rw [hparsed.params, hbroadcast]) houtside).ends
  exact ⟨u, by rw [hhandle, hwrite, hrequest], hstorage.trans hparsed.storage⟩

/-- Inside the map the outcome is that of the save, from the parsed state. -/
theorem handleFrame_write_inside (hin : addr.toNat + n ≤ 32) :
    ∃ t kind count, ParsedFrom s t ∧ t.request = ⟨kind, slave, func, addr, qty, count⟩ ∧
      (t.request.newRecord rec t).withCrc t.params = s.savedRecord rec addr data ∧
      t.params.answerBroadcast = true ∧
      (t.request.kind = 4 → 7 + t.request.count ≤ t.fbLen.toNat) ∧
      writeInside t.request.addr.toNat t.request.writeCount = true ∧
      handleFrame (sealFrame (requestBytes slave func addr qty tail)) tel rec s = handleWrite t.request rec t := by
  obtain ⟨t, kind, count, hparsed, hrequest, hcount, hnew, hhandle⟩ :=
    handleFrame_write (addr := addr) (tel := tel) (rec := rec) hs hslave h
  have haddr : t.request.addr = addr := congrArg Request.addr hrequest
  refine ⟨t, kind, count, hparsed, hrequest, ?_, by rw [hparsed.params, hbroadcast], hparsed.inv.request_count, ?_,
    hhandle⟩
  · rw [hnew, hparsed.params, State.savedRecord]
  · rw [haddr, hcount, writeInside, decide_eq_true hin, Bool.or_true]

theorem handleFrame_write_succeeds (hin : addr.toNat + n ≤ 32) (hio : s.io = []) :
    ∃ t, handleFrame (sealFrame (requestBytes slave func addr qty tail)) tel rec s =
        .done (.ok ⟨some (sealFrame (requestBytes slave func addr qty [])), s.savedRecord rec addr data⟩) t ∧
      t.storage = bothCopies s.storage ((s.savedRecord rec addr data).page s.params) := by
  obtain ⟨t, kind, count, hparsed, hrequest, hnew, hsend, hcount, hinside, hhandle⟩ :=
    handleFrame_write_inside (tel := tel) (rec := rec) hs hslave hbroadcast h hin
  have htio : t.io = [] := hparsed.io.trans hio
  obtain ⟨u, hwrite, hstorage, -⟩ := (handleWrite_succeeds (rec := rec) hparsed.inv hsend hcount hinside
    (nextIo_of_nil htio) (nextIo_of_nil (by rw [ioTaken_of_nil htio, htio]))).ends
  refine ⟨u, ?_, ?_⟩
  · rw [hhandle, hwrite, hnew, hrequest]
    rfl
  · rw [hstorage, afterSave_storage, hnew, hparsed.params, hparsed.storage]

theorem handleFrame_write_primary_fails (hin : addr.toNat + n ≤ 32) (hio : s.io = .failed torn :: rest) :
    ∃ t, handleFrame (sealFrame (requestBytes slave func addr qty tail)) tel rec s =
        .done (.ok ⟨some (sealFrame [slave, func ||| 0x80#8, serverDeviceFailure]), rec⟩) t ∧ t.io = rest ∧
      t.storage = tornWrite s.storage 0 1024 torn := by
  obtain ⟨t, kind, count, hparsed, hrequest, -, hsend, hcount, hinside, hhandle⟩ :=
    handleFrame_write_inside (tel := tel) (rec := rec) hs hslave hbroadcast h hin
  have htio := hparsed.io.trans hio
  obtain ⟨u, hwrite, hstorage, hrest, -⟩ := (handleWrite_primary_fails (rec := rec) hparsed.inv hsend hcount hinside
    (nextIo_of_cons htio)).ends
  refine ⟨u, by rw [hhandle, hwrite, hrequest], ?_, ?_⟩
  · rw [hrest, afterSave_io, htio, List.tail_cons]
  · rw [hstorage, afterSave_storage, hparsed.storage]

theorem handleFrame_write_secondary_fails (hin : addr.toNat + n ≤ 32) (hio : s.io = .ok :: .failed torn :: rest) :
    ∃ t, handleFrame (sealFrame (requestBytes slave func addr qty tail)) tel rec s =
        .done (.ok ⟨some (sealFrame [slave, func ||| 0x80#8, serverDeviceFailure]), rec⟩) t ∧ t.io = rest ∧
      t.storage = tornWrite (Memory.writeAll s.storage 0 ((s.savedRecord rec addr data).page s.params)) 1024 1024
        torn := by
  obtain ⟨t, kind, count, hparsed, hrequest, hnew, hsend, hcount, hinside, hhandle⟩ :=
    handleFrame_write_inside (tel := tel) (rec := rec) hs hslave hbroadcast h hin
  have htio := hparsed.io.trans hio
  obtain ⟨u, hwrite, hstorage, hrest, -⟩ := (handleWrite_secondary_fails (rec := rec) hparsed.inv hsend hcount hinside
    (nextIo_of_cons htio) (nextIo_ioTaken_of_cons htio)).ends
  refine ⟨u, by rw [hhandle, hwrite, hrequest], ?_, ?_⟩
  · rw [hrest, afterSave_io, htio, List.tail_cons, List.tail_cons]
  · rw [hstorage, afterSave_storage, hnew, hparsed.params, hparsed.storage]

end

/-! ### The saved record -/

theorem patchBytes_length {bytes : List Byte} {i : Nat} (h : i + data.length ≤ bytes.length) :
    (patchBytes bytes i data).length = bytes.length := by
  simp [patchBytes]
  omega

/-- The saved record is the patched bytes, but for the checksum (R205, R224). -/
theorem drop_serialise_savedRecord (h : 2 * addr.toNat + data.length ≤ 111) :
    ((s.savedRecord rec addr data).serialise s.params.storeEndian).drop 2 =
      (patchBytes (rec.serialise s.params.storeEndian) (2 * addr.toNat) data).drop 2 := by
  have hlen := serialise_length s.params.storeEndian rec
  rw [State.savedRecord, ConfigRecord.withCrc, serialise_setCrc, List.drop_left' (put16_length _ _), patchedRecord,
    serialise_parse (by rw [patchBytes_length (by omega), hlen])]

end

/-- Settles O60: outside the map nothing is written; inside it the two writes of the save give the three outcomes. -/
theorem handlerWritesOneRegister : Obligations.HandlerWritesOneRegister := by
  unfold Obligations.HandlerWritesOneRegister
  intro s slave func addr qty payload tel rec hs hslave hbroadcast hfunc e head body data a n close refuse bytes patched
  have hclose : close = sealFrame := funext append_crc_eq_sealFrame
  have hhead : head = requestBytes slave func addr qty [] :=
    ((requestBytes_eq slave func addr qty []).trans (List.append_nil _)).symm
  obtain ⟨tail, hspells, hbody, hrefuse⟩ : ∃ tail, SpellsWrite qty func tail data n ∧
      body = requestBytes slave func addr qty tail ∧
      ∀ code, refuse code = sealFrame [slave, func ||| 0x80#8, code] := by
    obtain rfl | ⟨rfl, hpos, hle, hlen⟩ := hfunc
    · have hdata : data = be16Bytes qty := congrArg (List.drop 4) hhead
      have hone : n = 1 := if_pos rfl
      refine ⟨[], ?_, hhead, fun code => congrFun hclose _⟩
      rw [hdata, hone]
      exact .single
    · have hmany : ¬ (0x10 : Byte) = 0x06 := by decide
      have hdata : data = payload := if_neg hmany
      have hcount : n = qty.toNat := if_neg hmany
      refine ⟨_, ?_, (if_neg hmany).trans (requestBytes_eq slave 0x10 addr qty _).symm, fun code => congrFun hclose _⟩
      rw [hdata, hcount]
      exact .multiple hpos hle hlen
  have hlen := hspells.data_length
  have hm := hs.storage_wf
  have hpage := page_length s.params (s.savedRecord rec addr data)
  have hpatched : patched = patchBytes bytes (2 * a) data := by
    rw [patchBytes, hlen, ← Nat.mul_add]
  have hbytes (hin : a + n ≤ 32) :
      ((s.savedRecord rec addr data).serialise e).drop 2 = patched.drop 2 :=
    hpatched ▸ drop_serialise_savedRecord (by omega)
  clear_value close head body data n refuse patched
  subst hclose hhead hbody
  simp only [hrefuse]
  refine ⟨handleFrame_write_outside hs hslave hbroadcast hspells, fun hin hio => ?_, fun torn rest hin hio => ?_,
    fun torn rest hin hio => ?_⟩
  · obtain ⟨t, hhandle, hstorage⟩ :=
      handleFrame_write_succeeds (tel := tel) (rec := rec) hs hslave hbroadcast hspells hin hio
    obtain ⟨hprimary, hsecondary⟩ := slice_bothCopies hm hpage
    rw [← hstorage] at hprimary hsecondary
    exact ⟨_, t, hhandle, hbytes hin, hprimary, hsecondary, by
      rw [State.primary, hprimary]
      exact pageValid_page_withCrc _ _⟩
  · obtain ⟨t, hhandle, hrest, hstorage⟩ :=
      handleFrame_write_primary_fails (tel := tel) (rec := rec) hs hslave hbroadcast hspells hin hio
    refine ⟨t, hhandle, hrest, ?_⟩
    rw [State.secondary, State.secondary, hstorage]
    exact slice_congr fun x hx _ => read_tornWrite_outside hm (.inr hx)
  · obtain ⟨t, hhandle, hrest, hstorage⟩ :=
      handleFrame_write_secondary_fails (tel := tel) (rec := rec) hs hslave hbroadcast hspells hin hio
    have hprimary : t.primary = (s.savedRecord rec addr data).page s.params := by
      have hkept := slice_congr (a := 0) (n := 1024) fun x _ hx =>
        read_tornWrite_outside (n := 1024) (torn := torn) (writeAll_primary_wf hm hpage) (.inl (show x < 1024 by omega))
      rw [State.primary, hstorage, hkept, slice_primary hm hpage]
    exact ⟨_, t, hhandle, hrest, hbytes hin, hprimary, by
      rw [hprimary]
      exact pageValid_page_withCrc _ _⟩

end Sys2Proof.Machine
end

section
/-! O58 (R221, R225, R253, R284). What the parser says of any frame, and that the handler answers the frames
that pass. -/

namespace Sys2Proof.Machine

section

variable {s t u : State} {slave func code : Byte} {tel : Telemetry} {rec new : ConfigRecord} {q : Request}
  {frame bytes data rest : List Byte} {p : ProcResult (Except HostError Handled)}

/-! ### Answers to a request -/

/-- A sealed frame of that slave, with that function code or an exception to it. -/
def AnswersRequest (slave func : Byte) (f : List Byte) : Prop :=
  sealedFrame f = true ∧ f.headD 0 = slave ∧
    (f.getD 1 0 = func ∨
      (f.length = 5 ∧ f.getD 1 0 = func ||| 0x80 ∧ f.getD 2 0 ∈ [0x01, 0x02, 0x03, 0x04]))

theorem sealedFrame_append_pair (head : List Byte) (crcLo crcHi : Byte) :
    sealedFrame (head ++ [crcLo, crcHi]) = true ↔
      crcLo = lo8 (crc16 .modbus head) ∧ crcHi = hi8 (crc16 .modbus head) := by
  have hlen : (head ++ [crcLo, crcHi]).length - 2 = head.length := by simp
  rw [sealedFrame, hlen, List.take_left, List.drop_left, Bool.and_eq_true, decide_eq_true_eq, decide_eq_true_eq]
  simp [crcBytes]

theorem sealedFrame_sealFrame (head : List Byte) : sealedFrame (sealFrame head) = true :=
  (sealedFrame_append_pair head _ _).2 ⟨rfl, rfl⟩

theorem answersRequest_normal : AnswersRequest slave func (sealFrame (slave :: func :: data)) :=
  ⟨sealedFrame_sealFrame _, rfl, .inl rfl⟩

theorem answersRequest_exception (hcode : code ∈ [0x01#8, 0x02#8, 0x03#8, 0x04#8]) :
    AnswersRequest slave func (sealFrame [slave, func ||| 0x80#8, code]) :=
  ⟨sealedFrame_sealFrame _, rfl, .inr ⟨rfl, rfl, hcode⟩⟩

/-- A procedure that sends an answer to a request, and keeps the invariant and the slave address. -/
def Replies (slave func : Byte) (s : State) (p : ProcResult (Except HostError Handled)) : Prop :=
  ∃ f new t, p = .done (.ok ⟨some f, new⟩) t ∧ AnswersRequest slave func f ∧ t.Inv ∧ t.slaveAddr = s.slaveAddr

theorem Sends.replies (h : Sends p bytes new t) (hbytes : AnswersRequest slave func bytes) (ht : t.Inv)
    (hslave : t.slaveAddr = s.slaveAddr) : Replies slave func s p := by
  obtain ⟨u, hp, -, -, hu, hinv⟩ := h.ends
  exact ⟨bytes, new, u, hp, hbytes, hinv ht, hu.trans hslave⟩

/-! ### Requests, while the storage has power -/

/-- Every coming access succeeds or fails; none loses power. -/
def StorageAnswers (s : State) : Prop := ∀ ev ∈ s.io, ∃ torn, ev = .ok ∨ ev = .failed torn

theorem StorageAnswers.nextIo (h : StorageAnswers s) : s.nextIo = .ok ∨ ∃ torn, s.nextIo = .failed torn := by
  cases hio : s.io with
  | nil => exact .inl (nextIo_of_nil hio)
  | cons ev rest =>
    rw [nextIo_of_cons hio]
    obtain ⟨torn, rfl | rfl⟩ := h ev (hio ▸ List.mem_cons_self)
    · exact .inl rfl
    · exact .inr ⟨torn, rfl⟩

theorem StorageAnswers.ioTaken (h : StorageAnswers s) : StorageAnswers s.ioTaken :=
  fun ev hev => h ev (List.mem_of_mem_tail hev)

theorem readReply_answers (recBytes : List Byte) :
    AnswersRequest q.slave q.func (q.readReply tel recBytes) := by
  rw [Request.readReply]
  split
  next => exact answersRequest_exception (by decide)
  next =>
    split
    next => exact answersRequest_normal
    next => exact answersRequest_exception (by decide)

theorem handleWrite_replies (hs : s.Inv) (hbroadcast : s.params.answerBroadcast = true) (hio : StorageAnswers s)
    (hcount : q.kind = 4 → 7 + q.count ≤ s.fbLen.toNat) : Replies q.slave q.func s (handleWrite q rec s) := by
  have hst := hs.storage_wf
  have hpage (r : ConfigRecord) : (r.page s.params).length = 1024 := page_length _ _
  cases hinside : writeInside q.addr.toNat q.writeCount with
  | false =>
    exact (handleWrite_outside hs hbroadcast hinside).replies (answersRequest_exception (by decide)) hs rfl
  | true =>
    obtain hok | ⟨torn, hfailed⟩ := hio.nextIo
    · obtain hok' | ⟨torn, hfailed⟩ := hio.ioTaken.nextIo
      · exact (handleWrite_succeeds hs hbroadcast hcount hinside hok hok').replies answersRequest_normal
          (hs.afterSave _ _ (bothCopies_wf hst (hpage _))) rfl
      · exact (handleWrite_secondary_fails hs hbroadcast hcount hinside hok hfailed).replies
          (answersRequest_exception (by decide))
          (hs.afterSave _ _ (tornWrite_wf _ _ _ (writeAll_primary_wf hst (hpage _)))) rfl
    · exact (handleWrite_primary_fails hs hbroadcast hcount hinside hfailed).replies
        (answersRequest_exception (by decide)) (hs.afterSave _ _ (tornWrite_wf _ _ _ hst)) rfl

theorem handleRequest_replies (hs : s.Inv) (hbroadcast : s.params.answerBroadcast = true) (hio : StorageAnswers s) :
    Replies s.rSlave s.rFunc s (handleRequest s.request tel rec s) := by
  rw [handleRequest]
  split
  next => exact (handleRead_sends hs.fb_wf hbroadcast).replies (readReply_answers _) hs rfl
  next => exact handleWrite_replies hs hbroadcast hio hs.request_count

/-! ### The parser on any frame -/

theorem exists_frame_parts (h : 8 ≤ frame.length) : ∃ slave func rest crcLo crcHi,
    frame = slave :: func :: rest ++ [crcLo, crcHi] ∧ 4 ≤ rest.length := by
  match frame, h with
  | slave :: func :: tail, h =>
    rw [List.length_cons, List.length_cons] at h
    obtain ⟨crcLo, crcHi, hcrc⟩ := List.length_eq_two.1 (show (tail.drop (tail.length - 2)).length = 2 by simp; omega)
    refine ⟨slave, func, tail.take (tail.length - 2), crcLo, crcHi, ?_, by rw [List.length_take]; omega⟩
    rw [List.cons_append, List.cons_append, ← hcrc, List.take_append_drop]

/-- The state in which the parser reads the function code. -/
def State.addressed (s : State) (slave func : Byte) : State :=
  { s with rSlave := slave, rFunc := func }.answer .ok 0

/-- `RX.PARSE` of a frame that has parts (R134). -/
theorem execRxParse_received {crcLo crcHi : Byte} (hfb : Memory.wf 256 s.fb = true) (h4 : 4 ≤ rest.length)
    (h252 : rest.length ≤ 252) :
    let body := slave :: func :: rest
    let t := s.loadedFrame (body ++ [crcLo, crcHi])
    execRxParse (s.received (body ++ [crcLo, crcHi])) =
      if slave ≠ s.slaveAddr ∧ slave ≠ 0 then .next (t.answer .invalidSlaveAddress 0)
      else if crcLo ≠ lo8 (crc16 .modbus body) ∨ crcHi ≠ hi8 (crc16 .modbus body) then .next (t.answer .invalidCrc 0)
      else dispatchFunction (body.length + 2) (t.addressed slave func) :=
  (parseFrame_of_length (List.append_ne_nil_of_left_ne_nil (List.cons_ne_nil _ _) _) (by simp; omega)).symm.trans
    (parseFrame_of_fits hfb h4 h252)

/-- An outcome of the parser that the handler answers: a request of that slave and function code, accepted or with an
unknown code. -/
def Answered (slave func : Byte) (o : Out) : Prop :=
  ∃ u : State, u.rSlave = slave ∧ u.rFunc = func ∧
    (o = .next (u.answer .ok 0) ∨ o = .next (u.answer .exception (illegalFunction.setWidth 32)))

/-- An outcome of the parser that the handler drops. -/
def Dropped (o : Out) : Prop :=
  ∃ (u : State) (st : Status), st ≠ .ok ∧ st ≠ .exception ∧ o = .next (u.answer st 0)

theorem answered_acceptRequest (kind : BitVec 3) (count : Byte) (s : State) :
    Answered s.rSlave s.rFunc (acceptRequest kind count s) :=
  ⟨{ s with rAddr := s.frameField 2, rQty := s.frameField 4, rBc := count, rKind := kind }, rfl, rfl, .inl rfl⟩

theorem dropped_answer {st : Status} (s : State) (hok : st ≠ .ok) (hexc : st ≠ .exception) :
    Dropped (.next (s.answer st 0)) := ⟨s, st, hok, hexc, rfl⟩

/-- The function code of a loaded frame: accepted, or an `IllegalFunction` exception, or a 0x10 request of the wrong
length. -/
theorem dispatchFunction_cases (len : Nat) (s : State) :
    (Answered s.rSlave s.rFunc (dispatchFunction len s) ∧
        (Memory.read s.fb 1 ≠ 0x10 ∨ len = 9 + (Memory.read s.fb 6).toNat)) ∨
      (Dropped (dispatchFunction len s) ∧
        Memory.read s.fb 1 = 0x10 ∧ len ≠ 9 + (Memory.read s.fb 6).toNat) := by
  rw [dispatchFunction_eq]
  split_ifs with h3 h4 h6 h16 hcount
  · exact .inl ⟨answered_acceptRequest _ _ _, .inl (by rw [h3]; decide)⟩
  · exact .inl ⟨answered_acceptRequest _ _ _, .inl (by rw [h4]; decide)⟩
  · exact .inl ⟨answered_acceptRequest _ _ _, .inl (by rw [h6]; decide)⟩
  · exact .inl ⟨answered_acceptRequest _ _ _, .inr hcount⟩
  · exact .inr ⟨dropped_answer s nofun nofun, h16, hcount⟩
  · exact .inl ⟨⟨s, rfl, rfl, .inr rfl⟩, .inl h16⟩

/-- What the parser's checks are of a frame that has parts. -/
theorem passesChecks_iff {crcLo crcHi : Byte} {body : List Byte} (hbody : body = slave :: func :: rest)
    (h4 : 4 ≤ rest.length) :
    passesChecks s (body ++ [crcLo, crcHi]) = true ↔
      (slave = s.slaveAddr ∨ slave = 0) ∧
        (crcLo = lo8 (crc16 .modbus body) ∧ crcHi = hi8 (crc16 .modbus body)) ∧
        (func ≠ 0x10 ∨ body.length + 2 = 9 + ((body ++ [crcLo, crcHi]).getD 6 0).toNat) := by
  have hlen : (body ++ [crcLo, crcHi]).length = body.length + 2 := List.length_append
  have h8 : 8 ≤ body.length + 2 := by simp [hbody]; omega
  rw [passesChecks, hlen, ← sealedFrame_append_pair]
  simp only [Bool.and_eq_true, Bool.or_eq_true, decide_eq_true_eq, h8, true_and, and_assoc]
  rw [hbody]
  rfl

/-- `RX.PARSE` accepts the frames that pass its checks, but for an unknown function code (R133, R134). -/
theorem execRxParse_cases (hs : s.Inv) (h256 : frame.length ≤ 256) :
    (passesChecks s frame = true ∧ Answered (frame.headD 0) (frame.getD 1 0) (execRxParse (s.received frame))) ∨
      (passesChecks s frame = false ∧ Dropped (execRxParse (s.received frame))) := by
  by_cases h8 : 8 ≤ frame.length
  case neg =>
    have hshort : (s.received frame).fbLen.toNat < 8 := (loadedFrame_len (s := s) h256).trans_lt (Nat.not_le.1 h8)
    have hfails : passesChecks s frame = false := by
      rw [passesChecks, decide_eq_false h8, Bool.false_and, Bool.false_and, Bool.false_and]
    rw [execRxParse_of_short hshort]
    exact .inr ⟨hfails, dropped_answer _ nofun nofun⟩
  case pos =>
    obtain ⟨slave, func, rest, crcLo, crcHi, rfl, h4⟩ := exists_frame_parts h8
    have hlen : (slave :: func :: rest ++ [crcLo, crcHi]).length = rest.length + 4 := by simp
    rw [execRxParse_received hs.fb_wf h4 (by omega), ← Bool.not_eq_true, passesChecks_iff rfl h4]
    split_ifs with hslave hcrc
    · exact .inr ⟨fun ⟨h, _⟩ => not_or.2 hslave h, dropped_answer _ nofun nofun⟩
    · exact .inr ⟨fun ⟨_, h, _⟩ => not_and_or.2 hcrc h, dropped_answer _ nofun nofun⟩
    · have hcases := dispatchFunction_cases ((slave :: func :: rest).length + 2)
        ((s.loadedFrame (slave :: func :: rest ++ [crcLo, crcHi])).addressed slave func)
      have hread {i : Nat} (hi : i < rest.length + 4) :
          Memory.read ((s.loadedFrame (slave :: func :: rest ++ [crcLo, crcHi])).addressed slave func).fb i =
            (slave :: func :: rest ++ [crcLo, crcHi]).getD i 0 :=
        read_writeAll_zero hs.fb_wf h256 (by omega)
      have hfunc := hread (show 1 < rest.length + 4 by omega)
      rw [hfunc, hread (show 6 < rest.length + 4 by omega)] at hcases
      obtain ⟨hanswered, hcount⟩ | ⟨hdropped, hbad, hcount⟩ := hcases
      · exact .inl ⟨⟨by tauto, by tauto, hcount⟩, hanswered⟩
      · exact .inr ⟨fun ⟨_, _, h⟩ => h.elim (absurd hbad) hcount, hdropped⟩

/-! ### Frames -/

theorem ParsedFrom.storageAnswers (h : ParsedFrom s t) (hio : StorageAnswers s) : StorageAnswers t := by
  rw [StorageAnswers, h.io]
  exact hio

theorem handleFrame_cases (hs : s.Inv) (h256 : frame.length ≤ 256) (hbroadcast : s.params.answerBroadcast = true)
    (hio : StorageAnswers s) :
    (passesChecks s frame = true ∧ Replies (frame.headD 0) (frame.getD 1 0) s (handleFrame frame tel rec s)) ∨
      (passesChecks s frame = false ∧
        ∃ t, handleFrame frame tel rec s = .done (.ok ⟨none, rec⟩) t ∧ ParsedFrom s t) := by
  obtain ⟨hpass, u, hslave, hfunc, hparse | hparse⟩ | ⟨hpass, u, st, hok, hexc, hparse⟩ :=
    execRxParse_cases (frame := frame) hs h256
  · obtain ⟨r, hhandle⟩ := handleFrame_of_ok (tel := tel) (rec := rec) h256 hparse
    have hfrom : ParsedFrom s (u.withResp r) := (parsedFrom_of_parse hs h256 hparse).withResp r
    obtain ⟨f, new, t, hreply, hanswers, hinv, haddr⟩ := handleRequest_replies (tel := tel) (rec := rec) hfrom.inv
      (by rw [hfrom.params, hbroadcast]) (hfrom.storageAnswers hio)
    refine .inl ⟨hpass, f, new, t, hhandle.trans hreply, ?_, hinv, haddr.trans hfrom.slave_addr⟩
    rw [← hslave, ← hfunc]
    exact hanswers
  · obtain ⟨r, hhandle⟩ := handleFrame_of_exception (tel := tel) (rec := rec) h256 hparse
    have hfrom : ParsedFrom s (u.withResp r) := (parsedFrom_of_parse hs h256 hparse).withResp r
    have hsends := sendException_sends (slave := u.rSlave) (func := u.rFunc) (code := illegalFunction) (rec := rec)
      hfrom.inv.fb_wf (by rw [hfrom.params, hbroadcast])
    rw [hhandle, ← hslave, ← hfunc]
    exact .inl ⟨hpass, hsends.replies (answersRequest_exception (by decide)) hfrom.inv hfrom.slave_addr⟩
  · exact .inr ⟨hpass, _, handleFrame_of_error h256 hok hexc hparse, parsedFrom_of_parse hs h256 hparse⟩

/-! ### The slave address (R284) -/

theorem writeSlaveAddress_eq (r : ConfigRecord) (s : State) :
    writeSlaveAddress r s = .done (.ok ()) ({ s with slaveAddr := r.slaveAddress }.answer .ok 0) := by
  have hfits : ¬ (r.slaveAddress.setWidth 32).toNat > 0xFF := by
    rw [BitVec.toNat_setWidth_of_le (by decide)]
    have := r.slaveAddress.isLt
    omega
  have hwrite : s.writeReg .slaveAddr (r.slaveAddress.setWidth 32) = some { s with slaveAddr := r.slaveAddress } := by
    rw [State.writeReg, if_neg hfits, extractLsb'_setWidth_32 (by decide)]
  have hexec : exec (.regWr Reg.slaveAddr.number (r.slaveAddress.setWidth 32)) s =
      .next ({ s with slaveAddr := r.slaveAddress }.answer .ok 0) := by
    change execRegWr Reg.slaveAddr.number _ s = _
    rw [execRegWr, regOfNumber_number, Option.bind_some, hwrite]
    rfl
  rw [writeSlaveAddress, issueAll_cons_of_ok hexec]
  rfl

theorem serveFrame_of_handled {h : Handled} (hhandle : handleFrame frame tel rec s = .done (.ok h) t) (ht : t.Inv)
    (haddr : t.slaveAddr = s.slaveAddr) :
    ∃ u, serveFrame frame tel rec s = .done (.ok h) u ∧ u.Inv ∧ u.storage = t.storage ∧
      u.slaveAddr = if h.record.slaveAddress = rec.slaveAddress then s.slaveAddr else h.record.slaveAddress := by
  rw [serveFrame, hhandle, onOk_ok]
  split_ifs with hsame
  · exact ⟨t, rfl, ht, rfl, haddr⟩
  · rw [writeSlaveAddress_eq, onOk_ok]
    exact ⟨_, rfl, ht.of_frameUnit rfl rfl ht.hb_wf ht.crc_loaded, rfl, rfl⟩

end

/-- Settles O58: a frame that passes the checks is a request answered, any other is dropped. -/
theorem handlerAnswersEveryGoodFrame : Obligations.HandlerAnswersEveryGoodFrame := by
  unfold Obligations.HandlerAnswersEveryGoodFrame
  intro s frame tel rec hs h256 hbroadcast hio
  obtain ⟨hpass, f, new, t, hhandle, ⟨hsealed, hslave, hfunc⟩, ht, haddr⟩ | ⟨hpass, t, hhandle, ht⟩ :=
    handleFrame_cases (tel := tel) (rec := rec) hs h256 hbroadcast hio
  · obtain ⟨u, hserve, hu, -, huaddr⟩ := serveFrame_of_handled hhandle ht haddr
    exact ⟨_, u, hserve, hu, huaddr, fun hfails => absurd hpass (ne_true_of_eq_false hfails),
      fun _ => ⟨f, rfl, hsealed, hslave, hfunc⟩⟩
  · obtain ⟨u, hserve, hu, hstorage, huaddr⟩ := serveFrame_of_handled hhandle ht.inv ht.slave_addr
    exact ⟨_, u, hserve, hu, huaddr, fun _ => ⟨rfl, rfl, hstorage.trans ht.storage⟩,
      fun hpasses => absurd hpasses (ne_true_of_eq_false hpass)⟩

end Sys2Proof.Machine
end

section
/-! O6, O7, O8 (R81 to R96, R231, R232). The words that the spec writes out, and the two commands on the numbered
registers. `REG.RD` is settled register by register through `State.readReg`; `REG.WR` through what `State.writeReg`
accepts. -/

namespace Sys2Proof.Machine

section

variable {s t : State} {i : Instr} {x : Input} {r : Byte} {reg : Reg} {v : Word32}

/-! ### Words of the spec -/

/-- An input that the encoder gives for an instruction is decoded to it. -/
theorem decode_of_encode_eq (hwell : i.wellFormed = true) (hencode : encode i = x) : decode x = .ok i := by
  rw [← hencode, decode_encode hwell]

/-- The word of `REG.WR` as the spec writes it (format RW, R82). -/
theorem decode_regWr_word (r : Byte) (v : Word32) :
    decode (.command (0x02000000#32 ||| r.setWidth 32) v) = .ok (.regWr r v) := by
  rw [show 0x02000000#32 = (0x02#8).setWidth 32 <<< 24 from rfl, or_setWidth_eq_packCw]
  exact decode_encode (i := .regWr r v) rfl

/-! ### Reading a register (R231) -/

theorem exec_regRd_number (reg : Reg) (s : State) :
    exec (.regRd reg.number) s = .next (s.answer .ok (s.readReg reg)) := by
  change execRegRd reg.number s = _
  rw [execRegRd, regOfNumber_number]
  rfl

theorem regOfNumber_of_gt (h : 0x10 < r.toNat) : regOfNumber r = none := by
  rw [← Option.not_isSome_iff_eq_none, regOfNumber_isSome]
  omega

theorem exec_regRd_of_gt (h : 0x10 < r.toNat) (s : State) : exec (.regRd r) s = .next (s.answer .badCommand 0) := by
  change execRegRd r s = _
  rw [execRegRd, regOfNumber_of_gt h]
  rfl

/-- `INV_OK` as R24 words it. -/
theorem invOk_iff (s : State) : s.invOk = true ↔
    s.capacity ≠ 0 ∧ s.hOff.toNat < s.capacity.toNat ∧ s.hSize.toNat ≤ s.capacity.toNat := by
  simp only [State.invOk, Bool.and_eq_true, decide_eq_true_eq, and_assoc]

/-- Three flags side by side, as the sum of their weights (R36). -/
theorem setWidth_flagBits (bit2 bit1 bit0 : Bool) :
    (BitVec.ofBool bit2 ++ BitVec.ofBool bit1 ++ BitVec.ofBool bit0).setWidth 32 =
      BitVec.ofNat 32 ((if bit0 then 1 else 0) + (if bit1 then 2 else 0) + (if bit2 then 4 else 0)) := by
  revert bit2 bit1 bit0
  decide

/-- `H_FLAGS` as a number: `LOADED` counts 1, `CRC_OK` 2 and `INV_OK` 4 (R36). -/
theorem readReg_hFlags (s : State) :
    s.readReg .hFlags = BitVec.ofNat 32 ((if s.loaded then 1 else 0) + (if s.crcOk then 2 else 0) +
      (if s.capacity ≠ 0 ∧ s.hOff.toNat < s.capacity.toNat ∧ s.hSize.toNat ≤ s.capacity.toNat then 4 else 0)) := by
  simp only [← invOk_iff]
  exact setWidth_flagBits s.invOk s.crcOk s.loaded

/-- The registers in the order of their numbers (R21). -/
def Reg.all : List Reg :=
  [.crc, .crcAlg, .slaveAddr, .fbLen, .rKind, .rSlave, .rFunc, .rAddr, .rQty, .rBc, .capacity, .elementSize, .hSize,
    .hOff, .hTime, .hCrc, .hFlags]

theorem exec_regRd_of_mem (h : (r, v) ∈ Reg.all.map fun reg => (reg.number, s.readReg reg)) :
    exec (.regRd r) s = .next (s.answer .ok v) := by
  obtain ⟨reg, -, ⟨⟩⟩ := List.mem_map.1 h
  exact exec_regRd_number reg s

/-! ### Writing a register (R232) -/

theorem exec_regWr_of_some (h : s.writeReg reg v = some t) :
    exec (.regWr reg.number v) s = .next (t.answer .ok 0) := by
  change execRegWr reg.number v s = _
  rw [execRegWr, regOfNumber_number, Option.bind_some, h]
  rfl

theorem exec_regWr_of_none (h : ∀ reg, regOfNumber r = some reg → s.writeReg reg v = none) :
    exec (.regWr r v) s = .next (s.answer .badCommand 0) := by
  change execRegWr r v s = _
  rw [execRegWr, Option.bind_eq_none_iff.2 h]
  rfl

theorem writeReg_slaveAddr_of_le (h : v.toNat ≤ 0xFF) (s : State) :
    s.writeReg .slaveAddr v = some { s with slaveAddr := BitVec.ofNat 8 v.toNat } := by
  have hlow : v.extractLsb' 0 8 = BitVec.ofNat 8 v.toNat := by
    rw [BitVec.extractLsb', Nat.shiftRight_zero]
  rw [State.writeReg, if_neg (by omega), hlow]

theorem writeReg_slaveAddr_of_gt (h : 0xFF < v.toNat) (s : State) : s.writeReg .slaveAddr v = none := if_pos h

/-- A register whose number is none of the three writable ones takes no value from the host. -/
theorem writeReg_of_ne (v : Word32) (s : State) (hslave : reg.number ≠ 0x02) (hcap : reg.number ≠ 0x0A)
    (helem : reg.number ≠ 0x0B) : s.writeReg reg v = none := by
  cases reg with
  | slaveAddr => exact absurd rfl hslave
  | capacity => exact absurd rfl hcap
  | elementSize => exact absurd rfl helem
  | _ => rfl

theorem exec_regWr_slaveAddr_of_gt (h : 0xFF < v.toNat) (s : State) :
    exec (.regWr 0x02 v) s = .next (s.answer .badCommand 0) := by
  refine exec_regWr_of_none fun reg hreg => ?_
  cases (regOfNumber_number .slaveAddr).symm.trans hreg
  exact writeReg_slaveAddr_of_gt h s

theorem exec_regWr_of_ne (v : Word32) (s : State) (hslave : r ≠ 0x02) (hcap : r ≠ 0x0A) (helem : r ≠ 0x0B) :
    exec (.regWr r v) s = .next (s.answer .badCommand 0) := by
  refine exec_regWr_of_none fun reg hreg => ?_
  rw [number_of_regOfNumber hreg] at hslave hcap helem
  exact writeReg_of_ne v s hslave hcap helem

end

/-- Settles O6: each of the twelve accepted inputs is what the encoder gives for its instruction, and no opcode is
0. -/
theorem wordsOfTheSpecDecode : Obligations.WordsOfTheSpecDecode := by
  unfold Obligations.WordsOfTheSpecDecode
  exact ⟨decode_of_encode_eq rfl rfl, decode_of_encode_eq rfl rfl, decode_of_encode_eq rfl rfl,
    decode_of_encode_eq rfl rfl, decode_of_encode_eq rfl rfl, decode_of_encode_eq rfl rfl,
    decode_of_encode_eq rfl rfl, decode_of_encode_eq rfl rfl, decode_of_encode_eq rfl rfl, rfl,
    decode_of_encode_eq rfl rfl, decode_of_encode_eq rfl rfl, decode_of_encode_eq rfl rfl⟩

/-- Settles O7: the seventeen pairs are each register's number and what it reads as, and no other number selects a
register. -/
theorem regRdAnswersTheRegister : Obligations.RegRdAnswersTheRegister := by
  unfold Obligations.RegRdAnswersTheRegister
  refine ⟨fun r => decode_or_setWidth (op := 0x01#8) rfl rfl, fun s r v hmem => ?_,
    fun s r hreserved => exec_regRd_of_gt hreserved s⟩
  rw [← readReg_hFlags] at hmem
  exact exec_regRd_of_mem hmem

/-- Settles O8: the three writable registers, the bound of `SLAVE_ADDR`, and every other number. -/
theorem regWrWritesThreeRegisters : Obligations.RegWrWritesThreeRegisters := by
  unfold Obligations.RegWrWritesThreeRegisters
  refine ⟨decode_regWr_word, fun s v => ⟨fun hfits => ?_, fun hwide => exec_regWr_slaveAddr_of_gt hwide s, ?_, ?_⟩,
    fun s r v hslave hcap helem => exec_regWr_of_ne v s hslave hcap helem⟩
  · exact exec_regWr_of_some (writeReg_slaveAddr_of_le hfits s)
  · exact exec_regWr_of_some (reg := .capacity) rfl
  · exact exec_regWr_of_some (reg := .elementSize) rfl

end Sys2Proof.Machine
end

section
/-! O44, O45 (R85, R251, R256). How an instruction can end. A command other than `RX.PARSE` raises an error before it
writes anything, so that `Concludes` settles both statements for it; `ParseEnds` lists the ends of `RX.PARSE`. A byte
format ends as the last command that it runs. -/

namespace Sys2Proof.Machine

/-! ### The table of R251 -/

theorem ok_mem_mayAnswer (i : Instr) : .ok ∈ mayAnswer i := by
  cases i <;> exact .head _

/-- No instruction but the parser finds a function code that it does not know. -/
theorem exception_notMem_mayAnswer {i : Instr} (hi : i ≠ .rxParse) : .exception ∉ mayAnswer i := by
  cases i with
  | rxParse => exact absurd rfl hi
  | _ => simp [mayAnswer]

/-- The response in `t` is one that the tables of R251 and R85 allow the instruction. -/
def AnswersAsListed (i : Instr) (t : State) : Prop :=
  ∃ r, t.resp = some r ∧ r.status ∈ mayAnswer i ∧ (r.status = .exception → r.result = 1) ∧
    (r.status ≠ .exception → (r.status ≠ .ok ∨ carriesValue i = false) → r.result = 0)

/-- How a command other than `RX.PARSE` ends: with `Ok`, or with an error of its row of the table and the state
otherwise as it was. -/
inductive Concludes (i : Instr) (s : State) : State → Prop
  | ok (t : State) {v : Word32} (hv : carriesValue i = false → v = 0) : Concludes i s (t.answer .ok v)
  | error {st : Status} (hst : st ∈ mayAnswer i) : Concludes i s (s.answer st 0)

/-- How `RX.PARSE` ends (R134). -/
inductive ParseEnds (s : State) : State → Prop
  | accepted (t : State) : ParseEnds s (t.answer .ok 0)
  | short (hlen : s.fbLen.toNat < 8) : ParseEnds s ({ s with rKind := 0 }.answer .invalidLength 0)
  | otherSlave : ParseEnds s ({ s with rKind := 0 }.answer .invalidSlaveAddress 0)
  | wrongCrc : ParseEnds s ({ s with rKind := 0 }.answer .invalidCrc 0)
  | wrongCount (hlen : 8 ≤ s.fbLen.toNat) (hfunc : Memory.read s.fb 1 = 0x10) :
    ParseEnds s ({ s with rKind := 0, rSlave := Memory.read s.fb 0, rFunc := Memory.read s.fb 1 }.answer
      .invalidLength 0)
  | unknownFunction (hfunc : Memory.read s.fb 1 ∉ [0x03#8, 0x04#8, 0x06#8, 0x10#8]) :
    ParseEnds s ({ s with rKind := 0, rSlave := Memory.read s.fb 0, rFunc := Memory.read s.fb 1 }.answer .exception 1)

section

variable {i : Instr} {s t : State}

theorem answersAsListed_answer {st : Status} (hst : st ≠ .exception)
    (hmem : st ∈ mayAnswer i := by simp [mayAnswer]) : AnswersAsListed i (t.answer st 0) :=
  ⟨⟨st, 0⟩, rfl, hmem, (absurd · hst), fun _ _ => rfl⟩

theorem answersAsListed_ok : AnswersAsListed i (t.answer .ok 0) :=
  answersAsListed_answer nofun (ok_mem_mayAnswer i)

theorem Concludes.answersAsListed (h : Concludes i s t) (hi : i ≠ .rxParse) : AnswersAsListed i t := by
  cases h with
  | ok t hv => exact ⟨_, rfl, ok_mem_mayAnswer i, nofun, fun _ h => hv (h.resolve_left (absurd rfl))⟩
  | error hst => exact answersAsListed_answer (ne_of_mem_of_not_mem hst (exception_notMem_mayAnswer hi)) hst

theorem ParseEnds.answersAsListed (h : ParseEnds s t) : AnswersAsListed .rxParse t := by
  cases h with
  | accepted => exact answersAsListed_ok
  | short | otherSlave | wrongCrc | wrongCount => exact answersAsListed_answer nofun
  | unknownFunction => exact ⟨_, rfl, by simp [mayAnswer], fun _ => rfl, (absurd rfl ·)⟩

/-! ### Commands other than `RX.PARSE` -/

theorem respond_concludes {v : Word32} (hv : carriesValue i = false → v = 0) : Ends (Concludes i s) (respond v t) :=
  ends_next (.ok t hv)

theorem respond_zero_concludes : Ends (Concludes i s) (respond 0 t) := respond_concludes fun _ => rfl

theorem raise_concludes {st : Status} (hst : st ∈ mayAnswer i := by simp [mayAnswer]) :
    Ends (Concludes i s) (raise st s) :=
  ends_next (.error hst)

theorem check_concludes {c : Prop} [Decidable c] {st : Status} {o : Out} (hgo : Ends (Concludes i s) o)
    (hst : st ∈ mayAnswer i := by simp [mayAnswer]) : Ends (Concludes i s) (if c then raise st s else o) :=
  ends_check (.error hst) fun _ => hgo

theorem requireConfigured_concludes {k : State → Out} (hk : Ends (Concludes i s) (k s))
    (hst : .uninitialized ∈ mayAnswer i := by simp [mayAnswer]) : Ends (Concludes i s) (requireConfigured k s) :=
  ends_requireConfigured (.error hst) hk

theorem requireLoaded_concludes {k : State → Out} (hk : Ends (Concludes i s) (k s))
    (hst : .uninitialized ∈ mayAnswer i := by simp [mayAnswer]) : Ends (Concludes i s) (requireLoaded k s) :=
  ends_requireLoaded (.error hst) hk

theorem execRegRd_concludes (r : Byte) (s : State) : Ends (Concludes (.regRd r) s) (execRegRd r s) := by
  unfold execRegRd
  split
  · exact respond_concludes nofun
  · exact raise_concludes

theorem execFbPush_concludes (b : Byte) (s : State) : Ends (Concludes (.fbPush b) s) (execFbPush b s) := by
  refine check_concludes ?_
  split
  · exact ends_fault _
  · exact respond_zero_concludes

theorem execTxSeal_concludes (s : State) : Ends (Concludes .txSeal s) (execTxSeal s) :=
  check_concludes respond_zero_concludes

theorem execHdrReset_concludes (s : State) : Ends (Concludes .hdrReset s) (execHdrReset s) :=
  requireConfigured_concludes respond_zero_concludes

theorem execHdrFind_concludes (time : Word32) (s : State) :
    Ends (Concludes (.hdrFind time) s) (execHdrFind time s) := by
  refine requireLoaded_concludes ?_
  unfold findBucket
  split
  · exact respond_concludes nofun
  · exact raise_concludes

/-- A command writes only once its checks have passed (R256, R257). -/
theorem exec_concludes (hcommand : isCommand i = true) (hi : i ≠ .rxParse) (s : State) :
    Ends (Concludes i s) (exec i s) := by
  cases i with
  | regRd r => exact execRegRd_concludes r s
  | regWr r v => exact ends_execRegWr (.error (by simp [mayAnswer])) fun _ t _ _ => .ok t fun _ => rfl
  | fbPush b => exact execFbPush_concludes b s
  | txSeal => exact execTxSeal_concludes s
  | crcUpd | fbClr | txBegin | txExc | sysReset => exact respond_zero_concludes
  | crcInit | hbWr => exact check_concludes respond_zero_concludes
  | fbRd | hbRd => exact check_concludes (respond_concludes nofun)
  | hdrLoad =>
    exact requireConfigured_concludes
      (ends_loadHeader (fun _ _ _ _ => .ok _ fun _ => rfl) fun _ => .ok _ fun _ => rfl)
  | hdrReset => exact execHdrReset_concludes s
  | hdrSeal => exact requireLoaded_concludes respond_zero_concludes
  | hdrStart | hdrAdv => exact requireLoaded_concludes (check_concludes respond_zero_concludes)
  | hdrRet => exact requireLoaded_concludes (check_concludes (check_concludes respond_zero_concludes))
  | hdrTfirst => exact requireLoaded_concludes (check_concludes (check_concludes (respond_concludes nofun)))
  | hdrTlast => exact requireLoaded_concludes (check_concludes (respond_concludes nofun))
  | hdrFind time => exact execHdrFind_concludes time s
  | rxParse => exact absurd rfl hi
  | reqReadHolding | reqReadInput | reqWriteSingle | reqWriteMultiple | respNormal | respException | headerImage =>
    cases hcommand

theorem exec_answersAsListed_of_concludes (hcommand : isCommand i = true) (hi : i ≠ .rxParse) (s : State) :
    Ends (AnswersAsListed i) (exec i s) :=
  (exec_concludes hcommand hi s).mono fun _ ht => ht.answersAsListed hi

/-! ### `RX.PARSE` -/

/-- After the CRC check only the function code and the byte count of a 0x10 request are left to fail. -/
theorem dispatchFunction_parseEnds (len : Nat) (h8 : 8 ≤ s.fbLen.toNat) :
    Ends (ParseEnds s) (dispatchFunction len
      { s with rKind := 0, rSlave := Memory.read s.fb 0, rFunc := Memory.read s.fb 1 }) := by
  rw [dispatchFunction_eq]
  split_ifs with h3 h4 h6 h16
  · exact ends_next (.accepted _)
  · exact ends_next (.accepted _)
  · exact ends_next (.accepted _)
  · exact ends_next (.accepted _)
  · exact ends_next (.wrongCount h8 h16)
  · exact ends_next (.unknownFunction (by simp_all))

theorem execRxParse_parseEnds (s : State) : Ends (ParseEnds s) (execRxParse s) := by
  unfold execRxParse
  dsimp only
  split
  next hshort => exact ends_next (.short hshort)
  next hlong =>
    split
    · exact ends_fault _
    refine ends_check .otherSlave fun _ => ?_
    split
    · exact dispatchFunction_parseEnds _ (Nat.not_lt.1 hlong)
    · exact ends_next .wrongCrc

/-- R256's two exceptions: `R_KIND` is cleared by every error, and the two errors found after the CRC check have written
`R_SLAVE` and `R_FUNC`. -/
theorem ParseEnds.eq_of_not_ok {r : Response} (h : ParseEnds s t) (hresp : t.resp = some r) (hr : r.status ≠ .ok) :
    t = if r.status = .exception ∨ (r.status = .invalidLength ∧ 8 ≤ s.fbLen.toNat) then
        { s with rKind := 0, rSlave := Memory.read s.fb 0, rFunc := Memory.read s.fb 1, resp := some r }
      else { s with rKind := 0, resp := some r } := by
  cases h with
  | accepted =>
    cases hresp
    exact absurd rfl hr
  | short hlen =>
    cases hresp
    exact (if_neg (by simp; omega)).symm
  | otherSlave | wrongCrc =>
    cases hresp
    exact (if_neg (by simp)).symm
  | wrongCount hlen =>
    cases hresp
    exact (if_pos (.inr ⟨rfl, hlen⟩)).symm
  | unknownFunction =>
    cases hresp
    exact (if_pos (.inl rfl)).symm

/-! ### Byte formats

Nothing is known of `fb` here, not even that it is in canonical form; but a byte other than 0 is read back from any
space, and no function code of a request is 0. -/

theorem read_write_of_ne {m : Memory} {a x : Nat} (b : Byte) (hx : x ≠ a) :
    Memory.read (Memory.write m a b) x = Memory.read m x := by
  induction m with
  | nil => grind [Memory.write, Memory.read]
  | cons c m ih => grind [Memory.write, Memory.read]

theorem read_write_self {m : Memory} {b : Byte} (a : Nat) (hb : b ≠ 0#8) :
    Memory.read (Memory.write m a b) a = b := by
  induction m with
  | nil => grind [Memory.write, Memory.read]
  | cons c m ih => grind [Memory.write, Memory.read]

theorem read_writeAll_of_lt {m : Memory} {a x : Nat} (bytes : List Byte) (hx : x < a) :
    Memory.read (Memory.writeAll m a bytes) x = Memory.read m x := by
  induction bytes generalizing m a with
  | nil => rfl
  | cons b bs ih => rw [Memory.writeAll, ih (by omega), read_write_of_ne b (by omega)]

/-- A request that fits is parsed with the function code that it spells. -/
theorem parseFrame_request_parseEnds {slave func : Byte} {addr qty : Word16} {tail : List Byte} (hfunc : func ≠ 0#8)
    (h : tail.length ≤ 250) :
    ∃ u, u.fbLen.toNat = tail.length + 6 ∧ Memory.read u.fb 1 = func ∧
      Ends (ParseEnds u) (parseFrame (requestBytes slave func addr qty tail) s) := by
  have hlen := requestBytes_length slave func addr qty tail
  have h256 : (requestBytes slave func addr qty tail).length ≤ 256 := by omega
  have hne : requestBytes slave func addr qty tail ≠ [] := List.cons_ne_nil _ _
  rw [parseFrame_of_length hne h256]
  refine ⟨_, (loadedFrame_len h256).trans hlen, ?_, execRxParse_parseEnds _⟩
  have hrest : Memory.read (Memory.writeAll s.fb 0 (requestBytes slave func addr qty tail)) 1 =
      Memory.read (Memory.write (Memory.write s.fb 0 slave) 1 func) 1 := read_writeAll_of_lt _ Nat.one_lt_two
  exact hrest.trans (read_write_self 1 hfunc)

/-- A request that fits is neither too short nor of an unknown function code; the parser's other errors remain. -/
theorem parseFrame_request_answersAsListed {slave func : Byte} {addr qty : Word16} {tail : List Byte}
    (hfunc : func ∈ [0x03#8, 0x04#8, 0x06#8, 0x10#8]) (h2 : 2 ≤ tail.length) (h250 : tail.length ≤ 250)
    (hslave : .invalidSlaveAddress ∈ mayAnswer i) (hcrc : .invalidCrc ∈ mayAnswer i)
    (hcount : func = 0x10 → .invalidLength ∈ mayAnswer i) :
    Ends (AnswersAsListed i) (parseFrame (requestBytes slave func addr qty tail) s) := by
  have hne : func ≠ 0#8 := ne_of_mem_of_not_mem hfunc (by decide)
  obtain ⟨u, hulen, hufunc, hends⟩ := parseFrame_request_parseEnds (s := s) hne h250
  refine hends.mono fun t ht => ?_
  cases ht with
  | accepted => exact answersAsListed_ok
  | short hlen => omega
  | otherSlave => exact answersAsListed_answer nofun hslave
  | wrongCrc => exact answersAsListed_answer nofun hcrc
  | wrongCount _ h16 => exact answersAsListed_answer nofun (hcount (hufunc.symm.trans h16))
  | unknownFunction h => exact absurd hfunc (hufunc ▸ h)

theorem parseFrame_eightBytes_answersAsListed (slave func : Byte) (addr qty : Word16) (crcLo crcHi : Byte) (s : State)
    (hfunc : func ∈ [0x03#8, 0x04#8, 0x06#8]) (hi : mayAnswer i = [.ok, .invalidSlaveAddress, .invalidCrc]) :
    Ends (AnswersAsListed i) (parseFrame (requestBytes slave func addr qty [crcLo, crcHi]) s) := by
  have h16 : func ≠ 0x10 := ne_of_mem_of_not_mem hfunc (by decide)
  refine parseFrame_request_answersAsListed ?_ (by simp) (by simp) (by simp [hi]) (by simp [hi]) (absurd · h16)
  exact List.mem_append_left [0x10#8] hfunc

theorem execReqWriteMultiple_answersAsListed (slave : Byte) (addr qty : Word16) (count : Byte) (payload : List Byte)
    (crcLo crcHi : Byte) (s : State) :
    Ends (AnswersAsListed (.reqWriteMultiple slave addr qty count payload crcLo crcHi))
      (execReqWriteMultiple slave addr qty count payload crcLo crcHi s) := by
  have htail : (count :: (payload ++ [crcLo, crcHi])).length = payload.length + 3 := by simp
  by_cases hfits : payload.length ≤ 247
  · exact parseFrame_request_answersAsListed (by decide) (by omega) (by omega) (by simp [mayAnswer])
      (by simp [mayAnswer]) (by simp [mayAnswer])
  · have hlong := requestBytes_length slave 0x10 addr qty (count :: (payload ++ [crcLo, crcHi]))
    rw [execReqWriteMultiple, parseFrame, loadFrame_overflow (by omega)]
    exact ends_next (answersAsListed_answer nofun)

/-- `RESP` ends as `TX.SEAL` does, or at the byte that does not fit. -/
theorem buildResponse_answersAsListed (slave func : Byte) (data : List Byte) (s : State) :
    Ends (AnswersAsListed .txSeal) (buildResponse slave func data s) := by
  by_cases hfits : data.length ≤ 254
  · rw [buildResponse_of_fits slave func hfits]
    exact (execTxSeal_concludes _).mono fun _ ht => ht.answersAsListed nofun
  · rw [buildResponse_overflow slave func (by omega)]
    exact ends_next (answersAsListed_answer nofun)

theorem execHeaderImage_answersAsListed (size off time : Word32) (crc : Word16) (s : State) :
    Ends (AnswersAsListed (.headerImage size off time crc)) (execHeaderImage size off time crc s) := by
  have hlen : (imageBytes size off time crc).length = 14 := rfl
  have hne : imageBytes size off time crc ≠ [] := List.ne_nil_of_length_pos (by omega)
  rw [execHeaderImage, loadImage, hbWrites_then (by omega) hne]
  exact ends_next answersAsListed_ok

/-- The table of R251, row by row: the commands, the parser, and the byte formats. -/
theorem exec_answersAsListed (i : Instr) (s : State) : Ends (AnswersAsListed i) (exec i s) := by
  cases i with
  | rxParse => exact (execRxParse_parseEnds s).mono fun _ => ParseEnds.answersAsListed
  | reqReadHolding slave addr qty crcLo crcHi =>
    exact parseFrame_eightBytes_answersAsListed slave 0x03 addr qty crcLo crcHi s (by decide) rfl
  | reqReadInput slave addr qty crcLo crcHi =>
    exact parseFrame_eightBytes_answersAsListed slave 0x04 addr qty crcLo crcHi s (by decide) rfl
  | reqWriteSingle slave addr qty crcLo crcHi =>
    exact parseFrame_eightBytes_answersAsListed slave 0x06 addr qty crcLo crcHi s (by decide) rfl
  | reqWriteMultiple slave addr qty count payload crcLo crcHi =>
    exact execReqWriteMultiple_answersAsListed slave addr qty count payload crcLo crcHi s
  | respNormal slave func data => exact buildResponse_answersAsListed slave func data s
  | respException => exact ends_next answersAsListed_ok
  | headerImage size off time crc => exact execHeaderImage_answersAsListed size off time crc s
  | _ => exact exec_answersAsListed_of_concludes (by rfl) (by nofun) s

end

/-- Settles O44: the ends of `RX.PARSE` are told apart by their status and the frame's length, and any other command
that does not end `Ok` raised its error in the state that it found. -/
theorem errorsArePrecise : Obligations.ErrorsArePrecise := by
  unfold Obligations.ErrorsArePrecise
  refine fun i s t r hcommand hexec hresp hr => ⟨fun hi => ?_, ?_⟩
  · cases exec_concludes hcommand hi s t hexec with
    | ok t =>
      cases hresp
      exact absurd rfl hr
    | error =>
      cases hresp
      rfl
  · rintro rfl
    exact (execRxParse_parseEnds s t hexec).eq_of_not_ok hresp hr

/-- Settles O45: every instruction ends with a response that the tables allow it. -/
theorem statusesAreThoseOfTheTable : Obligations.StatusesAreThoseOfTheTable := by
  unfold Obligations.StatusesAreThoseOfTheTable
  exact exec_answersAsListed

end Sys2Proof.Machine
end

section
/-! O52, O57 (R291, R292). Power lost at a write of `save` or of `add`: the block is reset, the storage holds what the
writes before and the torn one left, and the procedure that reads it next gives what that storage stands for. -/

namespace Sys2Proof.Machine

section

variable {s : State} {r : ConfigRecord} {torn : List Byte}

/-! ### The access at which power is lost -/

/-- The state after power is lost at an access that left this storage (R264, R291). -/
def State.lostPower (s : State) (m : Memory) : State := { s.ioTaken.powerOn with storage := m }

@[simp] theorem lostPower_storage (m : Memory) : (s.lostPower m).storage = m := rfl
@[simp] theorem lostPower_io (m : Memory) : (s.lostPower m).io = s.io.tail := rfl
@[simp] theorem lostPower_params (m : Memory) : (s.lostPower m).params = s.params := rfl

theorem lostPower_hasResetValues (m : Memory) : (s.lostPower m).HasResetValues := reset_with_hasResetValues _ _ _ _ _

theorem storageWrite_losesPower (a : Nat) (bytes : List Byte) (hio : s.nextIo = .powerLoss torn) :
    storageWrite a bytes s = .crashed (s.lostPower (tornWrite s.storage a bytes.length torn)) := by
  simp [storageWrite, hio, State.lostPower]

/-! ### save (R205) -/

theorem configSave_primary_losesPower (hio : s.nextIo = .powerLoss torn) :
    configSave r s = .crashed (s.lostPower (tornWrite s.storage 0 1024 torn)) := by
  rw [configSave_eq, writeCopies, Config.cfgPrimary_eq, storageWrite_losesPower (s := s.withChecksum _ _) _ _ hio,
    page_length]
  rfl

theorem configSave_secondary_losesPower (hio : s.nextIo = .ok) (hio' : s.ioTaken.nextIo = .powerLoss torn) :
    configSave r s = .crashed (s.ioTaken.lostPower
      (tornWrite (Memory.writeAll s.storage 0 ((r.withCrc s.params).page s.params)) 1024 1024 torn)) := by
  rw [configSave_eq]
  generalize hpage : (r.withCrc s.params).page s.params = page
  have hlen : page.length = 1024 := hpage ▸ page_length _ _
  generalize hu : s.withChecksum _ _ = u
  have hfirst : u.nextIo = .ok := hu ▸ hio
  have hsecond : (u.accessed (Memory.writeAll u.storage 0 page)).nextIo = .powerLoss torn := hu ▸ hio'
  rw [writeCopies, Config.cfgPrimary_eq, Config.cfgSecondary_eq,
    storageWrite_succeeds hfirst (by rw [hlen]; decide), onOk_ok, ← State.accessed,
    storageWrite_losesPower _ _ hsecond, andThen_crashed, hlen, accessed_storage, ← hu]
  rfl

end

/-- Settles O52: the torn copy is outside the other one, which is the new page or the old secondary. -/
theorem saveSurvivesPowerLoss : Obligations.SaveSurvivesPowerLoss := by
  unfold Obligations.SaveSurvivesPowerLoss
  refine fun s r torn hwf => ⟨fun hio => ?_, fun hio => ?_⟩
  · have hsecond : s.ioTaken.nextIo = .powerLoss torn := nextIo_of_cons (by rw [State.ioTaken, hio, List.tail_cons])
    have hsave := configSave_secondary_losesPower (r := r) (nextIo_of_cons hio) hsecond
    have hlen := page_length s.params (r.withCrc s.params)
    have hm := writeAll_primary_wf (wf_storage hwf) hlen
    have hprimary := slice_primary (wf_storage hwf) hlen
    rw [← slice_congr fun x _ hx => read_tornWrite_outside (a := 1024) (n := 1024) (torn := torn) hm
      (.inl (by omega))] at hprimary
    generalize tornWrite _ _ _ _ = m at hsave hprimary
    have hio' : (s.ioTaken.lostPower m).io = [] := by
      rw [lostPower_io, State.ioTaken, hio, List.tail_cons, List.tail_cons]
    have hload := configLoad_of_primary hio' hprimary (pageValid_page_withCrc _ _)
    rw [lostPower_params, ioTaken_params, parse_page] at hload
    exact ⟨_, hsave, lostPower_hasResetValues _, hload⟩
  · have hsecondary : (s.lostPower (tornWrite s.storage 0 1024 torn)).secondary = s.secondary :=
      slice_congr fun x hx _ => read_tornWrite_outside (wf_storage hwf) (.inr (by omega))
    refine ⟨_, configSave_primary_losesPower (nextIo_of_cons hio), lostPower_hasResetValues _, hsecondary,
      fun hbad hvalid => ?_⟩
    exact configLoad_of_secondary (by rw [lostPower_io, hio, List.tail_cons]) hbad hsecondary hvalid

section

variable {g : RingInstance} {s : State} {q n i : Nat} {value : Word32} {torn : List Byte} {m : Memory}

/-! ### new on what is stored (R209) -/

/-- `new` gives back the header of a sealed image. -/
theorem ringNew_of_hdrEncode {size off time : Word32} (hg : g.Valid) (hhb : Memory.wf 14 s.hb = true)
    (hio : s.nextIo = .ok) (himg : Memory.slice s.storage g.hdrAddr 14 = hdrEncode s.params size off time) :
    ∃ t, ringNew g s = .done (.ok ()) t ∧ Opened g size off time s t ∧ t.crcOk = true := by
  have hnew := ringNew_of_match hg hhb hio himg (by rw [hdrCrc_hdrEncode, hdrDecode_hdrEncode])
  rwa [hdrDecode_hdrEncode] at hnew

/-- Unless a header write was cut and tore something, the stored header is a whole one. -/
theorem AddStopped.header_whole (h : AddStopped g s q value n torn m) (hcut : n % 2 = 0 ∨ torn = []) :
    Memory.slice m g.hdrAddr 14 =
      if n < 2 then Memory.slice s.storage g.hdrAddr 14 else (s.addRound q value (n / 2 - 1)).image s.params := by
  have hfront : (if n % 2 = 1 then torn.take 14 else []) = [] := by
    obtain heven | rfl := hcut
    · exact if_neg (by omega)
    · rw [List.take_nil, ite_self]
  have hheader := h.header
  rwa [hfront] at hheader

/-- The time of a round is a value of `H_TIME`: no round goes beyond the rounded time or the newest bucket. -/
theorem addRound_time_le (hi : i < s.addRounds q) : (s.addRound q value i).time ≤ max q s.hTime.toNat := by
  obtain ⟨-, -, h⟩ | ⟨-, hahead, hrounds, h⟩ | ⟨-, -, -, h⟩ := addRound_cases s q value i <;> rw [h] <;> dsimp only
  · exact le_max_left _ _
  · have hle := Nat.div_mul_le_self (q - s.hTime.toNat) s.elementSize.toNat
    have hmul := Nat.mul_le_mul_right s.elementSize.toNat (show i + 1 ≤ s.bucketsAhead q by omega)
    rw [State.bucketsAhead] at hmul hahead
    have hpos : 0 < q - s.hTime.toNat := Nat.pos_of_ne_zero fun hzero => by simp [hzero] at hahead
    omega
  · omega

/-- `new` gives back the header of a round whose header was stored. -/
theorem ringNew_of_round {t : State} (hg : g.Valid) (hs : RingSelected g s) (hq : q < 2 ^ 32)
    (hi : i < s.addRounds q) (hhb : Memory.wf 14 t.hb = true) (hio : t.nextIo = .ok)
    (himg : Memory.slice t.storage g.hdrAddr 14 = (s.addRound q value i).image t.params) :
    ∃ u, ringNew g t = .done (.ok ()) u ∧ HeaderAt (s.addRound q value i) u ∧ u.crcOk = true := by
  obtain ⟨u, hnew, hu, hok⟩ := ringNew_of_hdrEncode hg hhb hio himg
  have hcap := g.capacity.isLt
  have hsize := (addRound_size (q := q) (value := value) (i := i) hg hs).2
  have hoff := addRound_off_lt (q := q) (value := value) (i := i) hg hs
  have htime := addRound_time_le (value := value) hi
  have hlast := s.hTime.isLt
  exact ⟨u, hnew, ⟨by rw [hu.size, toNat_ofNat_of_lt (by omega)], by rw [hu.off, toNat_ofNat_of_lt (by omega)],
    by rw [hu.time, toNat_ofNat_of_lt (by omega)]⟩, hok⟩

end

/-- Settles O57: the `add` reaches its write `n`, what that leaves is `AddStopped`, and `new` reads its header. -/
theorem addInterruptedKeepsThePriorHeader : Obligations.AddInterruptedKeepsThePriorHeader := by
  unfold Obligations.AddInterruptedKeepsThePriorHeader
  intro g s value time n torn hg hs hio q hn
  have hsel := hs.selected
  have hoks : ∀ j < n, s.io.getD j .ok = .ok := fun j hj => by simp [hio, List.getElem?_append, hj]
  have hlost : s.io.getD n .ok = .powerLoss torn := by simp [hio]
  have hq : q < 2 ^ 32 := (Nat.sub_le _ _).trans_lt time.isLt
  obtain ⟨u, k, hadd, hat, -⟩ := ringAdd_reachesWrite hg hsel value time hoks hn
  rw [storageWrite_losesPower _ _ (hat.nextIo_eq.trans hlost), onOk_crashed, hat.storage] at hadd
  have hstopped := addStopped_tornWrite (value := value) hg hsel torn hn
  generalize tornWrite _ _ _ _ = m at hadd hstopped
  have hnext : (u.lostPower m).nextIo = .ok :=
    nextIo_of_nil (by rw [lostPower_io, hat.io, hio, List.drop_left' (List.length_replicate ..), List.tail_cons])
  have hparams : (u.lostPower m).params = s.params := hat.params_eq
  refine ⟨_, hadd, lostPower_hasResetValues _, hstopped, fun hfirst hcut size off at_ hstored => ?_,
    fun hlater hcut => ?_, fun hbad => ?_⟩
  · have himg := hstopped.header_whole (hcut.imp_left fun hzero => by rw [hzero])
    rw [if_pos hfirst, hstored, ← hparams] at himg
    obtain ⟨v, hnew, hv, hok⟩ := ringNew_of_hdrEncode (s := u.lostPower m) hg rfl hnext himg
    exact ⟨v, hnew, hv.size, hv.off, hv.time, hok⟩
  · have himg := hstopped.header_whole hcut
    rw [if_neg (by omega), ← hparams] at himg
    obtain ⟨v, hnew, hv, hok⟩ := ringNew_of_round (t := u.lostPower m) hg hsel hq (by omega) rfl hnext himg
    exact ⟨v, hnew, hv.size, hv.off, hv.time, hok⟩
  · obtain ⟨v, hnew, hv, hok⟩ := ringNew_of_mismatch hg rfl hnext rfl (hparams ▸ hbad)
    exact ⟨v, hnew, hv.size, hv.off, hv.time, hok⟩

end Sys2Proof.Machine
end
